-- ==== Sys2Proof/Word.lean ====
section
/-! DEFINITION. The two word types of AFSK-CORE: the 32-bit host word (R15, R45) and the byte (R16). -/

namespace Sys2Proof

/-- A 32-bit host register or command word (R15). -/
abbrev Word := BitVec 32

/-- A byte; bit 0 is its least-significant bit (R16). -/
abbrev Byte := BitVec 8

end Sys2Proof
end

