-- ==== Sys2Proof/Syntax.lean ====
section
/-! DEFINITION. The instructions of AFSK-CORE, one constructor per row of spec/opcode_table.json: the fourteen command
words written to CMD (R104) and the two host bus operations (R271, R272); and the host bus access that carries them. -/

namespace Sys2Proof

/-- One constructor per row of the opcode table, in the table's order. -/
inductive Instr where
  /-- `NOP`, form H: `hint` is the ignored IMM field (R109, R270). -/
  | nop (hint : BitVec 24)
  /-- `CRC.INIT`, form Z (R132). -/
  | crcInit
  /-- `CRC.BIT b`, form B1 (R133). -/
  | crcBit (b : Bool)
  /-- `CRC.BYTE d`, form B8 (R134). -/
  | crcByte (d : Byte)
  /-- `CRC.DIGEST`, form Z (R135). -/
  | crcDigest
  /-- `CRC.CHECK`, form Z (R136). -/
  | crcCheck
  /-- `ADDR.CH d`, form B8 (R166). -/
  | addrCh (d : Byte)
  /-- `ADDR.SSID d`, form B8 (R167). -/
  | addrSsid (d : Byte)
  /-- `FR.BEGIN`, form Z (R184). -/
  | frBegin
  /-- `FR.HDR`, form Z (R185). -/
  | frHdr
  /-- `FR.INFO d`, form B8 (R186). -/
  | frInfo (d : Byte)
  /-- `FR.END`, form Z (R187). -/
  | frEnd
  /-- `FR.ABORT`, form Z (R188). -/
  | frAbort
  /-- `TX.SILENCE n`, form N24 (R251). -/
  | txSilence (n : BitVec 24)
  /-- `MMIO.RD off`: a host read, `width` bits wide, `off` bytes from `BASE_ADDR` (R271). -/
  | mmioRd (width off : Nat)
  /-- `MMIO.WR off, v`: a host write, `width` bits wide, `off` bytes from `BASE_ADDR` (R272). -/
  | mmioWr (width off : Nat) (v : Word)
deriving DecidableEq, Repr

/-- A host bus access to the register window: its width in bits and its byte offset from `BASE_ADDR` (R84). -/
inductive Access where
  | read (width off : Nat)
  | write (width off : Nat) (v : Word)
deriving DecidableEq, Repr

/-- The form in which an instruction reaches the block: a command word (R100) or a bus access (R271, R272). -/
inductive Encoded where
  | word (w : Word)
  | bus (a : Access)
deriving DecidableEq, Repr

/-- The mnemonic of spec/opcode_table.json (R104, R271, R272). -/
def Instr.mnemonic : Instr → String
  | .nop _ => "NOP"
  | .crcInit => "CRC.INIT"
  | .crcBit _ => "CRC.BIT"
  | .crcByte _ => "CRC.BYTE"
  | .crcDigest => "CRC.DIGEST"
  | .crcCheck => "CRC.CHECK"
  | .addrCh _ => "ADDR.CH"
  | .addrSsid _ => "ADDR.SSID"
  | .frBegin => "FR.BEGIN"
  | .frHdr => "FR.HDR"
  | .frInfo _ => "FR.INFO"
  | .frEnd => "FR.END"
  | .frAbort => "FR.ABORT"
  | .txSilence _ => "TX.SILENCE"
  | .mmioRd _ _ => "MMIO.RD"
  | .mmioWr _ _ _ => "MMIO.WR"

/-- The instruction is one of the fourteen command words of R104 (not a bus operation). -/
def Instr.isCommand : Instr → Bool
  | .nop _ => true
  | .crcInit => true
  | .crcBit _ => true
  | .crcByte _ => true
  | .crcDigest => true
  | .crcCheck => true
  | .addrCh _ => true
  | .addrSsid _ => true
  | .frBegin => true
  | .frHdr => true
  | .frInfo _ => true
  | .frEnd => true
  | .frAbort => true
  | .txSilence _ => true
  | .mmioRd _ _ => false
  | .mmioWr _ _ _ => false

end Sys2Proof
end

