-- ==== Sys2Proof/WellFormed.lean ====
section
/-! DEFINITION. Well-formed instructions: a command word's operands have exactly the widths of their forms (R102), so
every command term is well formed; a bus operation must be an access the block accepts (R84). -/

namespace Sys2Proof

/-- R84: a 32-bit access at an aligned offset no higher than 0x3C. -/
def busAccepts (width off : Nat) : Bool :=
  width == 32 && off % 4 == 0 && off ≤ 0x3C

/-- The access is one the block accepts (R84). -/
def Access.accepted : Access → Bool
  | .read width off => busAccepts width off
  | .write width off _ => busAccepts width off

/-- The instruction is well formed: R102 for commands (by type), R84 for bus operations. -/
def Instr.wellFormed : Instr → Bool
  | .nop _ => true
  | .crcInit => true
  | .crcBit _ => true
  | .crcByte _ => true
  | .crcDigest => true
  | .crcCheck => true
  | .addrCh _ => true
  | .addrSsid _ => true
  | .frBegin => true
  | .frHdr => true
  | .frInfo _ => true
  | .frEnd => true
  | .frAbort => true
  | .txSilence _ => true
  | .mmioRd width off => busAccepts width off
  | .mmioWr width off _ => busAccepts width off

end Sys2Proof
end

