-- ==== Sys2Proof/Decode.lean ====
section
/-! DEFINITION. Decoding and encoding (R100 to R109).  Decoding is a total function of the word alone (R106) and rejects
by name; a bus access decodes to MMIO.RD or MMIO.WR where R84 accepts it.  The encoder and the match/mask table of R105
follow. -/

namespace Sys2Proof

/-- Why a word or an access is no instruction. -/
inductive DecodeError where
  /-- The OPC field is a value R104 does not list (R108). -/
  | reservedOpcode
  /-- The OPC is listed and a must-be-zero operand bit is 1 (R107). -/
  | reservedOperandBits
  /-- A bus access R84 does not accept: another width, misaligned, or above 0x3C. -/
  | busError
deriving DecidableEq, Repr

/-! ## Fields and operand forms (R101, R102) -/

/-- Field OPC, bits 31:24 (R101). -/
def opcField (w : Word) : BitVec 8 := w.extractLsb' 24 8

/-- Field IMM, bits 23:0 (R101). -/
def immField (w : Word) : BitVec 24 := w.extractLsb' 0 24

/-- Form Z: IMM[23:0] must be 0 (R102). -/
def formZ (imm : BitVec 24) (i : Instr) : Except DecodeError Instr :=
  if imm = 0 then .ok i else .error .reservedOperandBits

/-- Form B1: operand IMM[0]; IMM[23:1] must be 0 (R102). -/
def formB1 (imm : BitVec 24) (f : Bool → Instr) : Except DecodeError Instr :=
  if imm.extractLsb' 1 23 = 0 then .ok (f (imm.getLsbD 0)) else .error .reservedOperandBits

/-- Form B8: operand IMM[7:0]; IMM[23:8] must be 0 (R102). -/
def formB8 (imm : BitVec 24) (f : Byte → Instr) : Except DecodeError Instr :=
  if imm.extractLsb' 8 16 = 0 then .ok (f (imm.extractLsb' 0 8)) else .error .reservedOperandBits

/-- Forms N24 and H: the whole IMM field, no bit reserved (R102). -/
def formN24 (imm : BitVec 24) (f : BitVec 24 → Instr) : Except DecodeError Instr :=
  .ok (f imm)

/-- The command a 32-bit word stands for, or the name of why it stands for none (R104, R106 to R109). -/
def decodeWord (w : Word) : Except DecodeError Instr :=
  match (opcField w).toNat with
  | 0x00 => formN24 (immField w) .nop
  | 0x10 => formZ (immField w) .crcInit
  | 0x11 => formB1 (immField w) .crcBit
  | 0x12 => formB8 (immField w) .crcByte
  | 0x13 => formZ (immField w) .crcDigest
  | 0x14 => formZ (immField w) .crcCheck
  | 0x20 => formB8 (immField w) .addrCh
  | 0x21 => formB8 (immField w) .addrSsid
  | 0x30 => formZ (immField w) .frBegin
  | 0x31 => formZ (immField w) .frHdr
  | 0x32 => formB8 (immField w) .frInfo
  | 0x33 => formZ (immField w) .frEnd
  | 0x34 => formZ (immField w) .frAbort
  | 0x40 => formN24 (immField w) .txSilence
  | _ => .error .reservedOpcode

/-- The bus operation an access stands for (R271, R272), refused by name where R84 does not accept it. -/
def decodeAccess : Access → Except DecodeError Instr
  | .read width off =>
    if busAccepts width off then .ok (.mmioRd width off) else .error .busError
  | .write width off v =>
    if busAccepts width off then .ok (.mmioWr width off v) else .error .busError

/-- The decoder: a command word or a bus access. -/
def decode : Encoded → Except DecodeError Instr
  | .word w => decodeWord w
  | .bus a => decodeAccess a

/-! ## Encoding -/

/-- A command word from its two fields (R101). -/
def commandWord (opc : BitVec 8) (imm : BitVec 24) : Word := opc ++ imm

/-- The instruction's encoded form: R105's words for the commands, the bus access for MMIO.RD and MMIO.WR. -/
def encode : Instr → Encoded
  | .nop hint => .word (commandWord 0x00 hint)
  | .crcInit => .word (commandWord 0x10 0)
  | .crcBit b => .word (commandWord 0x11 ((BitVec.ofBool b).setWidth 24))
  | .crcByte d => .word (commandWord 0x12 (d.setWidth 24))
  | .crcDigest => .word (commandWord 0x13 0)
  | .crcCheck => .word (commandWord 0x14 0)
  | .addrCh d => .word (commandWord 0x20 (d.setWidth 24))
  | .addrSsid d => .word (commandWord 0x21 (d.setWidth 24))
  | .frBegin => .word (commandWord 0x30 0)
  | .frHdr => .word (commandWord 0x31 0)
  | .frInfo d => .word (commandWord 0x32 (d.setWidth 24))
  | .frEnd => .word (commandWord 0x33 0)
  | .frAbort => .word (commandWord 0x34 0)
  | .txSilence n => .word (commandWord 0x40 n)
  | .mmioRd width off => .bus (.read width off)
  | .mmioWr width off v => .bus (.write width off v)

/-- The command word a command instruction's errors record as `w` (R300); 0 for the bus operations, which have none. -/
def wordOf (i : Instr) : Word :=
  match encode i with
  | .word w => w
  | .bus _ => 0

/-- A row of R105: a word `w` is the row's command when `w AND mask = pattern`. -/
structure OpcodeRow where
  mnemonic : String
  pattern : Word
  mask : Word
deriving DecidableEq, Repr

/-- The match/mask table of R105, one row per command. -/
def opcodeTable : List OpcodeRow :=
  [⟨"NOP", 0x00000000, 0xFF000000⟩,
   ⟨"CRC.INIT", 0x10000000, 0xFFFFFFFF⟩,
   ⟨"CRC.BIT", 0x11000000, 0xFFFFFFFE⟩,
   ⟨"CRC.BYTE", 0x12000000, 0xFFFFFF00⟩,
   ⟨"CRC.DIGEST", 0x13000000, 0xFFFFFFFF⟩,
   ⟨"CRC.CHECK", 0x14000000, 0xFFFFFFFF⟩,
   ⟨"ADDR.CH", 0x20000000, 0xFFFFFF00⟩,
   ⟨"ADDR.SSID", 0x21000000, 0xFFFFFF00⟩,
   ⟨"FR.BEGIN", 0x30000000, 0xFFFFFFFF⟩,
   ⟨"FR.HDR", 0x31000000, 0xFFFFFFFF⟩,
   ⟨"FR.INFO", 0x32000000, 0xFFFFFF00⟩,
   ⟨"FR.END", 0x33000000, 0xFFFFFFFF⟩,
   ⟨"FR.ABORT", 0x34000000, 0xFFFFFFFF⟩,
   ⟨"TX.SILENCE", 0x40000000, 0xFF000000⟩]

/-- The word is the row's command (R105). -/
def OpcodeRow.covers (r : OpcodeRow) (w : Word) : Bool := w &&& r.mask == r.pattern

/-- The host's view of the decoder: the instruction read from a 32-bit command word (notes/assumptions/9 says why the
table's two bus rows, whose bits are a byte offset and no command word, decode here as the command word of that value). -/
def decodeTableWord (nbits w : Nat) : Option Instr :=
  if nbits ≤ 32 ∧ w < 2 ^ 32 then (decodeWord (BitVec.ofNat 32 w)).toOption else none

end Sys2Proof
end

