-- ==== Sys2Proof/Config.lean ====
section
/-! DEFINITION. What is fixed for one AFSK-CORE: the constants the source states (R13, R14), the parameters the spec
leaves OPEN (R11: BASE_ADDR, AMP, AMP_EPS, Amplitude) and the one free value of the model. -/

namespace Sys2Proof.Config

/-! ## Fixed constants (R13, R14) -/

/-- `POLY`, the CRC polynomial in bit-reversed form (R13). -/
abbrev poly : BitVec 16 := 0x8408
/-- `CRC_INIT` (R13). -/
abbrev crcInit : BitVec 16 := 0xFFFF
/-- `CRC_RESIDUE` (R14, R138). -/
abbrev crcResidue : BitVec 16 := 0xF0B8
/-- `CONTROL_UI` (R13). -/
abbrev controlUi : Byte := 0x03
/-- `PID_NONE` (R13). -/
abbrev pidNone : Byte := 0xF0
/-- `FLAG` (R13). -/
abbrev flag : Byte := 0x7E
/-- `STUFF_RUN`: a `0` follows this many consecutive `1` bits (R13). -/
abbrev stuffRun : Nat := 5
/-- `NRZI_INIT` (R13). -/
abbrev nrziInit : Bool := true
/-- `MARK_HZ` (R13). -/
abbrev markHz : Nat := 1200
/-- `SPACE_HZ` (R13). -/
abbrev spaceHz : Nat := 2200
/-- `BAUD`, symbols per second (R13). -/
abbrev baud : Nat := 1200
/-- `CALL_MAX`, the most base characters of a callsign (R13). -/
abbrev callMax : Nat := 6
/-- `PATH_MAX`, the most digipeaters (R13). -/
abbrev pathMax : Nat := 8
/-- `ADDR_MAX = 2 + PATH_MAX` (R14). -/
abbrev addrMax : Nat := 2 + pathMax
/-- `PAD`, the encoded space character (R14, R163). -/
abbrev pad : Byte := 0x40

/-! ## OPEN parameters (R11) -/

/-- An uninterpreted block number; the window lies at 64 times it.  No body: `BASE_ADDR` is OPEN (R11). -/
opaque baseBlock : Nat

/-- `BASE_ADDR`: any address aligned to 64 bytes (R11). -/
def baseAddr : Nat := 64 * baseBlock

/-- Uninterpreted: which numbers name an amplitude word beside 0.  No body: the type `Amplitude` is OPEN (R11). -/
opaque isAmplitudeRaw : Nat → Bool

/-- The amplitude words, numbered; number 0 is `ZERO`. -/
def isAmplitude (n : Nat) : Bool := n == 0 || isAmplitudeRaw n

/-- `Amplitude` (R11): an uninterpreted type of words with a distinguished one.  A word has a number, so that states can
be written out and compared; how many words there are, and which, is open, and the number is no bit pattern
(DESIGN CHOICE, notes/assumptions/2). -/
abbrev Amplitude := { n : Nat // isAmplitude n = true }

/-- `ZERO` (R11). -/
def zeroAmp : Amplitude := ⟨0, rfl⟩

/-- An uninterpreted function of phase word and sample rate.  No body: `AMP` is OPEN (R11). -/
opaque ampRaw : Nat → Nat → Nat

/-- `AMP p R` (R11): a total function of `p` and `R` alone (AMP_FUNCTION, R246).  Every function to the type is one of
these: where the uninterpreted one names no word the answer is `ZERO`. -/
def amp (p R : Nat) : Amplitude :=
  if h : isAmplitude (ampRaw p R) = true then ⟨ampRaw p R, h⟩ else zeroAmp

/-- An uninterpreted number for each amplitude word.  No body: the format is OPEN (R246). -/
opaque ampNumber : Nat → ℝ

/-- The number an amplitude word denotes: exactly 0 for `ZERO` (R11), and a value in [-1, 1] for every word
(AMP_RANGE, R246), because the uninterpreted one is clamped to that interval.  Two words may denote one number.  No step
depends on it. -/
noncomputable def ampValue (a : Amplitude) : ℝ :=
  if a = zeroAmp then 0 else max (-1) (min 1 (ampNumber a.val))

/-- AMP_APPROX (R246) for a tolerance `eps` (`AMP_EPS`, R11): a premise a claim may take; the model never uses it. -/
def AmpApprox (eps : ℝ) : Prop :=
  0 ≤ eps ∧ ∀ p R : Nat, 0 < R → |ampValue (amp p R) - Real.sin (2 * Real.pi * p / R)| ≤ eps

/-! ## Free value -/

/-- What `a mod 0` is (R17 defines `a mod m` for `m > 0` only).  No body.  R247 (a): the mod-0 update is never
evaluated by a run from reset or from FR.BEGIN (notes/assumptions/3). -/
opaque modByZero : Nat → Nat

end Sys2Proof.Config
end

