-- ==== Sys2Proof/Machine/State.lean ====
section
/-! DEFINITION. The state of AFSK-CORE: every register and hidden element of 10_state.md (R32 to R60), the stream port
(R250), the host's bus port (R81), what outside agents do next (R7), and the observation of a run (R9).  Plain data. -/

namespace Sys2Proof.Machine

/-! ## Enumerations -/

/-- FSTATE, the frame phase (R40); the code 3 is never taken. -/
inductive Phase where
  | idle
  | address
  | info
deriving DecidableEq, Repr

/-- CAUSE, the recorded cause (R300); codes 6 to 15 are never recorded. -/
inductive Cause where
  | none
  | invalidCallsign
  | checksumMismatch
  | illegalCommand
  | sequence
  | addressCount
deriving DecidableEq, Repr

/-- The kind of a sample record (R250). -/
inductive SampleKind where
  | tone
  | silence
deriving DecidableEq, Repr

/-! ## Sample records -/

/-- One sample record of the stream port (R250). -/
structure Sample where
  kind : SampleKind
  sym : Bool
  phase : BitVec 20
  amp : Config.Amplitude
deriving DecidableEq, Repr

/-! ## Registers -/

/-- The line coder's accumulators: ONES (R33) and NRZI (R34). -/
structure LineCoder where
  ones : BitVec 3
  nrzi : Bool
deriving DecidableEq, Repr

/-- The tone synthesizer's registers: PHASE (R35), CLKACC (R36), SYMCNT (R37), SMPCNT (R38). -/
structure Synth where
  phase : BitVec 20
  clkacc : Word
  symcnt : Word
  smpcnt : Word
deriving DecidableEq, Repr

/-- The frame assembler: FSTATE (R40), PEND and HOLD (R41), CHARS (R42), NADDR (R43). -/
structure FrameAsm where
  fstate : Phase
  pend : Bool
  hold : Byte
  chars : BitVec 3
  naddr : BitVec 4
deriving DecidableEq, Repr

/-- The frame assembler with no frame open (R306, R340). -/
def FrameAsm.closed : FrameAsm := ⟨.idle, false, 0, 0, 0⟩

/-- The event and error registers: EVENT's fields (R47) and ERRINFO (R54). -/
structure Events where
  errv : Bool
  fdone : Bool
  cause : Cause
  errnaddr : BitVec 4
  errinfo : Word
deriving DecidableEq, Repr

/-- CTRL, the interrupt enables (R48). -/
structure Ctrl where
  ieErr : Bool
  ieDone : Bool
deriving DecidableEq, Repr

/-- The configuration registers: SRATE (R50), PRECNT (R51), FLAGCNT (R52), PREBYTE (R53). -/
structure Setup where
  srate : BitVec 20
  precnt : BitVec 16
  flagcnt : BitVec 16
  prebyte : Byte
deriving DecidableEq, Repr

/-- All registers of the block, and the IRQ output (R55). -/
structure Regs where
  crc : BitVec 16
  line : LineCoder
  synth : Synth
  asm : FrameAsm
  events : Events
  ctrl : Ctrl
  result : BitVec 16
  setup : Setup
  irq : Bool
deriving DecidableEq, Repr

/-- The reset table of R340. -/
def Regs.reset : Regs where
  crc := 0xFFFF
  line := ⟨0, true⟩
  synth := ⟨0, 0, 0, 0⟩
  asm := FrameAsm.closed
  events := ⟨false, false, .none, 0, 0⟩
  ctrl := ⟨false, false⟩
  result := 0
  setup := ⟨48000, 32, 100, 0x55⟩
  irq := false

/-! ## What outside agents do -/

/-- One act of an outside agent (R7): the host presents an access (R89), the sink is ready to take one record
(R250), or the reset input is asserted (R341). -/
inductive Stimulus where
  | access (a : Access)
  | sinkReady
  | reset
deriving DecidableEq, Repr

/-! ## The state -/

/-- The machine.  `regs` are the registers as a host access sees them, between commands (R81). -/
structure State where
  /-- The registers, between commands. -/
  regs : Regs
  /-- R60 (a): `some` while a command is in progress whose records the sink has not all taken; it holds the registers
  as the command leaves them when it completes. -/
  after : Option Regs
  /-- R60 (b): the records emitted and not yet accepted, oldest first; the first is the one the port offers. -/
  offers : List Sample
  /-- R9 (1): the records the sink has accepted, oldest first. -/
  accepted : List Sample
  /-- R81: the host accesses presented and stalled, oldest first. -/
  waiting : List Access
  /-- R9 (2): the values host reads have returned, oldest first. -/
  reads : List Word
  /-- R9 (3): the level of IRQ after each completed host access, oldest first. -/
  irqLog : List Bool
  /-- R8: what the host, the sink and the reset input do next, in this order (parameters of the model, held as data). -/
  stimuli : List Stimulus
deriving DecidableEq, Repr

/-- The machine right after reset (R340, R342): no record offered, no access presented. -/
def State.reset : State where
  regs := Regs.reset
  after := none
  offers := []
  accepted := []
  waiting := []
  reads := []
  irqLog := []
  stimuli := []

/-! ## Why a step can stop -/

/-- The faults.  Both are the spec's own: the block never traps (R10). -/
inductive Fault where
  /-- Raised by MMIO.RD and MMIO.WR: the bus error response of R84 (treatment `fault`, X3).  Safe: the block changes
  nothing, and the model stops where a platform may go on. -/
  | busError
  /-- Raised by the step when reset is asserted while a host access is stalled (R341, treatment `fault`, X7).  Safe: the
  model stops where a platform may go on. -/
  | accessLostAtReset
deriving DecidableEq, Repr

/-- The refusals. -/
inductive Refusal where
  /-- Raised by an arm of `exec` whose instruction has no meaning yet; no arm raises it now.  Safe. -/
  | notModelled (mnemonic : String)
deriving DecidableEq, Repr

/-- What a meaning answers. -/
abbrev Result := Host.Outcome State Fault Refusal

end Sys2Proof.Machine
end

