-- ==== Sys2Proof/Machine/Flags.lean ====
section
/-! DEFINITION. The status flags ERRV and FDONE with the record ERRV guards (R47, R59, R305), and the IRQ level computed
from them (R55, R315).  AFSK-CORE has no arithmetic flags (R59). -/

namespace Sys2Proof.Machine

/-- `IRQ = (IE_ERR AND ERRV) OR (IE_DONE AND FDONE)` (R55). -/
def irqLevel (c : Ctrl) (e : Events) : Bool :=
  (c.ieErr && e.errv) || (c.ieDone && e.fdone)

/-- Recompute the IRQ output (R315). -/
def updateIrq (s : State) : State :=
  { s with regs.irq := irqLevel s.regs.ctrl s.regs.events }

/-- The record of R305: only the first error since ERRV was cleared is kept. -/
def Events.record (e : Events) (c : Cause) (naddr : BitVec 4) (info : Word) : Events :=
  if e.errv then e else { e with errv := true, cause := c, errnaddr := naddr, errinfo := info }

/-- The write-1-to-clear of EVENT (R47): bit 0 clears the error record, bit 1 clears FDONE, other bits are ignored. -/
def Events.clear (e : Events) (v : Word) : Events :=
  { errv := e.errv && !v.getLsbD 0
    fdone := e.fdone && !v.getLsbD 1
    cause := if v.getLsbD 0 then .none else e.cause
    errnaddr := if v.getLsbD 0 then 0 else e.errnaddr
    errinfo := if v.getLsbD 0 then 0 else e.errinfo }

end Sys2Proof.Machine
end

