-- ==== Sys2Proof/Machine/Operands.lean ====
section
/-! DEFINITION. Operand and register forms: bit order (R82), character codes (R161 to R164), the digest (R138), the
register names, their offsets and the words a host reads from them (R45 to R54, R271), and bus addresses (R11, R87). -/

namespace Sys2Proof.Machine

/-! ## Bit order -/

/-- The bits of a byte in transmission order, least-significant first (R82). -/
def bitsLsb (d : Byte) : List Bool :=
  [d.getLsbD 0, d.getLsbD 1, d.getLsbD 2, d.getLsbD 3, d.getLsbD 4, d.getLsbD 5, d.getLsbD 6, d.getLsbD 7]

/-! ## Character codes -/

/-- `EncodeChar c = (c << 1)[7:0]` (R161). -/
def encodeChar (c : Byte) : Byte := c <<< 1

/-- `Upper c`: ASCII `a` to `z` become `A` to `Z`, every other byte is unchanged (R162). -/
def upper (c : Byte) : Byte :=
  if 0x61 ≤ c.toNat ∧ c.toNat ≤ 0x7A then c - 0x20 else c

/-- `HOLD OR 0x01`: an SSID byte with the end-of-address bit (R165). -/
def endOfAddress (h : Byte) : Byte := h ||| 0x01

/-! ## Digest -/

/-- `Digest c`, the one's complement of the CRC (R138). -/
def digest (c : BitVec 16) : BitVec 16 := ~~~c

/-- The first FCS byte sent, `Digest[7:0]` (R83, R138). -/
def fcsLow (f : BitVec 16) : Byte := f.extractLsb' 0 8

/-- The second FCS byte sent, `Digest[15:8]` (R83, R138). -/
def fcsHigh (f : BitVec 16) : Byte := f.extractLsb' 8 8

/-! ## Register names and offsets (R45) -/

/-- The sixteen registers of the window. -/
inductive RegName where
  | cmd | status | event | ctrl | result | srate | precnt | flagcnt
  | prebyte | crc | phase | clkacc | symcnt | smpcnt | hold | errinfo
deriving DecidableEq, Repr

/-- A register's byte offset from `BASE_ADDR` (R45). -/
def RegName.offset : RegName → Nat
  | .cmd => 0x00
  | .status => 0x04
  | .event => 0x08
  | .ctrl => 0x0C
  | .result => 0x10
  | .srate => 0x14
  | .precnt => 0x18
  | .flagcnt => 0x1C
  | .prebyte => 0x20
  | .crc => 0x24
  | .phase => 0x28
  | .clkacc => 0x2C
  | .symcnt => 0x30
  | .smpcnt => 0x34
  | .hold => 0x38
  | .errinfo => 0x3C

/-- The register at a byte offset (R45). -/
def RegName.ofOffset : Nat → Option RegName
  | 0x00 => some .cmd
  | 0x04 => some .status
  | 0x08 => some .event
  | 0x0C => some .ctrl
  | 0x10 => some .result
  | 0x14 => some .srate
  | 0x18 => some .precnt
  | 0x1C => some .flagcnt
  | 0x20 => some .prebyte
  | 0x24 => some .crc
  | 0x28 => some .phase
  | 0x2C => some .clkacc
  | 0x30 => some .symcnt
  | 0x34 => some .smpcnt
  | 0x38 => some .hold
  | 0x3C => some .errinfo
  | _ => none

/-- The register an access selects; none where the access gets a bus error (R84). -/
def selectReg (width off : Nat) : Option RegName :=
  if busAccepts width off then RegName.ofOffset off else none

/-- The access that a bus transaction at an absolute address is, or none where the address lies outside the 64-byte
window, which the block does not decode (R87, X4). -/
def busRead (width addr : Nat) : Option Access :=
  if Config.baseAddr ≤ addr ∧ addr < Config.baseAddr + 64 then some (.read width (addr - Config.baseAddr)) else none

/-- As `busRead`, for a write of `v`. -/
def busWrite (width addr : Nat) (v : Word) : Option Access :=
  if Config.baseAddr ≤ addr ∧ addr < Config.baseAddr + 64 then some (.write width (addr - Config.baseAddr) v) else none

/-! ## Register words -/

/-- The 2-bit code of FSTATE (R40). -/
def Phase.code : Phase → BitVec 2
  | .idle => 0
  | .address => 1
  | .info => 2

/-- The 4-bit code of CAUSE (R300). -/
def Cause.code : Cause → BitVec 4
  | .none => 0
  | .invalidCallsign => 1
  | .checksumMismatch => 2
  | .illegalCommand => 3
  | .sequence => 4
  | .addressCount => 5

/-- STATUS (R46): `0^18, ONES, NRZI, NADDR, CHARS, PEND, FSTATE`. -/
def statusWord (r : Regs) : Word :=
  (0#18 ++ r.line.ones ++ BitVec.ofBool r.line.nrzi ++ r.asm.naddr ++ r.asm.chars ++ BitVec.ofBool r.asm.pend
    ++ r.asm.fstate.code : BitVec 32)

/-- EVENT (R47): `0^20, ERRNADDR, CAUSE, 0^2, FDONE, ERRV`. -/
def eventWord (e : Events) : Word :=
  (0#20 ++ e.errnaddr ++ e.cause.code ++ 0#2 ++ BitVec.ofBool e.fdone ++ BitVec.ofBool e.errv : BitVec 32)

/-- CTRL (R48): `0^30, IE_DONE, IE_ERR`. -/
def ctrlWord (c : Ctrl) : Word :=
  (0#30 ++ BitVec.ofBool c.ieDone ++ BitVec.ofBool c.ieErr : BitVec 32)

/-- `Value(off)` of R271: the word a host read of the register returns. -/
def readReg (n : RegName) (r : Regs) : Word :=
  match n with
  | .cmd => 0
  | .status => statusWord r
  | .event => eventWord r.events
  | .ctrl => ctrlWord r.ctrl
  | .result => r.result.setWidth 32
  | .srate => r.setup.srate.setWidth 32
  | .precnt => r.setup.precnt.setWidth 32
  | .flagcnt => r.setup.flagcnt.setWidth 32
  | .prebyte => r.setup.prebyte.setWidth 32
  | .crc => r.crc.setWidth 32
  | .phase => r.synth.phase.setWidth 32
  | .clkacc => r.synth.clkacc
  | .symcnt => r.synth.symcnt
  | .smpcnt => r.synth.smpcnt
  | .hold => r.asm.hold.setWidth 32
  | .errinfo => r.events.errinfo

end Sys2Proof.Machine
end

