-- ==== Sys2Proof/Machine/Ops.lean ====
section
/-! DEFINITION. The operations every family shares: raising an error (R305, the block's only exceptional action) with its
abort (R306), the return from it (R310), the frame-phase check (R303), releasing the held address byte (R165) and
emitting records (R250). -/

namespace Sys2Proof.Machine

/-- `Abort()` (R306): an open frame is abandoned; in IDLE nothing changes. -/
def abort (s : State) : State :=
  if s.regs.asm.fstate = .idle then s else { s with regs.asm := FrameAsm.closed }

/-- `raise Error(c, info)` (R305): record the first error, with NADDR as it was before the abort; abort; recompute IRQ. -/
def raiseError (c : Cause) (info : Word) (s : State) : State :=
  updateIrq (abort { s with regs.events := s.regs.events.record c s.regs.asm.naddr info })

/-- The return from an error (R310): a host write of `v` to EVENT (R47). -/
def acknowledge (v : Word) (s : State) : State :=
  { s with regs.events := s.regs.events.clear v }

/-- `require P` (R303): the command `w` runs `body` in frame phase `p` and raises SEQUENCE in any other. -/
def requirePhase (p : Phase) (w : Word) (body : State → State) (s : State) : State :=
  if s.regs.asm.fstate = p then body s else raiseError .sequence w s

/-- `Emit` for a run of records, in order (R18, R250): they wait at the stream port behind those already offered. -/
def emit (recs : List Sample) (s : State) : State :=
  { s with offers := s.offers ++ recs }

/-- Run `f` `n` times (the `for i in 1..n` of R18). -/
def repeatTimes (f : State → State) : Nat → State → State
  | 0, s => s
  | n + 1, s => repeatTimes f n (f s)

/-- Feed a byte's bits to a bit procedure, least-significant bit first (R82). -/
def sendBits (f : Bool → State → State) (d : Byte) (s : State) : State :=
  (bitsLsb d).foldl (fun t b => f b t) s

/-- Apply `f` to the state of a next outcome; a fault or a refusal passes unchanged. -/
def onNext (f : State → State) : Result → Result
  | .next t => .next (f t)
  | .fault r => .fault r
  | .refused r => .refused r

end Sys2Proof.Machine
end

