-- ==== Sys2Proof/Machine/Checksum.lean ====
section
/-! DEFINITION. The Checksum Engine (41_checksum.md): CrcBit, CrcByte and CRC.INIT, CRC.BIT, CRC.BYTE, CRC.DIGEST,
CRC.CHECK. -/

namespace Sys2Proof.Machine

/-- `CrcBit(b)` on a register value (R131). -/
def crcBit (c : BitVec 16) (b : Bool) : BitVec 16 :=
  if c.getLsbD 0 = b then c >>> 1 else (c >>> 1) ^^^ Config.poly

/-- `CrcBit` fed a bit sequence in order. -/
def crcBits (c : BitVec 16) (bs : List Bool) : BitVec 16 := bs.foldl crcBit c

/-- `CrcByte(d)`, least-significant bit first (R137). -/
def crcByte (c : BitVec 16) (d : Byte) : BitVec 16 := crcBits c (bitsLsb d)

/-- CRC.INIT (R132). -/
def execCrcInit (s : State) : Result :=
  .next (requirePhase .idle (wordOf .crcInit) (fun t => { t with regs.crc := Config.crcInit }) s)

/-- CRC.BIT b (R133). -/
def execCrcBit (b : Bool) (s : State) : Result :=
  .next (requirePhase .idle (wordOf (.crcBit b)) (fun t => { t with regs.crc := crcBit t.regs.crc b }) s)

/-- CRC.BYTE d (R134). -/
def execCrcByte (d : Byte) (s : State) : Result :=
  .next (requirePhase .idle (wordOf (.crcByte d)) (fun t => { t with regs.crc := crcByte t.regs.crc d }) s)

/-- CRC.DIGEST (R135): accepted in every frame phase; CRC keeps its value. -/
def execCrcDigest (s : State) : Result :=
  .next { s with regs.result := digest s.regs.crc }

/-- CRC.CHECK (R136): accepted in every frame phase. -/
def execCrcCheck (s : State) : Result :=
  .next (if s.regs.crc = Config.crcResidue then s else raiseError .checksumMismatch (wordOf .crcCheck) s)

end Sys2Proof.Machine
end

