-- ==== Sys2Proof/Machine/ToneSynth.lean ====
section
/-! DEFINITION. The Tone Synthesizer (45_tone_synth.md): the procedure Symbol with its sample loop, and TX.SILENCE. -/

namespace Sys2Proof.Machine

/-- The tone frequency of a symbol: mark for 1, space for 0 (R240). -/
def toneFreq (sym : Bool) : Nat := if sym then Config.markHz else Config.spaceHz

/-- `a mod R` (R17); for `R = 0`, where R17 defines nothing, a free value. -/
def modRate (a rate : Nat) : Nat := if rate = 0 then Config.modByZero a else a % rate

/-- The TONE record of the present phase (R243, R250). -/
def toneSample (sym : Bool) (rate : BitVec 20) (y : Synth) : Sample :=
  ⟨.tone, sym, y.phase, Config.amp y.phase.toNat rate.toNat⟩

/-- The register updates of one sample (R243): SMPCNT, CLKACC, then PHASE. -/
def toneStep (sym : Bool) (rate : BitVec 20) (y : Synth) : Synth :=
  { y with
    smpcnt := y.smpcnt + 1
    clkacc := y.clkacc - 1200
    phase := BitVec.ofNat 20 (modRate (y.phase.toNat + toneFreq sym) rate.toNat) }

/-- The loop `while CLKACC > 0` of R243, with the records it emits in order.  CLKACC falls by 1200 in every turn, so a
`fuel` of CLKACC's own value is never used up. -/
def toneLoop (sym : Bool) (rate : BitVec 20) : Nat → Synth → Synth × List Sample
  | 0, y => (y, [])
  | fuel + 1, y =>
    if 0 < y.clkacc.toInt then
      let r := toneLoop sym rate fuel (toneStep sym rate y)
      (r.1, toneSample sym rate y :: r.2)
    else (y, [])

/-- The first lines of `Symbol`: count the symbol and move its boundary (R243). -/
def symbolStart (rate : BitVec 20) (y : Synth) : Synth :=
  { y with symcnt := y.symcnt + 1, clkacc := y.clkacc + rate.setWidth 32 }

/-- `Symbol(t)` on the synthesizer's registers, with the records it emits (R243). -/
def synthSymbol (sym : Bool) (rate : BitVec 20) (y : Synth) : Synth × List Sample :=
  toneLoop sym rate (symbolStart rate y).clkacc.toInt.toNat (symbolStart rate y)

/-- `Symbol(t)` (R243). -/
def symbol (sym : Bool) (s : State) : State :=
  emit (synthSymbol sym s.regs.setup.srate s.regs.synth).2
    { s with regs.synth := (synthSymbol sym s.regs.setup.srate s.regs.synth).1 }

/-- The SILENCE record (R250). -/
def silenceSample : Sample := ⟨.silence, false, 0, Config.zeroAmp⟩

/-- TX.SILENCE n (R251). -/
def execTxSilence (n : BitVec 24) (s : State) : Result :=
  .next (requirePhase .idle (wordOf (.txSilence n)) (emit (List.replicate n.toNat silenceSample)) s)

end Sys2Proof.Machine
end

