-- ==== Sys2Proof/Machine/LineCoder.lean ====
section
/-! DEFINITION. The Line Coder (44_line_coder.md): NRZI (LineBit), unstuffed bytes (LineByte) and HDLC bit stuffing
(StuffBit). -/

namespace Sys2Proof.Machine

/-- `LineBit(x)` (R215): a 0 toggles NRZI, a 1 holds it; the state after that is the symbol. -/
def lineBit (x : Bool) (s : State) : State :=
  let level := if x then s.regs.line.nrzi else !s.regs.line.nrzi
  symbol level { s with regs.line.nrzi := level }

/-- `LineByte(d)` (R214): an unstuffed byte. -/
def lineByte (d : Byte) (s : State) : State := sendBits lineBit d s

/-- Set the stuffing run counter ONES (R33). -/
def setOnes (n : BitVec 3) (s : State) : State := { s with regs.line.ones := n }

/-- `StuffBit(b)` (R212): after the 5th consecutive 1 a 0 is sent and the run starts again. -/
def stuffBit (b : Bool) (s : State) : State :=
  let t := lineBit b s
  if b then
    let n := t.regs.line.ones + 1
    if n = 5 then setOnes 0 (lineBit false (setOnes n t)) else setOnes n t
  else setOnes 0 t

end Sys2Proof.Machine
end

