-- ==== Sys2Proof/Machine/FrameBuilder.lean ====
section
/-! DEFINITION. The Frame Builder (43_frame_builder.md): DataByte, FcsByte and FR.BEGIN, FR.HDR, FR.INFO, FR.END,
FR.ABORT. -/

namespace Sys2Proof.Machine

/-- One bit of `DataByte`: counted in the CRC, then stuffed and sent (R181). -/
def dataBit (b : Bool) (s : State) : State :=
  stuffBit b { s with regs.crc := crcBit s.regs.crc b }

/-- `DataByte(d)`, a header or information byte (R181). -/
def dataByte (d : Byte) (s : State) : State := sendBits dataBit d s

/-- `FcsByte(d)`: stuffed, not counted in the CRC (R182). -/
def fcsByte (d : Byte) (s : State) : State := sendBits stuffBit d s

/-- The per-frame initialization of FR.BEGIN (R184, R344). -/
def frameInit (s : State) : State :=
  { s with
    regs.crc := Config.crcInit
    regs.line := ⟨0, Config.nrziInit⟩
    regs.synth := ⟨0, 0, 0, 0⟩
    regs.asm := { s.regs.asm with pend := false, hold := 0, chars := 0, naddr := 0 } }

/-- The preamble: PRECNT copies of PREBYTE, then FLAGCNT flags (R180, R184). -/
def sendPreamble (s : State) : State :=
  repeatTimes (lineByte Config.flag) s.regs.setup.flagcnt.toNat
    (repeatTimes (lineByte s.regs.setup.prebyte) s.regs.setup.precnt.toNat s)

/-- Enter a frame phase (R40). -/
def setPhase (p : Phase) (s : State) : State := { s with regs.asm.fstate := p }

/-- Clear PEND and HOLD (R41). -/
def clearHold (s : State) : State := { s with regs.asm.pend := false, regs.asm.hold := 0 }

/-- FR.BEGIN (R184). -/
def execFrBegin (s : State) : Result :=
  .next (requirePhase .idle (wordOf .frBegin) (fun t => setPhase .address (sendPreamble (frameInit t))) s)

/-- The header bytes FR.HDR sends once its checks pass (R185). -/
def sendHeader (s : State) : State :=
  setPhase .info
    (dataByte Config.pidNone (dataByte Config.controlUi (clearHold (dataByte (endOfAddress s.regs.asm.hold) s))))

/-- FR.HDR (R185), its checks in the order of R304. -/
def execFrHdr (s : State) : Result :=
  .next (requirePhase .address (wordOf .frHdr)
    (fun t =>
      if 0 < t.regs.asm.chars.toNat then raiseError .invalidCallsign (wordOf .frHdr) t
      else if t.regs.asm.naddr.toNat < 2 then raiseError .addressCount (wordOf .frHdr) t
      else sendHeader t) s)

/-- FR.INFO d (R186). -/
def execFrInfo (d : Byte) (s : State) : Result :=
  .next (requirePhase .info (wordOf (.frInfo d)) (dataByte d) s)

/-- The FCS and the closing flag (R187). -/
def sendTrailer (f : BitVec 16) (s : State) : State :=
  lineByte Config.flag (fcsByte (fcsHigh f) (fcsByte (fcsLow f) s))

/-- The registers FR.END sets once the closing flag is sent (R187). -/
def closeFrame (f : BitVec 16) (s : State) : State :=
  updateIrq { s with
    regs.result := f
    regs.asm.fstate := .idle
    regs.asm.naddr := 0
    regs.events.fdone := true }

/-- FR.END (R187). -/
def execFrEnd (s : State) : Result :=
  .next (requirePhase .info (wordOf .frEnd)
    (fun t => closeFrame (digest t.regs.crc) (sendTrailer (digest t.regs.crc) t)) s)

/-- FR.ABORT (R188): accepted in every frame phase; no error is recorded. -/
def execFrAbort (s : State) : Result :=
  .next { s with regs.asm := FrameAsm.closed }

end Sys2Proof.Machine
end

