-- ==== Sys2Proof/Machine/AddressCodec.lean ====
section
/-! DEFINITION. The Address Codec (42_address_codec.md): ADDR.CH and ADDR.SSID, with the held SSID byte (R165). -/

namespace Sys2Proof.Machine

/-- Send the held SSID byte, bit 0 as it is, because another address follows (R165). -/
def releaseHold (s : State) : State :=
  if s.regs.asm.pend then clearHold (dataByte s.regs.asm.hold s) else s

/-- What ADDR.CH sends once its checks pass (R166). -/
def sendChar (d : Byte) (s : State) : State :=
  let t := dataByte (encodeChar (upper d)) (releaseHold s)
  { t with regs.asm.chars := t.regs.asm.chars + 1 }

/-- ADDR.CH d (R166). -/
def execAddrCh (d : Byte) (s : State) : Result :=
  .next (requirePhase .address (wordOf (.addrCh d))
    (fun t =>
      if t.regs.asm.chars.toNat = Config.callMax then raiseError .invalidCallsign (wordOf (.addrCh d)) t
      else if t.regs.asm.chars = 0 ∧ t.regs.asm.naddr.toNat = Config.addrMax then
        raiseError .addressCount (wordOf (.addrCh d)) t
      else sendChar d t) s)

/-- What ADDR.SSID sends and holds once its check passes (R167): the previous SSID byte, the padding, and the new SSID
byte kept back. -/
def completeCallsign (d : Byte) (s : State) : State :=
  let t := repeatTimes (dataByte Config.pad) (Config.callMax - s.regs.asm.chars.toNat) (releaseHold s)
  { t with regs.asm := { t.regs.asm with hold := encodeChar d, pend := true, chars := 0, naddr := t.regs.asm.naddr + 1 } }

/-- ADDR.SSID d (R167). -/
def execAddrSsid (d : Byte) (s : State) : Result :=
  .next (requirePhase .address (wordOf (.addrSsid d))
    (fun t =>
      if t.regs.asm.chars = 0 ∧ t.regs.asm.naddr.toNat = Config.addrMax then
        raiseError .addressCount (wordOf (.addrSsid d)) t
      else completeCallsign d t) s)

end Sys2Proof.Machine
end

