-- ==== Sys2Proof/Machine/HostAccess.lean ====
section
/-! DEFINITION. Host access and NOP (46_host_access.md): NOP, MMIO.RD, MMIO.WR, and the execution of a word written to
CMD (R106). -/

namespace Sys2Proof.Machine

/-- NOP (R270): nothing, whatever the hint. -/
def execNop (_hint : BitVec 24) (s : State) : Result := .next s

/-- Run a decoded command: the meaning of each command of R104.  (A bus operation is never what a word decodes to.) -/
def runCommand (i : Instr) (s : State) : Result :=
  match i with
  | .nop hint => execNop hint s
  | .crcInit => execCrcInit s
  | .crcBit b => execCrcBit b s
  | .crcByte d => execCrcByte d s
  | .crcDigest => execCrcDigest s
  | .crcCheck => execCrcCheck s
  | .addrCh d => execAddrCh d s
  | .addrSsid d => execAddrSsid d s
  | .frBegin => execFrBegin s
  | .frHdr => execFrHdr s
  | .frInfo d => execFrInfo d s
  | .frEnd => execFrEnd s
  | .frAbort => execFrAbort s
  | .txSilence n => execTxSilence n s
  | .mmioRd _ _ => .next s
  | .mmioWr _ _ _ => .next s

/-- `Execute(w)` (R106): the command, or ILLEGAL_COMMAND for a reserved word (R107, R108). -/
def executeWord (w : Word) (s : State) : Result :=
  match decodeWord w with
  | .ok i => runCommand i s
  | .error _ => .next (raiseError .illegalCommand w s)

/-- The configuration registers a write in IDLE leaves (R50 to R53): each stores its own writable bits only. -/
def Setup.write (c : Setup) (n : RegName) (v : Word) : Setup :=
  match n with
  | .srate => { c with srate := v.setWidth 20 }
  | .precnt => { c with precnt := v.setWidth 16 }
  | .flagcnt => { c with flagcnt := v.setWidth 16 }
  | .prebyte => { c with prebyte := v.setWidth 8 }
  | .cmd => c
  | .status => c
  | .event => c
  | .ctrl => c
  | .result => c
  | .crc => c
  | .phase => c
  | .clkacc => c
  | .symcnt => c
  | .smpcnt => c
  | .hold => c
  | .errinfo => c

/-- The word ERRINFO records for a refused configuration write, `0xFF000000 OR offset` (R54, R57). -/
def refusedWriteInfo (n : RegName) : Word := 0xFF000000 ||| BitVec.ofNat 32 n.offset

/-- A write to a configuration register: stored in IDLE, refused with SEQUENCE while a frame is open (R57). -/
def writeSetup (n : RegName) (v : Word) (s : State) : State :=
  if s.regs.asm.fstate = .idle then { s with regs.setup := s.regs.setup.write n v }
  else raiseError .sequence (refusedWriteInfo n) s

/-- The case split of MMIO.WR (R272). -/
def writeReg (n : RegName) (v : Word) (s : State) : Result :=
  match n with
  | .cmd => executeWord v s
  | .event => .next (acknowledge v s)
  | .ctrl => .next { s with regs.ctrl := ⟨v.getLsbD 0, v.getLsbD 1⟩ }
  | .srate => .next (writeSetup .srate v s)
  | .precnt => .next (writeSetup .precnt v s)
  | .flagcnt => .next (writeSetup .flagcnt v s)
  | .prebyte => .next (writeSetup .prebyte v s)
  | .status => .next s
  | .result => .next s
  | .crc => .next s
  | .phase => .next s
  | .clkacc => .next s
  | .symcnt => .next s
  | .smpcnt => .next s
  | .hold => .next s
  | .errinfo => .next s

/-- MMIO.RD off (R271): the value goes to the host (R9); no register changes (R86). -/
def execMmioRd (width off : Nat) (s : State) : Result :=
  match selectReg width off with
  | none => .fault .busError
  | some n => .next { s with reads := s.reads ++ [readReg n s.regs] }

/-- MMIO.WR off, v (R272). -/
def execMmioWr (width off : Nat) (v : Word) (s : State) : Result :=
  match selectReg width off with
  | none => .fault .busError
  | some n => onNext updateIrq (writeReg n v s)

end Sys2Proof.Machine
end

