-- ==== Sys2Proof/Machine/Dispatch.lean ====
section
/-! DEFINITION. One arm per instruction: each calls its meaning. -/

namespace Sys2Proof.Machine

def exec (i : Instr) (s : State) : Host.Outcome State Fault Refusal :=
  match i with
  | .nop hint => Sys2Proof.Machine.execNop hint s
  | .crcInit => Sys2Proof.Machine.execCrcInit s
  | .crcBit b => Sys2Proof.Machine.execCrcBit b s
  | .crcByte d => Sys2Proof.Machine.execCrcByte d s
  | .crcDigest => Sys2Proof.Machine.execCrcDigest s
  | .crcCheck => Sys2Proof.Machine.execCrcCheck s
  | .addrCh d => Sys2Proof.Machine.execAddrCh d s
  | .addrSsid d => Sys2Proof.Machine.execAddrSsid d s
  | .frBegin => Sys2Proof.Machine.execFrBegin s
  | .frHdr => Sys2Proof.Machine.execFrHdr s
  | .frInfo d => Sys2Proof.Machine.execFrInfo d s
  | .frEnd => Sys2Proof.Machine.execFrEnd s
  | .frAbort => Sys2Proof.Machine.execFrAbort s
  | .txSilence n => Sys2Proof.Machine.execTxSilence n s
  | .mmioRd width off => Sys2Proof.Machine.execMmioRd width off s
  | .mmioWr width off v => Sys2Proof.Machine.execMmioWr width off v s

end Sys2Proof.Machine
end

