-- ==== Sys2Proof/Machine/Port.lean ====
section
/-! DEFINITION. What surrounds an instruction: the host's bus port, which takes one access at a time (R81), the stream
port with its valid/ready handshake (R250), and the reset input (R341). -/

namespace Sys2Proof.Machine

/-- A command is in progress: some record it emitted is not yet accepted (R60, R81). -/
def State.busy (s : State) : Bool := s.after.isSome

/-- The host access completes; the level of IRQ after it is observed (R9, R315). -/
def completeAccess (s : State) : State :=
  { s with irqLog := s.irqLog ++ [s.regs.irq] }

/-- What becomes of the state `t` an access leaves when it was accepted in `s`: with no record to hand over the access
is complete; with records it is in progress until the sink has taken them all, the registers meanwhile standing as
before it (R81, R85; notes/assumptions/4). -/
def settle (s t : State) : State :=
  if t.offers.isEmpty then completeAccess t else { t with regs := s.regs, after := some t.regs }

/-- The block accepts an access in `s` and executes it (R81, R84, R100). -/
def serve (a : Access) (s : State) : Result :=
  match decodeAccess a with
  | .error _ => .fault .busError
  | .ok i => onNext (settle s) (exec i s)

/-- The last record of the command in progress has been accepted: the command is complete (R81, R250). -/
def finishCommand (s : State) : State :=
  match s.after with
  | none => s
  | some r => completeAccess { s with regs := r, after := none }

/-- The sink accepts the record offered, if there is one (R250). -/
def sinkAccept (s : State) : State :=
  match s.offers with
  | [] => s
  | rec :: rest =>
    if rest.isEmpty then finishCommand { s with offers := rest, accepted := s.accepted ++ [rec] }
    else { s with offers := rest, accepted := s.accepted ++ [rec] }

/-- The reset input (R341): the command in progress is abandoned, the offered record withdrawn, and every register takes
its reset value (R340); what has left the block stays out. -/
def resetBlock (s : State) : State :=
  { State.reset with accepted := s.accepted, reads := s.reads, irqLog := s.irqLog, stimuli := s.stimuli }

/-- Reset asserted: an access stalled at that moment is never completed (R341, X7). -/
def assertReset (s : State) : Result :=
  if s.waiting.isEmpty then .next (resetBlock s) else .fault .accessLostAtReset

/-- One step while a command is in progress: a presented access stalls (R81), the sink may take the offered record, and
with no stimulus the stall goes on (R355).  An access that R84 refuses stalls like any other and meets its bus error only
when it is served: R81, R355 and X6 stall every access, the pseudocode of R271 and R272 gives the bus error before the
wait, and the choice between them is the model's (DESIGN CHOICE, notes/assumptions/19). -/
def stepBusy (s : State) : Result :=
  match s.stimuli with
  | [] => .next s
  | .access a :: rest => .next { s with stimuli := rest, waiting := s.waiting ++ [a] }
  | .sinkReady :: rest => .next (sinkAccept { s with stimuli := rest })
  | .reset :: rest => assertReset { s with stimuli := rest }

/-- One step between commands with no access stalled: the next access is executed (R89); with no stimulus the block
idles and keeps its state (R325). -/
def stepFree (s : State) : Result :=
  match s.stimuli with
  | [] => .next s
  | .access a :: rest => serve a { s with stimuli := rest }
  | .sinkReady :: rest => .next (sinkAccept { s with stimuli := rest })
  | .reset :: rest => assertReset { s with stimuli := rest }

/-- One step between commands with `a` the oldest stalled access: it is executed, unless reset comes first (R89, R341). -/
def stepStalled (a : Access) (as : List Access) (s : State) : Result :=
  match s.stimuli with
  | .reset :: rest => assertReset { s with stimuli := rest }
  | [] => serve a { s with waiting := as }
  | .access _ :: _ => serve a { s with waiting := as }
  | .sinkReady :: _ => serve a { s with waiting := as }

/-- The host presents, as its very next act, the write of command word `w` to CMD, with no command in progress and no
access stalled (R100). -/
def presentCommand (s : State) (w : Word) : State :=
  { s with after := none, offers := [], waiting := [], stimuli := .access (.write 32 RegName.cmd.offset w) :: s.stimuli }

end Sys2Proof.Machine
end

