-- ==== Sys2Proof/Machine/Step.lean ====
section
/-! DEFINITION. The step of the machine (R7, R81, R89): one act of one agent. -/

namespace Sys2Proof.Machine

/-- One step: while a command is in progress the sink, the reset input or a newly presented access acts; between
commands the oldest stalled access is executed first, then the next stimulus. -/
def step (s : State) : Host.Outcome State Fault Refusal :=
  if s.busy then stepBusy s
  else
    match s.waiting with
    | a :: as => stepStalled a as s
    | [] => stepFree s

/-- The state in which the next step executes the command whose word is `w` (R31: the block fetches nothing; the next
command is the next word the host writes to CMD). -/
def State.withFetchWord (s : State) (_nbits w : Nat) : State :=
  presentCommand s (BitVec.ofNat 32 w)

end Sys2Proof.Machine
end

