-- ==== Sys2Proof/Machine/Assembler.lean ====
section
/-! DEFINITION. The assembler notation (R110) and its pseudo-instructions (R111): a line of a host program is the list of
host accesses it stands for.  It has no effect on the block (D35); it says which accesses a written program presents. -/

namespace Sys2Proof.Machine

/-! ## Pseudo-instructions as command sequences (R111) -/

/-- A callsign as `CALL` takes it: base characters and one SSID character (R20, R111). -/
structure Callsign where
  base : List Byte
  ssid : Byte
deriving DecidableEq, Repr

/-- The SSID a callsign written without one has, `'0'` (R111). -/
def defaultSsid : Byte := 0x30

/-- `CALL "BASE", 'S'` (R111). -/
def callInstrs (c : Callsign) : List Instr := c.base.map .addrCh ++ [.addrSsid c.ssid]

/-- `INFO "text"` (R111). -/
def infoInstrs (text : List Byte) : List Instr := text.map .frInfo

/-- `CRC.BYTES "text"` (R111). -/
def crcBytesInstrs (text : List Byte) : List Instr := text.map .crcByte

/-- `UIFRAME dst, src, [p1, ..., pk], "text"` (R111). -/
def uiFrameInstrs (dst src : Callsign) (path : List Callsign) (text : List Byte) : List Instr :=
  [.frBegin] ++ (dst :: src :: path).flatMap callInstrs ++ [.frHdr] ++ infoInstrs text ++ [.frEnd]

/-! ## Lines -/

/-- One line of a program, its operands read. -/
inductive AsmLine where
  /-- `MNEMONIC` or `MNEMONIC operand`. -/
  | command (i : Instr)
  /-- `.word v`. -/
  | word (v : Word)
  /-- `WR reg, v`. -/
  | wr (n : RegName) (v : Word)
  /-- `RD reg`. -/
  | rd (n : RegName)
  /-- `CALL "BASE", 'S'`. -/
  | call (c : Callsign)
  /-- `INFO "text"`. -/
  | info (text : List Byte)
  /-- `CRC.BYTES "text"`. -/
  | crcBytes (text : List Byte)
  /-- `UIFRAME dst, src, [p1, ..., pk], "text"`. -/
  | uiFrame (dst src : Callsign) (path : List Callsign) (text : List Byte)
  /-- `SILENCE_MS t`. -/
  | silenceMs (t : Nat)
  /-- A line with no operation: empty, or a comment. -/
  | blank
deriving DecidableEq, Repr

/-- The write of a command's word to CMD (R110). -/
def commandAccess (i : Instr) : Access := .write 32 RegName.cmd.offset (wordOf i)

/-- The assembler accepts a callsign whose base has at most 6 characters (R111). -/
def Callsign.fits (c : Callsign) : Bool := c.base.length ≤ Config.callMax

/-- The host accesses of a line, none where the assembler refuses it; `rate` is the SRATE value the program last wrote
(R111). -/
def assembleLine (rate : Nat) : AsmLine → Option (List Access)
  | .command i => if i.isCommand then some [commandAccess i] else none
  | .word v => some [.write 32 RegName.cmd.offset v]
  | .wr n v => some [.write 32 n.offset v]
  | .rd n => some [.read 32 n.offset]
  | .call c => if c.fits then some ((callInstrs c).map commandAccess) else none
  | .info text => some ((infoInstrs text).map commandAccess)
  | .crcBytes text => some ((crcBytesInstrs text).map commandAccess)
  | .uiFrame dst src path text =>
    if (dst :: src :: path).all Callsign.fits && path.length ≤ Config.pathMax then
      some ((uiFrameInstrs dst src path text).map commandAccess)
    else none
  | .silenceMs t =>
    if t * rate / 1000 < 2 ^ 24 then some [commandAccess (.txSilence (BitVec.ofNat 24 (t * rate / 1000)))] else none
  | .blank => some []

/-- The SRATE value last written once a line is assembled; the register keeps 20 bits (R50). -/
def rateAfter (rate : Nat) : AsmLine → Nat
  | .wr .srate v => v.toNat % 2 ^ 20
  | _ => rate

/-- A program's host accesses, in order; `rate` is 48000 at its start (R111). -/
def assembleFrom (rate : Nat) : List AsmLine → Option (List Access)
  | [] => some []
  | l :: ls =>
    match assembleLine rate l, assembleFrom (rateAfter rate l) ls with
    | some as, some bs => some (as ++ bs)
    | _, _ => none

/-- A whole program (R110, R111). -/
def assemble (p : List AsmLine) : Option (List Access) := assembleFrom 48000 p

/-! ## Text (R110) -/

/-- A token of a line. -/
inductive Token where
  | atom (cs : List Char)
  | chr (code : Nat)
  | str (codes : List Nat)
  | comma
  | open_
  | close
deriving DecidableEq, Repr

/-- Where the tokenizer stands: between or inside atoms, inside a string, inside a character literal. -/
inductive LexMode where
  | plain (acc : List Char)
  | inString (acc : List Nat)
  | charStart
  | charEnd (code : Nat)
deriving DecidableEq, Repr

/-- Put the atom read so far (held in reverse) before the tokens that follow it. -/
def flushAtom (acc : List Char) (ts : Option (List Token)) : Option (List Token) :=
  if acc.isEmpty then ts else ts.map (.atom acc.reverse :: ·)

/-- Split a line into tokens; a `;` outside a literal starts a comment (R110).  Character codes: 9 tab, 32 space,
34 double quote, 39 apostrophe, 44 comma, 59 semicolon, 91 and 93 square brackets. -/
def tokenize : LexMode → List Char → Option (List Token)
  | .plain acc, [] => flushAtom acc (some [])
  | .plain acc, c :: cs =>
    if c.toNat = 59 then flushAtom acc (some [])
    else if c.toNat = 32 ∨ c.toNat = 9 then flushAtom acc (tokenize (.plain []) cs)
    else if c.toNat = 44 then flushAtom acc ((tokenize (.plain []) cs).map (.comma :: ·))
    else if c.toNat = 91 then flushAtom acc ((tokenize (.plain []) cs).map (.open_ :: ·))
    else if c.toNat = 93 then flushAtom acc ((tokenize (.plain []) cs).map (.close :: ·))
    else if c.toNat = 34 then flushAtom acc (tokenize (.inString []) cs)
    else if c.toNat = 39 then flushAtom acc (tokenize .charStart cs)
    else tokenize (.plain (c :: acc)) cs
  | .inString _, [] => none
  | .inString acc, c :: cs =>
    if c.toNat = 34 then (tokenize (.plain []) cs).map (.str acc.reverse :: ·)
    else tokenize (.inString (c.toNat :: acc)) cs
  | .charStart, [] => none
  | .charStart, c :: cs => tokenize (.charEnd c.toNat) cs
  | .charEnd _, [] => none
  | .charEnd code, c :: cs =>
    if c.toNat = 39 then (tokenize (.plain []) cs).map (.chr code :: ·) else none

/-- The value of a digit in a base up to sixteen. -/
def digitValue (c : Char) : Option Nat :=
  if 48 ≤ c.toNat ∧ c.toNat ≤ 57 then some (c.toNat - 48)
  else if 65 ≤ c.toNat ∧ c.toNat ≤ 70 then some (c.toNat - 55)
  else if 97 ≤ c.toNat ∧ c.toNat ≤ 102 then some (c.toNat - 87)
  else none

/-- Read digits of a base, most significant first, after the value `v`. -/
def readDigits (radix : Nat) : Nat → List Char → Option Nat
  | v, [] => some v
  | v, c :: cs =>
    match digitValue c with
    | some d => if d < radix then readDigits radix (v * radix + d) cs else none
    | none => none

/-- A number in decimal or `0x` hex (R110). -/
def readNumber : List Char → Option Nat
  | [] => none
  | '0' :: 'x' :: d :: ds => readDigits 16 0 (d :: ds)
  | d :: ds => readDigits 10 0 (d :: ds)

/-- An operand that R110 gives as a number alone. -/
def readNumberOperand : Token → Option Nat
  | .atom cs => readNumber cs
  | .chr _ => none
  | .str _ => none
  | .comma => none
  | .open_ => none
  | .close => none

/-- A B1 operand: `0` or `1` as written (R110). -/
def readBit : Token → Option Bool
  | .atom ['0'] => some false
  | .atom ['1'] => some true
  | .atom _ => none
  | .chr _ => none
  | .str _ => none
  | .comma => none
  | .open_ => none
  | .close => none

/-- A B8 operand: a number or a character literal, meaning its code (R110).  The value of `.word` and `WR` is read alike:
that it may be a character literal, which R110 does not say, is the model's choice (DESIGN CHOICE,
notes/assumptions/15). -/
def readOperand : Token → Option Nat
  | .atom cs => readNumber cs
  | .chr code => some code
  | .str _ => none
  | .comma => none
  | .open_ => none
  | .close => none

/-- A value that fits `n` bits, refused rather than truncated otherwise (R110). -/
def fitBits (n v : Nat) : Option (BitVec n) := if v < 2 ^ n then some (BitVec.ofNat n v) else none

/-- The bytes of a string literal's character codes. -/
def readBytes : List Nat → Option (List Byte)
  | [] => some []
  | c :: cs =>
    match fitBits 8 c, readBytes cs with
    | some b, some bs => some (b :: bs)
    | _, _ => none

/-- A callsign at the front of a token list, `"BASE"` or `"BASE", 'S'`, with the tokens after it (R111). -/
def readCallsign : List Token → Option (Callsign × List Token)
  | .str b :: .comma :: .chr s :: ts =>
    match readBytes b, fitBits 8 s with
    | some bs, some sb => some (⟨bs, sb⟩, ts)
    | _, _ => none
  | .str b :: ts => (readBytes b).map fun bs => (⟨bs, defaultSsid⟩, ts)
  | _ => none

/-- One or more callsigns separated by commas up to the closing bracket, with the tokens after it; `fuel` bounds their
number. -/
def readPathItems : Nat → List Token → Option (List Callsign × List Token)
  | 0, _ => none
  | fuel + 1, ts =>
    match readCallsign ts with
    | some (c, .comma :: rest) => (readPathItems fuel rest).map fun r => (c :: r.1, r.2)
    | some (c, .close :: rest) => some ([c], rest)
    | _ => none

/-- The path list `[p1, ..., pk]` after its opening bracket, `k = 0` included, with the tokens after it (R111).  A comma
before the closing bracket, which R111's form does not show, is refused (DESIGN CHOICE, notes/assumptions/15). -/
def readPath : List Token → Option (List Callsign × List Token)
  | .close :: ts => some ([], ts)
  | ts => readPathItems ts.length ts

/-- `UIFRAME`'s operands (R111). -/
def readUiFrame (ts : List Token) : Option AsmLine :=
  match readCallsign ts with
  | some (dst, .comma :: ts1) =>
    match readCallsign ts1 with
    | some (src, .comma :: .open_ :: ts2) =>
      match readPath ts2 with
      | some (path, [.comma, .str text]) => (readBytes text).map fun bs => .uiFrame dst src path bs
      | _ => none
    | _ => none
  | _ => none

/-- A letter in upper case: mnemonics are case-insensitive (R110). -/
def upperChar (c : Char) : Char := if 97 ≤ c.toNat ∧ c.toNat ≤ 122 then Char.ofNat (c.toNat - 32) else c

/-- The register of a name of R45. -/
def readRegName (cs : List Char) : Option RegName :=
  match String.ofList cs with
  | "CMD" => some .cmd
  | "STATUS" => some .status
  | "EVENT" => some .event
  | "CTRL" => some .ctrl
  | "RESULT" => some .result
  | "SRATE" => some .srate
  | "PRECNT" => some .precnt
  | "FLAGCNT" => some .flagcnt
  | "PREBYTE" => some .prebyte
  | "CRC" => some .crc
  | "PHASE" => some .phase
  | "CLKACC" => some .clkacc
  | "SYMCNT" => some .symcnt
  | "SMPCNT" => some .smpcnt
  | "HOLD" => some .hold
  | "ERRINFO" => some .errinfo
  | _ => none

/-- A command with a byte operand. -/
def byteCommand (f : Byte → Instr) (t : Token) : Option AsmLine :=
  (readOperand t).bind fun v => (fitBits 8 v).map fun b => .command (f b)

/-- A line's meaning from its upper-cased first word and the tokens after it (R110, R111).  The value of `.word` and of
`WR` may be a character literal (DESIGN CHOICE, notes/assumptions/15). -/
def readLine (m : List Char) (ts : List Token) : Option AsmLine :=
  match String.ofList m, ts with
  | "NOP", [] => some (.command (.nop 0))
  | "CRC.INIT", [] => some (.command .crcInit)
  | "CRC.BIT", [t] =>
    (readBit t).map fun b => .command (.crcBit b)
  | "CRC.BYTE", [t] => byteCommand .crcByte t
  | "CRC.DIGEST", [] => some (.command .crcDigest)
  | "CRC.CHECK", [] => some (.command .crcCheck)
  | "ADDR.CH", [t] => byteCommand .addrCh t
  | "ADDR.SSID", [t] => byteCommand .addrSsid t
  | "FR.BEGIN", [] => some (.command .frBegin)
  | "FR.HDR", [] => some (.command .frHdr)
  | "FR.INFO", [t] => byteCommand .frInfo t
  | "FR.END", [] => some (.command .frEnd)
  | "FR.ABORT", [] => some (.command .frAbort)
  | "TX.SILENCE", [t] =>
    (readNumberOperand t).bind fun v => (fitBits 24 v).map fun n => .command (.txSilence n)
  | ".WORD", [t] => (readOperand t).bind fun v => (fitBits 32 v).map fun w => .word w
  | "WR", [.atom n, .comma, t] =>
    (readRegName n).bind fun r => (readOperand t).bind fun v => (fitBits 32 v).map fun w => .wr r w
  | "RD", [.atom n] => (readRegName n).map .rd
  | "CALL", ts =>
    match readCallsign ts with
    | some (c, []) => some (.call c)
    | _ => none
  | "INFO", [.str text] => (readBytes text).map .info
  | "CRC.BYTES", [.str text] => (readBytes text).map .crcBytes
  | "UIFRAME", ts => readUiFrame ts
  | "SILENCE_MS", [t] => (readNumberOperand t).map .silenceMs
  | _, _ => none

/-- The line a text stands for, none where the assembler refuses it (R110).  Its first word is read in upper case: R110
makes the mnemonics of R104 case-insensitive; that `.word`, `WR`, `RD` and the pseudo-instructions of R111 are so too is
the model's choice (DESIGN CHOICE, notes/assumptions/15). -/
def parseLine (text : List Char) : Option AsmLine :=
  match tokenize (.plain []) text with
  | some [] => some .blank
  | some (.atom m :: ts) => readLine (m.map upperChar) ts
  | _ => none

end Sys2Proof.Machine
end

