-- ==== Sys2Proof/Safety.lean ====
section
/-! DEFINITION. The terms claims use: the invariants of a safe run (R33, R35, R36, R39, R40 to R44, R47, R55), what an
operation keeps, the error table of R302 as a function, and the source's whole-sequence transforms (stuff, nrzi,
modulate, and the frame layout of R180) against which the bit-serial machine is compared. -/

namespace Sys2Proof.Machine

/-! ## Outcomes -/

/-- The next state of an outcome, if it is one. -/
def nextState : Result → Option State
  | .next t => some t
  | .fault _ => none
  | .refused _ => none

/-- Run instructions one after another, stopping at the first fault or refusal. -/
def runAll : List Instr → State → Result
  | [], s => .next s
  | i :: is, s =>
    match exec i s with
    | .next t => runAll is t
    | .fault r => .fault r
    | .refused r => .refused r

/-! ## What is kept -/

/-- The host's and the sink's side of the state is unchanged, the stream port's queue apart. -/
structure PortsKept (s t : State) : Prop where
  after : t.after = s.after
  accepted : t.accepted = s.accepted
  waiting : t.waiting = s.waiting
  reads : t.reads = s.reads
  irqLog : t.irqLog = s.irqLog
  stimuli : t.stimuli = s.stimuli

/-- Nothing of the state changed but the registers. -/
structure OnlyRegs (s t : State) : Prop extends PortsKept s t where
  offers : t.offers = s.offers

/-! ## Invariants -/

/-- R40 to R44: the frame assembler between commands. -/
structure FrameAsm.Inv (a : FrameAsm) : Prop where
  chars_le : a.chars.toNat ≤ 6
  naddr_le : a.naddr.toNat ≤ 10
  /-- R41: when PEND = 0, HOLD = 0. -/
  hold_zero : a.pend = false → a.hold = 0
  /-- R161, R165: the held byte's bit 0 is still 0. -/
  hold_even : a.hold.getLsbD 0 = false
  /-- R44 (a). -/
  idle : a.fstate = .idle → a.pend = false ∧ a.hold = 0 ∧ a.chars = 0 ∧ a.naddr = 0
  /-- R44 (b). -/
  info : a.fstate = .info → a.pend = false ∧ a.hold = 0 ∧ a.chars = 0 ∧ 2 ≤ a.naddr.toNat
  /-- R44 (c). -/
  pend : a.pend = true → a.fstate = .address ∧ a.chars = 0 ∧ 1 ≤ a.naddr.toNat
  /-- R44 (d). -/
  held : a.fstate = .address → a.chars = 0 → 1 ≤ a.naddr.toNat → a.pend = true
  /-- R44 (e). -/
  open_ : 0 < a.chars.toNat → a.fstate = .address ∧ a.naddr.toNat ≤ 9

/-- R47, R54, R300: what the error record holds while ERRV is 0, and that CAUSE names an error while it is 1. -/
structure Events.Inv (e : Events) : Prop where
  clear : e.errv = false → e.cause = .none ∧ e.errnaddr = 0 ∧ e.errinfo = 0
  named : e.errv = true → e.cause ≠ .none

/-- R36, R248: the symbol clock's error term between commands. -/
def ClockBounded (y : Synth) : Prop := -1199 ≤ y.clkacc.toInt ∧ y.clkacc.toInt ≤ 0

/-- From R35 and R247 (a): while a frame is open the phase word is below R, and is 0 when R is 0.  Weaker than R35, which
says so in IDLE too until SRATE is written: State does not record whether it has been. -/
def PhaseBounded (r : Regs) : Prop :=
  r.asm.fstate ≠ .idle →
    (0 < r.setup.srate.toNat → r.synth.phase.toNat < r.setup.srate.toNat) ∧ (r.setup.srate = 0 → r.synth.phase = 0)

/-- From R39: while a frame is open, CLKACC = SYMCNT*R - SMPCNT*BAUD modulo 2^32, which no wrap of a counter disturbs.
Weaker than R39, whose equation is one of integers and holds after the frame too while no counter has wrapped and SRATE
is not written: State records neither. -/
def ClockExact (r : Regs) : Prop :=
  r.asm.fstate ≠ .idle → r.synth.clkacc = r.synth.symcnt * r.setup.srate.setWidth 32 - r.synth.smpcnt * 1200

/-- The registers between commands. -/
structure Regs.Inv (r : Regs) : Prop where
  /-- R33. -/
  ones_le : r.line.ones.toNat ≤ 4
  clock : ClockBounded r.synth
  phase : PhaseBounded r
  exact_ : ClockExact r
  asm : r.asm.Inv
  events : r.events.Inv
  /-- R55. -/
  irq : r.irq = irqLevel r.ctrl r.events

/-- The machine: the registers, those a command in progress will leave, and the stream port (a command is in progress
exactly while a record is offered). -/
structure State.Inv (s : State) : Prop where
  regs : s.regs.Inv
  after : ∀ r, s.after = some r → r.Inv
  port : s.busy = !s.offers.isEmpty

/-! ## The error table of R302 -/

/-- The phases in which a command is accepted (R189). -/
def acceptedIn (i : Instr) (p : Phase) : Bool :=
  match i with
  | .nop _ => true
  | .crcInit => p = .idle
  | .crcBit _ => p = .idle
  | .crcByte _ => p = .idle
  | .crcDigest => true
  | .crcCheck => true
  | .addrCh _ => p = .address
  | .addrSsid _ => p = .address
  | .frBegin => p = .idle
  | .frHdr => p = .address
  | .frInfo _ => p = .info
  | .frEnd => p = .info
  | .frAbort => true
  | .txSilence _ => p = .idle
  | .mmioRd _ _ => true
  | .mmioWr _ _ _ => true

/-- INVALID_CALLSIGN's conditions (R302). -/
def callsignError (i : Instr) (a : FrameAsm) : Bool :=
  match i with
  | .addrCh _ => a.chars.toNat = 6
  | .frHdr => 0 < a.chars.toNat
  | _ => false

/-- ADDRESS_COUNT's conditions (R302). -/
def countError (i : Instr) (a : FrameAsm) : Bool :=
  match i with
  | .addrCh _ => a.chars.toNat = 0 && a.naddr.toNat = 10
  | .addrSsid _ => a.chars.toNat = 0 && a.naddr.toNat = 10
  | .frHdr => a.naddr.toNat < 2
  | _ => false

/-- CHECKSUM_MISMATCH's condition (R302). -/
def checksumError (i : Instr) (crc : BitVec 16) : Bool :=
  match i with
  | .crcCheck => crc != 0xF0B8
  | _ => false

/-- The error a decoded command raises in given registers, in the priority of R304; none where it raises none. -/
def errorOf (i : Instr) (r : Regs) : Option Cause :=
  if !acceptedIn i r.asm.fstate then some .sequence
  else if callsignError i r.asm then some .invalidCallsign
  else if countError i r.asm then some .addressCount
  else if checksumError i r.crc then some .checksumMismatch
  else none

/-- The phase a command leaves when it raises no error (R189). -/
def nextPhase (i : Instr) (p : Phase) : Phase :=
  match i with
  | .frBegin => .address
  | .frHdr => .info
  | .frEnd => .idle
  | .frAbort => .idle
  | .nop _ => p
  | .crcInit => p
  | .crcBit _ => p
  | .crcByte _ => p
  | .crcDigest => p
  | .crcCheck => p
  | .addrCh _ => p
  | .addrSsid _ => p
  | .frInfo _ => p
  | .txSilence _ => p
  | .mmioRd _ _ => p
  | .mmioWr _ _ _ => p

/-! ## Encodings as claims -/

/-- The opcode `opc` of form Z is the command `i`; a nonzero IMM is reserved (R102, R107). -/
def EncodedZ (opc : BitVec 8) (i : Instr) : Prop :=
  decodeWord (opc ++ (0 : BitVec 24)) = .ok i ∧
    ∀ imm : BitVec 24, imm ≠ 0 → decodeWord (opc ++ imm) = .error .reservedOperandBits

/-- The opcode `opc` of form B1 is the command `f b`, `b = IMM[0]`; a larger IMM is reserved (R102, R107). -/
def EncodedB1 (opc : BitVec 8) (f : Bool → Instr) : Prop :=
  ∀ imm : BitVec 24,
    (imm.toNat < 2 → decodeWord (opc ++ imm) = .ok (f (decide (imm.toNat = 1)))) ∧
    (2 ≤ imm.toNat → decodeWord (opc ++ imm) = .error .reservedOperandBits)

/-- The opcode `opc` of form B8 is the command `f d`, `d = IMM[7:0]`; a larger IMM is reserved (R102, R107). -/
def EncodedB8 (opc : BitVec 8) (f : Byte → Instr) : Prop :=
  ∀ imm : BitVec 24,
    (imm.toNat < 256 → decodeWord (opc ++ imm) = .ok (f (BitVec.ofNat 8 imm.toNat))) ∧
    (256 ≤ imm.toNat → decodeWord (opc ++ imm) = .error .reservedOperandBits)

/-- The opcodes R104 lists. -/
def listedOpcodes : List Nat :=
  [0x00, 0x10, 0x11, 0x12, 0x13, 0x14, 0x20, 0x21, 0x30, 0x31, 0x32, 0x33, 0x34, 0x40]

/-! ## Whole-sequence transforms (the source's functions) -/

/-- HDLC bit stuffing of a whole sequence, `run` consecutive 1 bits having just been sent (R217). -/
def stuffFrom (run : Nat) : List Bool → List Bool
  | [] => []
  | true :: bs => if run + 1 = 5 then true :: false :: stuffFrom 0 bs else true :: stuffFrom (run + 1) bs
  | false :: bs => false :: stuffFrom 0 bs

/-- The run length after a whole sequence is stuffed. -/
def runAfter (run : Nat) : List Bool → Nat
  | [] => run
  | true :: bs => if run + 1 = 5 then runAfter 0 bs else runAfter (run + 1) bs
  | false :: bs => runAfter 0 bs

/-- The reference unstuffing of 95_test_vectors.md 1.2, with its count of 1 bits and its `skip` flag (R219). -/
def unstuffFrom (ones : Nat) (skip : Bool) : List Bool → List Bool
  | [] => []
  | x :: xs =>
    if skip then unstuffFrom 0 false xs
    else if x then (if ones + 1 = 5 then x :: unstuffFrom 0 true xs else x :: unstuffFrom (ones + 1) false xs)
    else x :: unstuffFrom 0 false xs

/-- NRZI of a whole sequence from a level: a 0 toggles, a 1 holds (R216). -/
def nrziFrom (level : Bool) : List Bool → List Bool
  | [] => []
  | x :: xs => (level == x) :: nrziFrom (level == x) xs

/-- The level after a whole sequence. -/
def levelAfter (level : Bool) : List Bool → Bool
  | [] => level
  | x :: xs => levelAfter (level == x) xs

/-- How many samples are due while the clock stands at `d`: `ceil(d / BAUD)`, none for `d <= 0` (R242). -/
def samplesDue (d : Int) : Nat := ((d + 1199) / 1200).toNat

/-- The TONE record of symbol `t` at phase word `p` and rate `R` (R250). -/
def toneRecord (t : Bool) (R p : Nat) : Sample := ⟨.tone, t, BitVec.ofNat 20 p, Config.amp p R⟩

/-- The records of one symbol of `c` samples whose first has phase word `p` (R241, R245). -/
def symbolRecords (t : Bool) (R p c : Nat) : List Sample :=
  (List.range c).map fun j => toneRecord t R ((p + j * toneFreq t) % R)

/-- `modulate` of a whole symbol sequence at rate `R`, the clock standing at `d` and the phase word at `p` (R242, R243). -/
def modulateFrom (R : Nat) (d : Int) (p : Nat) : List Bool → List Sample
  | [] => []
  | t :: ts =>
    symbolRecords t R p (samplesDue (d + R)) ++
      modulateFrom R (d + R - 1200 * samplesDue (d + R)) ((p + samplesDue (d + R) * toneFreq t) % R) ts

/-- The records of a line-bit sequence sent from given registers (R210: NRZI, then the synthesizer). -/
def lineRecords (r : Regs) (xs : List Bool) : List Sample :=
  modulateFrom r.setup.srate.toNat r.synth.clkacc.toInt r.synth.phase.toNat (nrziFrom r.line.nrzi xs)

/-- The records of payload bits sent from given registers (R210: stuffing first). -/
def payloadRecords (r : Regs) (bs : List Bool) : List Sample :=
  lineRecords r (stuffFrom r.line.ones.toNat bs)

/-- Phase continuity (R241, R245): the records start at phase word `p`, each next phase is the one before plus its
tone frequency modulo `R`, and `q` is the phase word after the last. -/
def PhaseChain (R : Nat) : Nat → List Sample → Nat → Prop
  | p, [], q => q = p
  | p, x :: xs, q => x.phase.toNat = p ∧ PhaseChain R ((p + toneFreq x.sym) % R) xs q

/-- From registers `r`, the line bits `xs` have been sent (R210, R215, R243): NRZI and the synthesizer's registers stand
where they leave them, their records wait at the stream port in order, and the configuration, the enables and the ports
are as in `s`. -/
structure SentLine (r : Regs) (xs : List Bool) (s t : State) : Prop where
  nrzi : t.regs.line.nrzi = levelAfter r.line.nrzi xs
  offers : t.offers = s.offers ++ lineRecords r xs
  symcnt : t.regs.synth.symcnt = r.synth.symcnt + BitVec.ofNat 32 xs.length
  smpcnt : t.regs.synth.smpcnt = r.synth.smpcnt + BitVec.ofNat 32 (lineRecords r xs).length
  clkacc : t.regs.synth.clkacc.toInt =
    r.synth.clkacc.toInt + r.setup.srate.toNat * xs.length - 1200 * (lineRecords r xs).length
  phase : PhaseChain r.setup.srate.toNat r.synth.phase.toNat (lineRecords r xs) t.regs.synth.phase.toNat
  setup : t.regs.setup = s.regs.setup
  ctrl : t.regs.ctrl = s.regs.ctrl
  ports : PortsKept s t

/-- `ceil(n*R/1200)`: the samples of the first `n` symbols of a frame (R244). -/
def samplesUpTo (R n : Nat) : Nat := (n * R + 1199) / 1200

/-! ## The frame layout (R160 to R163, R180) -/

/-- A byte sequence as bits, each byte least-significant bit first (R82). -/
def bitsOf (ds : List Byte) : List Bool := ds.flatMap bitsLsb

/-- `encode_callsign`: seven bytes, the SSID byte with bit 0 clear (R160, R163, R164). -/
def encodeCallsign (c : Callsign) : List Byte :=
  c.base.map (fun d => encodeChar (upper d)) ++ List.replicate (6 - c.base.length) 0x40 ++ [encodeChar c.ssid]

/-- `encode_addresses`: the concatenation, with bit 0 of the very last byte set (R160, R165). -/
def encodeAddresses (cs : List Callsign) : List Byte :=
  let bs := cs.flatMap encodeCallsign
  bs.dropLast ++ (bs.getLast?.map endOfAddress).toList

/-- `header`: the address field, the control byte and the protocol id (R180). -/
def headerBytes (cs : List Callsign) : List Byte := encodeAddresses cs ++ [0x03, 0xF0]

/-- The frame check sequence's two bytes, low byte first (R83, R180). -/
def fcsBytes (message : List Byte) : List Byte :=
  let f := digest (crcBits 0xFFFF (bitsOf message))
  [fcsLow f, fcsHigh f]

/-- The line bits of the preamble (R180). -/
def preambleBits (c : Setup) : List Bool :=
  bitsOf (List.replicate c.precnt.toNat c.prebyte) ++ bitsOf (List.replicate c.flagcnt.toNat 0x7E)

/-- The line bits a command sends from given registers when it raises no error (R166, R167, R184 to R187). -/
def lineBitsOf (i : Instr) (r : Regs) : List Bool :=
  let held := if r.asm.pend then [r.asm.hold] else []
  let payload (ds : List Byte) := stuffFrom r.line.ones.toNat (bitsOf ds)
  match i with
  | .addrCh d => payload (held ++ [encodeChar (upper d)])
  | .addrSsid _ => payload (held ++ List.replicate (6 - r.asm.chars.toNat) 0x40)
  | .frBegin => preambleBits r.setup
  | .frHdr => payload [endOfAddress r.asm.hold, 0x03, 0xF0]
  | .frInfo d => payload [d]
  | .frEnd => payload [fcsLow (digest r.crc), fcsHigh (digest r.crc)] ++ bitsLsb 0x7E
  | .nop _ => []
  | .crcInit => []
  | .crcBit _ => []
  | .crcByte _ => []
  | .crcDigest => []
  | .crcCheck => []
  | .frAbort => []
  | .txSilence _ => []
  | .mmioRd _ _ => []
  | .mmioWr _ _ _ => []

/-- The line bits a command sends: none where it raises an error (R307). -/
def sentBits (i : Instr) (r : Regs) : List Bool := if errorOf i r = none then lineBitsOf i r else []

/-- All line bits of a frame (R180). -/
def frameLineBits (c : Setup) (cs : List Callsign) (text : List Byte) : List Bool :=
  preambleBits c ++ stuffFrom 0 (bitsOf (headerBytes cs ++ text ++ fcsBytes (headerBytes cs ++ text))) ++ bitsLsb 0x7E

end Sys2Proof.Machine
end

