-- ==== Sys2Proof/Certificates/Slice0/Obligations.lean ====
section
/-! DEFINITION. The statements for the provers.  Each docstring names the rule it formalises; `raiseError` is the error
action that `Obligations.ErrorActionRecordsAndAborts` says is R305 with R306. -/

open Sys2Proof Sys2Proof.Machine

/-! ## Encoding -/

/-- Words written out bit by bit from the patterns of R105, one for every command, decode to their commands. -/
def Obligations.WrittenOutWordsDecode : Prop :=
  decodeWord 0b00000000_10101011_11001101_11101111#32 = .ok (.nop 0xABCDEF) ∧
  decodeWord 0b00010000_00000000_00000000_00000000#32 = .ok .crcInit ∧
  decodeWord 0b00010001_00000000_00000000_00000001#32 = .ok (.crcBit true) ∧
  decodeWord 0b00010010_00000000_00000000_01000001#32 = .ok (.crcByte 0x41) ∧
  decodeWord 0b00010011_00000000_00000000_00000000#32 = .ok .crcDigest ∧
  decodeWord 0b00010100_00000000_00000000_00000000#32 = .ok .crcCheck ∧
  decodeWord 0b00100000_00000000_00000000_01001110#32 = .ok (.addrCh 0x4E) ∧
  decodeWord 0b00100001_00000000_00000000_00110000#32 = .ok (.addrSsid 0x30) ∧
  decodeWord 0b00110000_00000000_00000000_00000000#32 = .ok .frBegin ∧
  decodeWord 0b00110001_00000000_00000000_00000000#32 = .ok .frHdr ∧
  decodeWord 0b00110010_00000000_00000000_10000000#32 = .ok (.frInfo 0x80) ∧
  decodeWord 0b00110011_00000000_00000000_00000000#32 = .ok .frEnd ∧
  decodeWord 0b00110100_00000000_00000000_00000000#32 = .ok .frAbort ∧
  decodeWord 0b01000000_10000000_00000000_00000001#32 = .ok (.txSilence 0x800001)

/-- Decoding the encoded form of any well-formed instruction, command or bus operation, gives it back. -/
def Obligations.EncodeThenDecodeGivesInstruction : Prop :=
  ∀ i : Instr, i.wellFormed = true → decode (encode i) = .ok i

/-- Whatever decodes, decodes to a well-formed instruction whose encoding is the very word or access decoded: no bit of a
command word, NOP's hint included, is dropped. -/
def Obligations.DecodeThenEncodeGivesWord : Prop :=
  ∀ (e : Encoded) (i : Instr), decode e = .ok i → i.wellFormed = true ∧ encode i = e

/-- R105: a word is command X exactly when it matches X's row, and no two rows match the same word. -/
def Obligations.WordIsCommandOfItsRow : Prop :=
  ∀ w : Word,
    (∀ row ∈ opcodeTable, w &&& row.mask = row.pattern → ∃ i, decodeWord w = .ok i ∧ i.mnemonic = row.mnemonic) ∧
    (∀ i, decodeWord w = .ok i → ∃ row ∈ opcodeTable, w &&& row.mask = row.pattern ∧ i.mnemonic = row.mnemonic) ∧
    (∀ row ∈ opcodeTable, ∀ row' ∈ opcodeTable,
      w &&& row.mask = row.pattern → w &&& row'.mask = row'.pattern → row = row')

/-- From R106: exactly one of three holds of every word: it matches a row and decodes; its opcode is listed and a
must-be-zero bit is 1; its opcode is reserved. -/
def Obligations.DecodingIsTotal : Prop :=
  ∀ w : Word,
    (((∃ i, decodeWord w = .ok i) ↔ ∃ row ∈ opcodeTable, w &&& row.mask = row.pattern) ∧
    (decodeWord w = .error .reservedOperandBits ↔
      w.toNat / 2 ^ 24 ∈ listedOpcodes ∧ ¬ ∃ row ∈ opcodeTable, w &&& row.mask = row.pattern) ∧
    (decodeWord w = .error .reservedOpcode ↔ w.toNat / 2 ^ 24 ∉ listedOpcodes) ∧
    decodeWord w ≠ .error .busError)

/-- R107, R108: a command word with a reserved opcode, or with a must-be-zero bit of its form set, performs
`raise Error(ILLEGAL_COMMAND, w)` and nothing else. -/
def Obligations.ReservedWordsRaiseIllegalCommand : Prop :=
  ∀ (w : Word) (s : State),
    (w.toNat / 2 ^ 24 ∉ listedOpcodes ∨
      (w.toNat / 2 ^ 24 ∈ [0x10, 0x13, 0x14, 0x30, 0x31, 0x33, 0x34] ∧ w.toNat % 2 ^ 24 ≠ 0) ∨
      (w.toNat / 2 ^ 24 = 0x11 ∧ 2 ≤ w.toNat % 2 ^ 24) ∨
      (w.toNat / 2 ^ 24 ∈ [0x12, 0x20, 0x21, 0x32] ∧ 256 ≤ w.toNat % 2 ^ 24)) →
    exec (.mmioWr 32 0x00 w) s = .next (raiseError .illegalCommand w s)

/-! ## Checksum Engine -/

/-- R132. -/
def Obligations.CrcInitSetsPreset : Prop :=
  EncodedZ 0x10 .crcInit ∧
  ∀ s : State,
    (s.regs.asm.fstate = .idle → exec .crcInit s = .next { s with regs.crc := 0xFFFF }) ∧
    (s.regs.asm.fstate ≠ .idle → exec .crcInit s = .next (raiseError .sequence 0x10000000 s))

/-- R131, R133: the register is shifted, and exclusive-ored with 0x8408 when its old bit 0 differs from the bit. -/
def Obligations.CrcBitFeedsOneBit : Prop :=
  EncodedB1 0x11 .crcBit ∧
  ∀ (b : Bool) (s : State),
    (s.regs.asm.fstate = .idle → s.regs.crc.getLsbD 0 = b →
      exec (.crcBit b) s = .next { s with regs.crc := BitVec.ofNat 16 (s.regs.crc.toNat / 2) }) ∧
    (s.regs.asm.fstate = .idle → s.regs.crc.getLsbD 0 ≠ b →
      exec (.crcBit b) s = .next { s with regs.crc := BitVec.ofNat 16 (s.regs.crc.toNat / 2) ^^^ 0x8408 }) ∧
    (s.regs.asm.fstate ≠ .idle →
      exec (.crcBit b) s = .next (raiseError .sequence (0x11000000 ||| (BitVec.ofBool b).setWidth 32) s))

/-- R134, R137: CRC.BYTE is exactly eight CRC.BIT commands, least-significant bit first; it completes, writes CRC and
nothing else. -/
def Obligations.CrcByteIsEightCrcBits : Prop :=
  EncodedB8 0x12 .crcByte ∧
  ∀ (d : Byte) (s : State),
    (s.regs.asm.fstate = .idle →
      ∃ c, exec (.crcByte d) s = .next { s with regs.crc := c } ∧
        runAll [.crcBit (d.getLsbD 0), .crcBit (d.getLsbD 1), .crcBit (d.getLsbD 2), .crcBit (d.getLsbD 3),
          .crcBit (d.getLsbD 4), .crcBit (d.getLsbD 5), .crcBit (d.getLsbD 6), .crcBit (d.getLsbD 7)] s =
          .next { s with regs.crc := c }) ∧
    (s.regs.asm.fstate ≠ .idle →
      exec (.crcByte d) s = .next (raiseError .sequence (0x12000000 ||| d.setWidth 32) s))

/-- R135, in every frame phase. -/
def Obligations.CrcDigestWritesResult : Prop :=
  EncodedZ 0x13 .crcDigest ∧
  ∀ s : State, ∃ f : BitVec 16, f.toNat = 65535 - s.regs.crc.toNat ∧
    exec .crcDigest s = .next { s with regs.result := f } ∧
    (readReg .result { s.regs with result := f }).toNat = f.toNat

/-- R136, in every frame phase. -/
def Obligations.CrcCheckTestsResidue : Prop :=
  EncodedZ 0x14 .crcCheck ∧
  ∀ s : State,
    (s.regs.crc = 0xF0B8 → exec .crcCheck s = .next s) ∧
    (s.regs.crc ≠ 0xF0B8 → exec .crcCheck s = .next (raiseError .checksumMismatch 0x14000000 s))

/-- R138: from every value `c`, feeding the two digest bytes, low byte first, leaves 0xF0B8. -/
def Obligations.DigestLeavesResidue : Prop :=
  ∀ c : BitVec 16, crcByte (crcByte c ((~~~c).extractLsb' 0 8)) ((~~~c).extractLsb' 8 8) = 0xF0B8

/-- R139: the residue test accepts a trailer exactly when the trailer is the digest of the message before it. -/
def Obligations.ResidueTestIsTrailerTest : Prop :=
  ∀ (message : List Byte) (t0 t1 : Byte),
    crcBits 0xFFFF (bitsOf (message ++ [t0, t1])) = 0xF0B8 ↔
      (t1 ++ t0 : BitVec 16) = ~~~(crcBits 0xFFFF (bitsOf message))

/-- R140: the register after `n` bits is a linear function of its start, exclusive-ored with a value of the bits. -/
def Obligations.CrcUpdateIsAffine : Prop :=
  ∀ n : Nat, ∃ (L : BitVec 16 → BitVec 16) (K : List Bool → BitVec 16),
    (∀ a b, L (a ^^^ b) = L a ^^^ L b) ∧ ∀ bits : List Bool, bits.length = n → ∀ c, crcBits c bits = L c ^^^ K bits

/-! ## Errors -/

/-- R305, with the abort of R306: the first error is recorded with NADDR as it stood, a later one is not; an open frame is abandoned and in
IDLE nothing is; IRQ is recomputed; everything else keeps its value. -/
def Obligations.ErrorActionRecordsAndAborts : Prop :=
  ∀ (c : Cause) (info : Word) (s : State),
    (s.regs.events.errv = false →
      (raiseError c info s).regs.events = ⟨true, s.regs.events.fdone, c, s.regs.asm.naddr, info⟩) ∧
    (s.regs.events.errv = true → (raiseError c info s).regs.events = s.regs.events) ∧
    (s.regs.asm.fstate ≠ .idle → (raiseError c info s).regs.asm = ⟨.idle, false, 0, 0, 0⟩) ∧
    (s.regs.asm.fstate = .idle → (raiseError c info s).regs.asm = s.regs.asm) ∧
    ((raiseError c info s).regs.irq =
      ((s.regs.ctrl.ieErr && (raiseError c info s).regs.events.errv) ||
        (s.regs.ctrl.ieDone && (raiseError c info s).regs.events.fdone))) ∧
    (raiseError c info s).regs.crc = s.regs.crc ∧ (raiseError c info s).regs.line = s.regs.line ∧
    (raiseError c info s).regs.synth = s.regs.synth ∧ (raiseError c info s).regs.result = s.regs.result ∧
    (raiseError c info s).regs.setup = s.regs.setup ∧ (raiseError c info s).regs.ctrl = s.regs.ctrl ∧
    OnlyRegs s (raiseError c info s)

/-- R302, R303, R304: for every word written to CMD, the one error raised is the first of the table's conditions that
holds in the order of R304, raised with the word and with no other effect; with none holding the command completes and
records no error; only FR.HDR can meet two of the last three conditions at once. -/
def Obligations.CommandErrorsFollowTable : Prop :=
  ∀ (w : Word) (s : State),
    (∀ e, decodeWord w = .error e → exec (.mmioWr 32 0x00 w) s = .next (raiseError .illegalCommand w s)) ∧
    (∀ i, decodeWord w = .ok i →
      (∀ c, errorOf i s.regs = some c →
        exec i s = .next (raiseError c w s) ∧ exec (.mmioWr 32 0x00 w) s = .next (raiseError c w s)) ∧
      (errorOf i s.regs = none →
        ∃ t, exec i s = .next t ∧ t.regs.events = { s.regs.events with fdone := t.regs.events.fdone } ∧
          (t.regs.events.fdone = s.regs.events.fdone ∨ i = .frEnd)) ∧
      ((callsignError i s.regs.asm && countError i s.regs.asm ||
          (callsignError i s.regs.asm || countError i s.regs.asm) && checksumError i s.regs.crc) = true → i = .frHdr))

/-- From R59 and R309: no command reads the event registers, so a recorded error blocks nothing: two states that differ
only there run every command alike. -/
def Obligations.RecordedErrorBlocksNothing : Prop :=
  ∀ (i : Instr) (s : State) (e : Events), i.isCommand = true →
    ∃ t u, exec i s = .next t ∧ exec i { s with regs.events := e } = .next u ∧
      u.regs.crc = t.regs.crc ∧ u.regs.line = t.regs.line ∧ u.regs.synth = t.regs.synth ∧ u.regs.asm = t.regs.asm ∧
      u.regs.result = t.regs.result ∧ u.regs.setup = t.regs.setup ∧ u.regs.ctrl = t.regs.ctrl ∧ u.offers = t.offers

/-- From R310, with the write-1-to-clear of R47 and R91: a write to EVENT clears exactly the records whose bits are 1. -/
def Obligations.EventWriteClearsWrittenBits : Prop :=
  ∀ (v : Word) (s : State), ∃ t, exec (.mmioWr 32 0x08 v) s = .next t ∧
    (v.getLsbD 0 = true →
      t.regs.events.errv = false ∧ t.regs.events.cause = .none ∧ t.regs.events.errnaddr = 0 ∧
        t.regs.events.errinfo = 0) ∧
    (v.getLsbD 0 = false →
      t.regs.events.errv = s.regs.events.errv ∧ t.regs.events.cause = s.regs.events.cause ∧
        t.regs.events.errnaddr = s.regs.events.errnaddr ∧ t.regs.events.errinfo = s.regs.events.errinfo) ∧
    (v.getLsbD 1 = true → t.regs.events.fdone = false) ∧
    (v.getLsbD 1 = false → t.regs.events.fdone = s.regs.events.fdone) ∧
    t.regs.irq = ((s.regs.ctrl.ieErr && t.regs.events.errv) || (s.regs.ctrl.ieDone && t.regs.events.fdone)) ∧
    t = { s with regs.events := t.regs.events, regs.irq := t.regs.irq }

/-! ## Address Codec -/

/-- R161, R162: `EncodeChar` doubles modulo 256 and clears bit 0; `Upper` moves `a` to `z` down by 0x20 and nothing
else. -/
def Obligations.CharacterCodes : Prop :=
  ∀ c : Byte,
    (encodeChar c).toNat = 2 * c.toNat % 256 ∧ (encodeChar c).getLsbD 0 = false ∧
    (0x61 ≤ c.toNat → c.toNat ≤ 0x7A → (upper c).toNat = c.toNat - 0x20) ∧
    (c.toNat < 0x61 ∨ 0x7A < c.toNat → upper c = c)

/-- R166: ADDR.CH in ADDRESS sends the held SSID byte of the previous callsign (bit 0 = 0) and the character's code, both
counted in the CRC; its errors change nothing else. -/
def Obligations.AddrChSendsCharacter : Prop :=
  EncodedB8 0x20 .addrCh ∧
  ∀ (d : Byte) (s : State), s.regs.Inv →
    (s.regs.asm.fstate ≠ .address →
      exec (.addrCh d) s = .next (raiseError .sequence (0x20000000 ||| d.setWidth 32) s)) ∧
    (s.regs.asm.fstate = .address → s.regs.asm.chars = 6 →
      exec (.addrCh d) s = .next (raiseError .invalidCallsign (0x20000000 ||| d.setWidth 32) s)) ∧
    (s.regs.asm.fstate = .address → s.regs.asm.chars = 0 → s.regs.asm.naddr = 10 →
      exec (.addrCh d) s = .next (raiseError .addressCount (0x20000000 ||| d.setWidth 32) s)) ∧
    (s.regs.asm.fstate = .address → s.regs.asm.chars ≠ 6 → ¬(s.regs.asm.chars = 0 ∧ s.regs.asm.naddr = 10) →
      ∃ t, exec (.addrCh d) s = .next t ∧
        let sent := (if s.regs.asm.pend then [s.regs.asm.hold] else []) ++ [encodeChar (upper d)]
        SentLine s.regs (stuffFrom s.regs.line.ones.toNat (bitsOf sent)) s t ∧
        t.regs.line.ones.toNat = runAfter s.regs.line.ones.toNat (bitsOf sent) ∧
        t.regs.crc = crcBits s.regs.crc (bitsOf sent) ∧
        t.regs.asm = ⟨.address, false, 0, s.regs.asm.chars + 1, s.regs.asm.naddr⟩ ∧
        t.regs.events = s.regs.events ∧ t.regs.result = s.regs.result ∧ t.regs.irq = s.regs.irq)

/-- R167: ADDR.SSID in ADDRESS sends the previous held byte and the padding, holds the new SSID byte unsent, and counts
the address; its errors change nothing else. -/
def Obligations.AddrSsidCompletesCallsign : Prop :=
  EncodedB8 0x21 .addrSsid ∧
  ∀ (d : Byte) (s : State), s.regs.Inv →
    (s.regs.asm.fstate ≠ .address →
      exec (.addrSsid d) s = .next (raiseError .sequence (0x21000000 ||| d.setWidth 32) s)) ∧
    (s.regs.asm.fstate = .address → s.regs.asm.chars = 0 → s.regs.asm.naddr = 10 →
      exec (.addrSsid d) s = .next (raiseError .addressCount (0x21000000 ||| d.setWidth 32) s)) ∧
    (s.regs.asm.fstate = .address → ¬(s.regs.asm.chars = 0 ∧ s.regs.asm.naddr = 10) →
      ∃ t, exec (.addrSsid d) s = .next t ∧
        let sent := (if s.regs.asm.pend then [s.regs.asm.hold] else []) ++
          List.replicate (6 - s.regs.asm.chars.toNat) 0x40
        SentLine s.regs (stuffFrom s.regs.line.ones.toNat (bitsOf sent)) s t ∧
        t.regs.line.ones.toNat = runAfter s.regs.line.ones.toNat (bitsOf sent) ∧
        t.regs.crc = crcBits s.regs.crc (bitsOf sent) ∧
        t.regs.asm = ⟨.address, true, BitVec.ofNat 8 (2 * d.toNat), 0, s.regs.asm.naddr + 1⟩ ∧
        t.regs.events = s.regs.events ∧ t.regs.result = s.regs.result ∧ t.regs.irq = s.regs.irq)

/-- From R168: the commands of one callsign send its seven bytes in order, the SSID byte left to the command after them (it
stands in HOLD), and the one before sent first. -/
def Obligations.CallsignIsSevenBytes : Prop :=
  ∀ (c : Callsign) (s : State), c.base.length ≤ 6 → s.regs.Inv → s.regs.asm.fstate = .address →
    s.regs.asm.chars = 0 → s.regs.asm.naddr ≠ 10 →
    ∃ (t : State) (six : List Byte) (ssid : Byte),
      runAll (callInstrs c) s = .next t ∧
      encodeCallsign c = six ++ [ssid] ∧ six.length = 6 ∧
      let sent := (if s.regs.asm.pend then [s.regs.asm.hold] else []) ++ six
      SentLine s.regs (stuffFrom s.regs.line.ones.toNat (bitsOf sent)) s t ∧
      t.regs.crc = crcBits s.regs.crc (bitsOf sent) ∧
      t.regs.asm = ⟨.address, true, ssid, 0, s.regs.asm.naddr + 1⟩ ∧ t.regs.events = s.regs.events

/-- R169: shifting the seven bytes right by one (bit 0 of the block's last byte cleared) and trimming trailing spaces
recovers a base below 0x80 that does not end in a space, in upper case, and the SSID; bit 7 and a trailing space are
lost. -/
def Obligations.CallsignIsRecoverable : Prop :=
  ∀ c : Callsign, c.base.length ≤ 6 →
    ((∀ d ∈ c.base, d.toNat < 0x80) → c.base.getLast? ≠ some 0x20 → c.ssid.toNat < 0x80 →
      ∃ (six : List Byte) (last : Byte), encodeCallsign c = six ++ [last] ∧ six.length = 6 ∧
        ((six.map fun d : Byte => d >>> 1).reverse.dropWhile (· == 0x20)).reverse = c.base.map upper ∧
        last >>> 1 = c.ssid ∧ (endOfAddress last &&& 0xFE) >>> 1 = c.ssid ∧
        ((∀ d ∈ c.base, d.toNat < 0x61 ∨ 0x7A < d.toNat) → c.base.map upper = c.base)) ∧
    (∀ d : Byte, encodeChar (d ||| 0x80) = encodeChar (d &&& 0x7F)) ∧
    (c.base.length < 6 → encodeCallsign ⟨c.base ++ [0x20], c.ssid⟩ = encodeCallsign c)

/-! ## Frame Builder -/

/-- R184: FR.BEGIN in IDLE initializes every per-frame accumulator and sends the preamble, unstuffed and uncounted. -/
def Obligations.FrBeginOpensFrame : Prop :=
  EncodedZ 0x30 .frBegin ∧
  ∀ s : State,
    (s.regs.asm.fstate ≠ .idle → exec .frBegin s = .next (raiseError .sequence 0x30000000 s)) ∧
    (s.regs.asm.fstate = .idle →
      ∃ t, exec .frBegin s = .next t ∧
        SentLine { s.regs with line := ⟨0, true⟩, synth := ⟨0, 0, 0, 0⟩ }
          (bitsOf (List.replicate s.regs.setup.precnt.toNat s.regs.setup.prebyte ++
            List.replicate s.regs.setup.flagcnt.toNat 0x7E)) s t ∧
        t.regs.line.ones = 0 ∧ t.regs.crc = 0xFFFF ∧ t.regs.asm = ⟨.address, false, 0, 0, 0⟩ ∧
        t.regs.events = s.regs.events ∧ t.regs.result = s.regs.result ∧ t.regs.irq = s.regs.irq)

/-- R185: FR.HDR in ADDRESS with no callsign open and two addresses sends the held byte with bit 0 set, 0x03 and 0xF0;
INVALID_CALLSIGN comes before ADDRESS_COUNT. -/
def Obligations.FrHdrSendsControlAndPid : Prop :=
  EncodedZ 0x31 .frHdr ∧
  ∀ s : State, s.regs.Inv →
    (s.regs.asm.fstate ≠ .address → exec .frHdr s = .next (raiseError .sequence 0x31000000 s)) ∧
    (s.regs.asm.fstate = .address → s.regs.asm.chars ≠ 0 →
      exec .frHdr s = .next (raiseError .invalidCallsign 0x31000000 s)) ∧
    (s.regs.asm.fstate = .address → s.regs.asm.chars = 0 → s.regs.asm.naddr.toNat < 2 →
      exec .frHdr s = .next (raiseError .addressCount 0x31000000 s)) ∧
    (s.regs.asm.fstate = .address → s.regs.asm.chars = 0 → 2 ≤ s.regs.asm.naddr.toNat →
      ∃ t, exec .frHdr s = .next t ∧
        let sent := [s.regs.asm.hold + 1, 0x03, 0xF0]
        SentLine s.regs (stuffFrom s.regs.line.ones.toNat (bitsOf sent)) s t ∧
        t.regs.line.ones.toNat = runAfter s.regs.line.ones.toNat (bitsOf sent) ∧
        t.regs.crc = crcBits s.regs.crc (bitsOf sent) ∧
        t.regs.asm = ⟨.info, false, 0, 0, s.regs.asm.naddr⟩ ∧
        t.regs.events = s.regs.events ∧ t.regs.result = s.regs.result ∧ t.regs.irq = s.regs.irq)

/-- R186: FR.INFO in INFO sends any byte, stuffed and counted. -/
def Obligations.FrInfoSendsByte : Prop :=
  EncodedB8 0x32 .frInfo ∧
  ∀ (d : Byte) (s : State), s.regs.Inv →
    (s.regs.asm.fstate ≠ .info → exec (.frInfo d) s = .next (raiseError .sequence (0x32000000 ||| d.setWidth 32) s)) ∧
    (s.regs.asm.fstate = .info →
      ∃ t, exec (.frInfo d) s = .next t ∧
        SentLine s.regs (stuffFrom s.regs.line.ones.toNat (bitsLsb d)) s t ∧
        t.regs.line.ones.toNat = runAfter s.regs.line.ones.toNat (bitsLsb d) ∧
        t.regs.crc = crcBits s.regs.crc (bitsLsb d) ∧ t.regs.asm = s.regs.asm ∧
        t.regs.events = s.regs.events ∧ t.regs.result = s.regs.result ∧ t.regs.irq = s.regs.irq)

/-- R187 with R183: FR.END in INFO sends the complemented CRC, low byte first, stuffed and not counted, then one unstuffed
flag; RESULT, FDONE and IRQ follow and the frame is closed. -/
def Obligations.FrEndSendsFcsAndFlag : Prop :=
  EncodedZ 0x33 .frEnd ∧
  ∀ s : State, s.regs.Inv →
    (s.regs.asm.fstate ≠ .info → exec .frEnd s = .next (raiseError .sequence 0x33000000 s)) ∧
    (s.regs.asm.fstate = .info →
      ∃ t, exec .frEnd s = .next t ∧
        let fcs := [(~~~s.regs.crc).extractLsb' 0 8, (~~~s.regs.crc).extractLsb' 8 8]
        SentLine s.regs (stuffFrom s.regs.line.ones.toNat (bitsOf fcs) ++ bitsLsb 0x7E) s t ∧
        t.regs.line.ones.toNat = runAfter s.regs.line.ones.toNat (bitsOf fcs) ∧
        t.regs.crc = s.regs.crc ∧ t.regs.result = ~~~s.regs.crc ∧ t.regs.asm = ⟨.idle, false, 0, 0, 0⟩ ∧
        t.regs.events = { s.regs.events with fdone := true } ∧
        t.regs.irq = ((s.regs.ctrl.ieErr && s.regs.events.errv) || s.regs.ctrl.ieDone))

/-- R188: FR.ABORT closes the frame in every phase, sends nothing and records nothing. -/
def Obligations.FrAbortClosesFrame : Prop :=
  EncodedZ 0x34 .frAbort ∧
  ∀ s : State, exec .frAbort s = .next { s with regs.asm := ⟨.idle, false, 0, 0, 0⟩ } ∧
    (s.regs.Inv → s.regs.asm.fstate = .idle → exec .frAbort s = .next s)

/-- R189: the phases in which each command is accepted, and the phase it leaves; every error leaves IDLE. -/
def Obligations.FramePhaseMachine : Prop :=
  ∀ (i : Instr) (s : State), i.isCommand = true →
    (acceptedIn i s.regs.asm.fstate = false → exec i s = .next (raiseError .sequence (wordOf i) s)) ∧
    (acceptedIn i s.regs.asm.fstate = true → errorOf i s.regs ≠ some .sequence) ∧
    (∃ t, exec i s = .next t ∧
      (errorOf i s.regs = none → t.regs.asm.fstate = nextPhase i s.regs.asm.fstate) ∧
      (errorOf i s.regs ≠ none → t.regs.asm.fstate = .idle))

/-- R180: the commands of a whole UI frame, run from any state with no frame open, send exactly the frame's line bits
(preamble, stuffed header, information and FCS, closing flag), each through NRZI and the synthesizer. -/
def Obligations.FrameIsSentAsLaidOut : Prop :=
  ∀ (dst src : Callsign) (path : List Callsign) (text : List Byte) (s : State),
    (∀ c ∈ dst :: src :: path, c.base.length ≤ 6) → path.length ≤ 8 → s.regs.asm.fstate = .idle →
    ∃ t, runAll (uiFrameInstrs dst src path text) s = .next t ∧
      SentLine { s.regs with line := ⟨0, true⟩, synth := ⟨0, 0, 0, 0⟩ }
        (frameLineBits s.regs.setup (dst :: src :: path) text) s t ∧
      t.regs.crc = crcBits 0xFFFF (bitsOf (headerBytes (dst :: src :: path) ++ text)) ∧
      t.regs.result = ~~~t.regs.crc ∧ t.regs.asm = ⟨.idle, false, 0, 0, 0⟩ ∧
      t.regs.events = { s.regs.events with fdone := true }

/-- R190, R252: the line bits and TONE records of a whole frame, counted; `runs` are the maximal runs of 1 bits of the
payload, each of which makes stuffing insert a fifth of its length. -/
def Obligations.FrameLengthAndSampleCount : Prop :=
  ∀ (dst src : Callsign) (path : List Callsign) (text : List Byte) (s : State),
    (∀ c ∈ dst :: src :: path, c.base.length ≤ 6) → path.length ≤ 8 → s.regs.asm.fstate = .idle →
    ∃ t, runAll (uiFrameInstrs dst src path text) s = .next t ∧
      let message := headerBytes (dst :: src :: path) ++ text
      let runs := (bitsOf (message ++ fcsBytes message)).splitOnP (· == false)
      let m := 8 * s.regs.setup.precnt.toNat + 8 * s.regs.setup.flagcnt.toNat +
        (8 * (7 * (2 + path.length) + 4 + text.length) + (runs.map (·.length / 5)).sum) + 8
      let R := s.regs.setup.srate.toNat
      t.regs.synth.symcnt = BitVec.ofNat 32 m ∧
      t.offers.length = s.offers.length + (m * R + 1199) / 1200 ∧
      t.regs.synth.smpcnt = BitVec.ofNat 32 ((m * R + 1199) / 1200) ∧
      t.regs.synth.clkacc.toInt = m * R - 1200 * ((m * R + 1199) / 1200 : Nat)

/-! ## Line Coder -/

/-- R216: NRZI keeps the length; a 0 toggles and a 1 holds; the level is the parity of the 0 bits so far. -/
def Obligations.NrziTogglesOnZero : Prop :=
  ∀ (level : Bool) (xs : List Bool),
    (nrziFrom level xs).length = xs.length ∧
    (∀ i (h : i < xs.length) (h' : i < (nrziFrom level xs).length),
      (nrziFrom level xs)[i] = (((level :: nrziFrom level xs)[i]'(by simp; omega)) == xs[i])) ∧
    (∀ i (h : i < (nrziFrom true xs).length),
      (nrziFrom true xs)[i] = decide ((xs.take (i + 1)).count false % 2 = 0)) ∧
    (∀ s : State, (xs.foldl (fun t x => lineBit x t) s).regs.synth.symcnt =
        s.regs.synth.symcnt + BitVec.ofNat 32 xs.length) ∧
    (∀ s : State, (xs.foldl (fun t x => lineBit x t) s).regs.line.nrzi =
        ((s.regs.line.nrzi :: nrziFrom s.regs.line.nrzi xs).getLast (by simp)))

/-- R217: where a 0 is inserted, that no run exceeds five, how many are inserted, and that no flag appears. -/
def Obligations.StuffingInsertsAfterFifthOne : Prop :=
  ∀ bs : List Bool,
    (stuffFrom 0 bs = (List.range bs.length).flatMap fun i =>
      let run := ((bs.take (i + 1)).reverse.takeWhile (· == true)).length
      bs.getD i false :: (if run ≠ 0 ∧ run % 5 = 0 then [false] else [])) ∧
    ¬ List.replicate 6 true <:+: stuffFrom 0 bs ∧
    (stuffFrom 0 bs).length = bs.length + ((bs.splitOnP (· == false)).map (·.length / 5)).sum ∧
    ¬ bitsLsb 0x7E <:+: stuffFrom 0 bs

/-- The reference inverse of 95_test_vectors.md 1.2 recovers every payload from its stuffed sequence. -/
def Obligations.UnstuffInvertsStuff : Prop :=
  ∀ bs : List Bool, unstuffFrom 0 false (stuffFrom 0 bs) = bs

/-! ## Tone Synthesizer -/

/-- R244: the samples of the symbols of a frame at rate R, in total and one by one, with the rates the rule works out. -/
def Obligations.SamplesPerSymbol : Prop :=
  ∀ R : Nat, 0 < R → R < 2 ^ 20 →
    (∀ syms : List Bool, (modulateFrom R 0 0 syms).length = (syms.length * R + 1199) / 1200) ∧
    (∀ n, ∃ c, samplesUpTo R (n + 1) = samplesUpTo R n + c ∧ (c = R / 1200 ∨ c = (R + 1199) / 1200) ∧
      (R % 1200 = 0 → c = R / 1200) ∧
      (R = 44100 → c = if n % 4 = 3 then 36 else 37) ∧
      (R = 8000 → c = if n % 3 = 2 then 6 else 7)) ∧
    (∀ (syms : List Bool) (t : Bool) (n : Nat), n = syms.length →
      (modulateFrom R 0 0 (syms ++ [t])).length =
        (modulateFrom R 0 0 syms).length + (samplesUpTo R (n + 1) - samplesUpTo R n))

/-- From R241 and R245: within a frame every command's records continue the phase from where it stood, sample by sample,
and leave PHASE where the next sample continues; FR.BEGIN's start at 0. -/
def Obligations.PhaseIsContinuous : Prop :=
  ∀ (i : Instr) (s : State), i.isCommand = true → s.regs.Inv → (s.regs.asm.fstate ≠ .idle ∨ i = .frBegin) →
    ∃ (t : State) (recs : List Sample), exec i s = .next t ∧ t.offers = s.offers ++ recs ∧
      ((s.regs.asm.fstate ≠ .idle →
          PhaseChain s.regs.setup.srate.toNat s.regs.synth.phase.toNat recs t.regs.synth.phase.toNat) ∧
       (s.regs.asm.fstate = .idle → PhaseChain s.regs.setup.srate.toNat 0 recs t.regs.synth.phase.toNat))

/-- From R250's table: every record a command emits is a TONE record whose amplitude is AMP of its phase at the rate, or
the SILENCE record, which only TX.SILENCE emits. -/
def Obligations.EmittedRecordsAreWellFormed : Prop :=
  ∀ (i : Instr) (s : State), i.isCommand = true →
    ∃ (t : State) (recs : List Sample), exec i s = .next t ∧ t.offers = s.offers ++ recs ∧
      ∀ x ∈ recs,
        (x.kind = .tone ∧ x.amp = Config.amp x.phase.toNat s.regs.setup.srate.toNat) ∨
        (x = ⟨.silence, false, 0, Config.zeroAmp⟩ ∧ ∃ n, i = .txSilence n)

/-- AMP_RANGE of R246, and ZERO's value of R11 (the clamp that makes every word's number lie in the interval is the
model's choice, notes/assumptions/2). -/
def Obligations.AmplitudeInRange : Prop :=
  (∀ p R : Nat, -1 ≤ Config.ampValue (Config.amp p R) ∧ Config.ampValue (Config.amp p R) ≤ 1) ∧
  Config.ampValue Config.zeroAmp = 0

/-- R251. -/
def Obligations.TxSilenceEmitsSilence : Prop :=
  (∀ n : BitVec 24, decodeWord (0x40#8 ++ n) = .ok (.txSilence n)) ∧
  ∀ (n : BitVec 24) (s : State),
    (s.regs.asm.fstate = .idle →
      exec (.txSilence n) s =
        .next { s with offers := s.offers ++ List.replicate n.toNat ⟨.silence, false, 0, Config.zeroAmp⟩ }) ∧
    (s.regs.asm.fstate ≠ .idle → exec (.txSilence n) s = .next (raiseError .sequence (0x40#8 ++ n) s))

/-- From R247 (a): at R = 0 no command of a frame emits a record, PHASE stays 0, and SYMCNT still counts the line bits the
command sends (none where it raises an error). -/
def Obligations.RateZeroEmitsNothing : Prop :=
  ∀ (i : Instr) (s : State), i.isCommand = true → s.regs.Inv → s.regs.setup.srate = 0 →
    (s.regs.asm.fstate ≠ .idle →
      ∃ t, exec i s = .next t ∧ t.offers = s.offers ∧ t.regs.synth.phase = 0 ∧
        t.regs.synth.smpcnt = s.regs.synth.smpcnt ∧
        t.regs.synth.symcnt = s.regs.synth.symcnt + BitVec.ofNat 32 (sentBits i s.regs).length) ∧
    (s.regs.asm.fstate = .idle → i = .frBegin →
      ∃ t, exec i s = .next t ∧ t.offers = s.offers ∧ t.regs.synth.phase = 0 ∧ t.regs.synth.smpcnt = 0 ∧
        t.regs.synth.symcnt.toNat = 8 * (s.regs.setup.precnt.toNat + s.regs.setup.flagcnt.toNat))

/-! ## Host access -/

/-- R270, R109: NOP does nothing, whatever its hint and in every phase. -/
def Obligations.NopChangesNothing : Prop :=
  (∀ imm : BitVec 24, decodeWord (0x00#8 ++ imm) = .ok (.nop imm)) ∧
  ∀ (hint : BitVec 24) (s : State), exec (.nop hint) s = .next s

/-- From R271: a host read returns the register's word, built from its fields at their bit positions, and changes no
register. -/
def Obligations.MmioReadReturnsRegister : Prop :=
  ∀ s : State,
    (∀ off : Nat, off % 4 = 0 → off ≤ 0x3C →
      ∃ n : RegName, n.offset = off ∧ exec (.mmioRd 32 off) s = .next { s with reads := s.reads ++ [readReg n s.regs] }) ∧
    (∀ width off : Nat, ¬(width = 32 ∧ off % 4 = 0 ∧ off ≤ 0x3C) → exec (.mmioRd width off) s = .fault .busError) ∧
    (readReg .cmd s.regs).toNat = 0 ∧
    (readReg .status s.regs).toNat =
      s.regs.asm.fstate.code.toNat + 4 * s.regs.asm.pend.toNat + 8 * s.regs.asm.chars.toNat +
        64 * s.regs.asm.naddr.toNat + 1024 * s.regs.line.nrzi.toNat + 2048 * s.regs.line.ones.toNat ∧
    (readReg .event s.regs).toNat =
      s.regs.events.errv.toNat + 2 * s.regs.events.fdone.toNat + 16 * s.regs.events.cause.code.toNat +
        256 * s.regs.events.errnaddr.toNat ∧
    (readReg .ctrl s.regs).toNat = s.regs.ctrl.ieErr.toNat + 2 * s.regs.ctrl.ieDone.toNat ∧
    (readReg .result s.regs).toNat = s.regs.result.toNat ∧
    (readReg .srate s.regs).toNat = s.regs.setup.srate.toNat ∧
    (readReg .precnt s.regs).toNat = s.regs.setup.precnt.toNat ∧
    (readReg .flagcnt s.regs).toNat = s.regs.setup.flagcnt.toNat ∧
    (readReg .prebyte s.regs).toNat = s.regs.setup.prebyte.toNat ∧
    (readReg .crc s.regs).toNat = s.regs.crc.toNat ∧
    (readReg .phase s.regs).toNat = s.regs.synth.phase.toNat ∧
    (readReg .clkacc s.regs).toInt = s.regs.synth.clkacc.toInt ∧
    (readReg .symcnt s.regs).toNat = s.regs.synth.symcnt.toNat ∧
    (readReg .smpcnt s.regs).toNat = s.regs.synth.smpcnt.toNat ∧
    (readReg .hold s.regs).toNat = s.regs.asm.hold.toNat ∧
    (readReg .errinfo s.regs).toNat = s.regs.events.errinfo.toNat

/-- From R84 and X3: exactly the aligned 32-bit accesses at offsets up to 0x3C are accepted; any other stops the run with
the bus error (notes/assumptions/6). -/
def Obligations.UnacceptedAccessIsBusError : Prop :=
  ∀ (width off : Nat) (v : Word) (s : State),
    (¬(width = 32 ∧ off % 4 = 0 ∧ off ≤ 0x3C) →
      exec (.mmioRd width off) s = .fault .busError ∧ exec (.mmioWr width off v) s = .fault .busError) ∧
    (width = 32 → off % 4 = 0 → off ≤ 0x3C →
      (∃ t, exec (.mmioRd width off) s = .next t) ∧ ∃ t, exec (.mmioWr width off v) s = .next t)

/-- R57: a write to a configuration register stores its writable bits (R50 to R53) in IDLE and is refused, with SEQUENCE
and the marked offset, while a frame is open. -/
def Obligations.ConfigurationWrites : Prop :=
  ∀ (v : Word) (s : State), s.regs.Inv →
    (s.regs.asm.fstate = .idle →
      exec (.mmioWr 32 0x14 v) s = .next { s with regs.setup.srate := BitVec.ofNat 20 v.toNat } ∧
      exec (.mmioWr 32 0x18 v) s = .next { s with regs.setup.precnt := BitVec.ofNat 16 v.toNat } ∧
      exec (.mmioWr 32 0x1C v) s = .next { s with regs.setup.flagcnt := BitVec.ofNat 16 v.toNat } ∧
      exec (.mmioWr 32 0x20 v) s = .next { s with regs.setup.prebyte := BitVec.ofNat 8 v.toNat }) ∧
    (s.regs.asm.fstate ≠ .idle →
      exec (.mmioWr 32 0x14 v) s = .next (raiseError .sequence 0xFF000014 s) ∧
      exec (.mmioWr 32 0x18 v) s = .next (raiseError .sequence 0xFF000018 s) ∧
      exec (.mmioWr 32 0x1C v) s = .next (raiseError .sequence 0xFF00001C s) ∧
      exec (.mmioWr 32 0x20 v) s = .next (raiseError .sequence 0xFF000020 s))

/-- From R48 and R315: a write to CTRL sets both enables, in every phase, and IRQ at once. -/
def Obligations.CtrlWriteSetsEnables : Prop :=
  ∀ (v : Word) (s : State),
    exec (.mmioWr 32 0x0C v) s =
      .next { s with
        regs.ctrl := ⟨v.getLsbD 0, v.getLsbD 1⟩
        regs.irq := (v.getLsbD 0 && s.regs.events.errv) || (v.getLsbD 1 && s.regs.events.fdone) }

/-- R56: a write to a read-only register changes nothing and raises no error; CMD reads 0. -/
def Obligations.ReadOnlyWritesIgnored : Prop :=
  ∀ (off : Nat) (v : Word) (s : State), s.regs.Inv →
    (off ∈ [0x04, 0x10, 0x24, 0x28, 0x2C, 0x30, 0x34, 0x38, 0x3C] → exec (.mmioWr 32 off v) s = .next s) ∧
    exec (.mmioRd 32 0x00) s = .next { s with reads := s.reads ++ [0] }

/-- From R11, R84 and R87: whatever aligned base the platform chooses, an address of the window is the access at its
offset from the base, and the block decodes no address outside its 64 bytes.  (How the model names the base is its own
choice, notes/assumptions/5.) -/
def Obligations.WindowAddressesSelectOffsets : Prop :=
  Config.baseAddr % 64 = 0 ∧
  ∀ (width addr : Nat) (v : Word),
    (addr < Config.baseAddr ∨ Config.baseAddr + 64 ≤ addr → busRead width addr = none ∧ busWrite width addr v = none) ∧
    (∀ off, off < 64 →
      busRead width (Config.baseAddr + off) = some (.read width off) ∧
      busWrite width (Config.baseAddr + off) v = some (.write width off v))

/-! ## The step -/

/-- From R81, R89 and R100: with no command in progress the next access is executed as the instruction it decodes to; if
that leaves no record the access completes and IRQ is observed, else the command is in progress until the records are
taken.  (What the registers hold meanwhile is the model's choice, notes/assumptions/4.) -/
def Obligations.StepRunsDecodedAccess : Prop :=
  ∀ (s t : State) (a : Access) (i : Instr), s.after = none → decodeAccess a = .ok i →
    (∀ rest, s.waiting = [] → s.stimuli = .access a :: rest → exec i { s with stimuli := rest } = .next t →
      (t.offers = [] → step s = .next { t with irqLog := t.irqLog ++ [t.regs.irq] }) ∧
      (t.offers ≠ [] → step s = .next { t with regs := s.regs, after := some t.regs })) ∧
    (∀ as, s.waiting = a :: as → s.stimuli.head? ≠ some .reset → exec i { s with waiting := as } = .next t →
      (t.offers = [] → step s = .next { t with irqLog := t.irqLog ++ [t.regs.irq] }) ∧
      (t.offers ≠ [] → step s = .next { t with regs := s.regs, after := some t.regs }))

/-- From R100, R106 and R315: a write of a command's word to CMD is that command, with IRQ recomputed; and the very next
step after `withFetchWord` executes it.  (That a program is placed in the list of stimuli, and that the state keeps the
registers of a command in progress apart in `after`, with those from before it in `regs`, are the model's choices,
notes/assumptions/8 and 4.) -/
def Obligations.CmdWriteRunsCommand : Prop :=
  ∀ (s t : State) (nbits w : Nat) (i : Instr), w < 2 ^ 32 → decodeWord (BitVec.ofNat 32 w) = .ok i →
    (exec i s = .next t →
      exec (.mmioWr 32 0x00 (BitVec.ofNat 32 w)) s =
        .next { t with regs.irq := (t.regs.ctrl.ieErr && t.regs.events.errv) ||
          (t.regs.ctrl.ieDone && t.regs.events.fdone) }) ∧
    (∀ u, exec (.mmioWr 32 0x00 (BitVec.ofNat 32 w)) { s with after := none, offers := [], waiting := [] } = .next u →
      step (s.withFetchWord nbits w) =
        .next (if u.offers = [] then { u with irqLog := u.irqLog ++ [u.regs.irq] }
          else { u with regs := s.regs, after := some u.regs }))

/-- From R81: while a command is in progress a host access stalls: it is kept, in order, and nothing else changes.  (That
an access R84 refuses stalls too is the model's choice, notes/assumptions/19.) -/
def Obligations.AccessStallsWhileCommandRuns : Prop :=
  ∀ (s : State) (a : Access) (rest : List Stimulus), s.busy = true → s.stimuli = .access a :: rest →
    step s = .next { s with stimuli := rest, waiting := s.waiting ++ [a] }

/-- From R355: if the sink accepts no more and reset is not asserted, the command in progress never completes, however many
steps follow, and every access presented meanwhile stalls.  (That an access R84 refuses stalls too is the model's choice,
notes/assumptions/19.) -/
def Obligations.SilentSinkHangsTheBlock : Prop :=
  ∀ (n : Nat) (s : State), s.busy = true → (∀ x ∈ s.stimuli, ∃ a, x = .access a) →
    ∃ t, Sys2Proof.core.run n s = .next t ∧ t.busy = true ∧ t.regs = s.regs ∧ t.offers = s.offers ∧
      t.accepted = s.accepted ∧ t.reads = s.reads ∧ t.irqLog = s.irqLog ∧
      s.waiting ++ s.stimuli.filterMap (fun x => match x with | .access a => some a | .sinkReady => none | .reset => none) =
        t.waiting ++ t.stimuli.filterMap (fun x => match x with | .access a => some a | .sinkReady => none | .reset => none)

/-- From R250: no step but one of reset drops, repeats or reorders a record, and only a step that executes an access adds
any.  (That none is added while a command is in progress is the model's choice: it puts all records of a command at the
port at once, notes/assumptions/4, where R250 emits them one by one as the command runs; the order in which the sink takes
them is the same.) -/
def Obligations.RecordsLeaveInOrder : Prop :=
  ∀ s t : State, step s = .next t → s.stimuli.head? ≠ some .reset →
    ∃ new, t.accepted ++ t.offers = s.accepted ++ s.offers ++ new ∧ s.accepted <+: t.accepted ∧
      (s.busy = true → new = []) ∧
      (s.waiting = [] → (∀ a, s.stimuli.head? ≠ some (.access a)) → new = [])

/-- From R81 and R354: when the sink accepts every record offered, the command completes after exactly that many
acceptances, with the registers it leaves and the IRQ level observed.  (That the state keeps those registers apart until
then is the model's choice, notes/assumptions/4; the list of stimuli is notes/assumptions/8.) -/
def Obligations.CommandCompletesWhenSinkAccepts : Prop :=
  ∀ (s : State) (r : Regs) (rest : List Stimulus), s.after = some r → s.offers ≠ [] →
    s.stimuli = List.replicate s.offers.length .sinkReady ++ rest →
    Sys2Proof.core.run s.offers.length s =
      .next { s with
        regs := r, after := none, offers := [], accepted := s.accepted ++ s.offers
        irqLog := s.irqLog ++ [r.irq], stimuli := rest }

/-- From R341 and X7: reset abandons a command in progress and its offered record and applies R340, keeping what has left
the block; an access stalled at that moment is lost, which stops the run (notes/assumptions/7). -/
def Obligations.ResetAbandonsCommand : Prop :=
  ∀ (s : State) (rest : List Stimulus), s.stimuli = .reset :: rest →
    (s.waiting = [] →
      step s = .next { State.reset with
        accepted := s.accepted, reads := s.reads, irqLog := s.irqLog, stimuli := rest }) ∧
    (s.waiting ≠ [] → step s = .fault .accessLostAtReset)

/-- R340: the reset table, and the words a host reads right after reset. -/
def Obligations.ResetValues : Prop :=
  State.reset.regs.crc = 0xFFFF ∧ State.reset.regs.line.ones = 0 ∧ State.reset.regs.line.nrzi = true ∧
  State.reset.regs.synth.phase = 0 ∧ State.reset.regs.synth.clkacc = 0 ∧ State.reset.regs.synth.symcnt = 0 ∧
  State.reset.regs.synth.smpcnt = 0 ∧ State.reset.regs.asm.fstate = .idle ∧ State.reset.regs.asm.pend = false ∧
  State.reset.regs.asm.hold = 0 ∧ State.reset.regs.asm.chars = 0 ∧ State.reset.regs.asm.naddr = 0 ∧
  State.reset.regs.events = ⟨false, false, .none, 0, 0⟩ ∧ State.reset.regs.ctrl = ⟨false, false⟩ ∧
  State.reset.regs.result = 0 ∧ State.reset.regs.setup.srate.toNat = 48000 ∧
  State.reset.regs.setup.precnt.toNat = 32 ∧ State.reset.regs.setup.flagcnt.toNat = 100 ∧
  State.reset.regs.setup.prebyte = 0x55 ∧ State.reset.regs.irq = false ∧ State.reset.offers = [] ∧
  readReg .status State.reset.regs = 0x00000400 ∧ readReg .event State.reset.regs = 0 ∧
  readReg .ctrl State.reset.regs = 0 ∧ readReg .result State.reset.regs = 0 ∧
  readReg .srate State.reset.regs = 0x0000BB80 ∧ readReg .precnt State.reset.regs = 0x00000020 ∧
  readReg .flagcnt State.reset.regs = 0x00000064 ∧ readReg .prebyte State.reset.regs = 0x00000055 ∧
  readReg .crc State.reset.regs = 0x0000FFFF ∧ readReg .phase State.reset.regs = 0 ∧
  readReg .clkacc State.reset.regs = 0 ∧ readReg .symcnt State.reset.regs = 0 ∧
  readReg .smpcnt State.reset.regs = 0 ∧ readReg .hold State.reset.regs = 0 ∧
  readReg .errinfo State.reset.regs = 0

/-! ## Invariants and whole-machine rules -/

/-- From R44 (a) to (e), R33, R36, R47 and R55, and weaker forms of R35 (while a frame is open only) and R39 (while a frame
is open, and modulo 2^32): every step keeps the invariants of the registers, of those a command in progress will leave,
and of the stream port.  (The clauses on `after`, and that a command is in progress exactly while a record is offered,
rest on the model's choice of notes/assumptions/4.) -/
def Obligations.StepKeepsInvariant : Prop :=
  ∀ s t : State, s.Inv → step s = .next t → t.Inv

/-- The invariants of `StepKeepsInvariant` hold right after reset (R340). -/
def Obligations.ResetMeetsInvariant : Prop := State.reset.Inv

/-- From R57 and R240: while a frame is open no instruction changes the sample rate or another configuration register. -/
def Obligations.OpenFrameKeepsConfiguration : Prop :=
  ∀ (i : Instr) (s t : State), s.regs.asm.fstate ≠ .idle → exec i s = .next t → t.regs.setup = s.regs.setup

/-- A host whose accesses are all ones R84 accepts, on a machine that is not reset, never stops it: every step goes on,
and the property is kept. -/
def Obligations.AcceptedAccessesNeverFault : Prop :=
  ∀ s : State, (∀ a ∈ s.waiting, a.accepted = true) →
    (∀ x ∈ s.stimuli, x = .sinkReady ∨ ∃ a, x = .access a ∧ a.accepted = true) →
    ∃ t, step s = .next t ∧ (∀ a ∈ t.waiting, a.accepted = true) ∧
      ∀ x ∈ t.stimuli, x = .sinkReady ∨ ∃ a, x = .access a ∧ a.accepted = true

/-- From R110 and R111: each command line is the write of its word to CMD, and the accesses of a `CALL` and of a
`UIFRAME` line are those of its commands in order. -/
def Obligations.AssemblerWritesCommandWords : Prop :=
  ∀ (rate : Nat) (i : Instr) (dst src : Callsign) (path : List Callsign) (text : List Byte),
    (i.isCommand = true → ∃ w, assembleLine rate (.command i) = some [.write 32 0 w] ∧ decodeWord w = .ok i) ∧
    (dst.base.length ≤ 6 →
      assembleLine rate (.call dst) =
        some (dst.base.map (fun d => .write 32 0 (0x20000000 ||| d.setWidth 32)) ++
          [.write 32 0 (0x21000000 ||| dst.ssid.setWidth 32)])) ∧
    (6 < dst.base.length → assembleLine rate (.call dst) = none) ∧
    ((∀ c ∈ dst :: src :: path, c.base.length ≤ 6) → path.length ≤ 8 →
      ∃ calls, (dst :: src :: path).mapM (fun c => assembleLine rate (.call c)) = some calls ∧
        assembleLine rate (.uiFrame dst src path text) =
          some ([.write 32 0 0x30000000] ++ calls.flatten ++ [.write 32 0 0x31000000] ++
            text.map (fun d => .write 32 0 (0x32000000 ||| d.setWidth 32)) ++ [.write 32 0 0x33000000]))
end

