-- ==== Sys2Proof/Laws/State.lean ====
section
/-! SUPPORT. One lemma per field of State for each named update, so that no later proof unfolds an update. -/

namespace Sys2Proof.Machine

variable (s : State)

@[simp] theorem updateIrq_regs : (updateIrq s).regs = { s.regs with irq := irqLevel s.regs.ctrl s.regs.events } := rfl
@[simp] theorem updateIrq_after : (updateIrq s).after = s.after := rfl
@[simp] theorem updateIrq_offers : (updateIrq s).offers = s.offers := rfl
@[simp] theorem updateIrq_accepted : (updateIrq s).accepted = s.accepted := rfl
@[simp] theorem updateIrq_waiting : (updateIrq s).waiting = s.waiting := rfl
@[simp] theorem updateIrq_reads : (updateIrq s).reads = s.reads := rfl
@[simp] theorem updateIrq_irqLog : (updateIrq s).irqLog = s.irqLog := rfl
@[simp] theorem updateIrq_stimuli : (updateIrq s).stimuli = s.stimuli := rfl

@[simp] theorem acknowledge_regs (v : Word) : (acknowledge v s).regs = { s.regs with events := s.regs.events.clear v } := rfl
@[simp] theorem acknowledge_after (v : Word) : (acknowledge v s).after = s.after := rfl
@[simp] theorem acknowledge_offers (v : Word) : (acknowledge v s).offers = s.offers := rfl
@[simp] theorem acknowledge_accepted (v : Word) : (acknowledge v s).accepted = s.accepted := rfl
@[simp] theorem acknowledge_waiting (v : Word) : (acknowledge v s).waiting = s.waiting := rfl
@[simp] theorem acknowledge_reads (v : Word) : (acknowledge v s).reads = s.reads := rfl
@[simp] theorem acknowledge_irqLog (v : Word) : (acknowledge v s).irqLog = s.irqLog := rfl
@[simp] theorem acknowledge_stimuli (v : Word) : (acknowledge v s).stimuli = s.stimuli := rfl

@[simp] theorem emit_regs (recs : List Sample) : (emit recs s).regs = s.regs := rfl
@[simp] theorem emit_after (recs : List Sample) : (emit recs s).after = s.after := rfl
@[simp] theorem emit_offers (recs : List Sample) : (emit recs s).offers = s.offers ++ recs := rfl
@[simp] theorem emit_accepted (recs : List Sample) : (emit recs s).accepted = s.accepted := rfl
@[simp] theorem emit_waiting (recs : List Sample) : (emit recs s).waiting = s.waiting := rfl
@[simp] theorem emit_reads (recs : List Sample) : (emit recs s).reads = s.reads := rfl
@[simp] theorem emit_irqLog (recs : List Sample) : (emit recs s).irqLog = s.irqLog := rfl
@[simp] theorem emit_stimuli (recs : List Sample) : (emit recs s).stimuli = s.stimuli := rfl

@[simp] theorem setOnes_regs (n : BitVec 3) : (setOnes n s).regs = { s.regs with line := { s.regs.line with ones := n } } := rfl
@[simp] theorem setOnes_after (n : BitVec 3) : (setOnes n s).after = s.after := rfl
@[simp] theorem setOnes_offers (n : BitVec 3) : (setOnes n s).offers = s.offers := rfl
@[simp] theorem setOnes_accepted (n : BitVec 3) : (setOnes n s).accepted = s.accepted := rfl
@[simp] theorem setOnes_waiting (n : BitVec 3) : (setOnes n s).waiting = s.waiting := rfl
@[simp] theorem setOnes_reads (n : BitVec 3) : (setOnes n s).reads = s.reads := rfl
@[simp] theorem setOnes_irqLog (n : BitVec 3) : (setOnes n s).irqLog = s.irqLog := rfl
@[simp] theorem setOnes_stimuli (n : BitVec 3) : (setOnes n s).stimuli = s.stimuli := rfl

@[simp] theorem setPhase_regs (p : Phase) : (setPhase p s).regs = { s.regs with asm := { s.regs.asm with fstate := p } } := rfl
@[simp] theorem setPhase_after (p : Phase) : (setPhase p s).after = s.after := rfl
@[simp] theorem setPhase_offers (p : Phase) : (setPhase p s).offers = s.offers := rfl
@[simp] theorem setPhase_accepted (p : Phase) : (setPhase p s).accepted = s.accepted := rfl
@[simp] theorem setPhase_waiting (p : Phase) : (setPhase p s).waiting = s.waiting := rfl
@[simp] theorem setPhase_reads (p : Phase) : (setPhase p s).reads = s.reads := rfl
@[simp] theorem setPhase_irqLog (p : Phase) : (setPhase p s).irqLog = s.irqLog := rfl
@[simp] theorem setPhase_stimuli (p : Phase) : (setPhase p s).stimuli = s.stimuli := rfl

@[simp] theorem clearHold_regs : (clearHold s).regs = { s.regs with asm := { s.regs.asm with pend := false, hold := 0 } } := rfl
@[simp] theorem clearHold_after : (clearHold s).after = s.after := rfl
@[simp] theorem clearHold_offers : (clearHold s).offers = s.offers := rfl
@[simp] theorem clearHold_accepted : (clearHold s).accepted = s.accepted := rfl
@[simp] theorem clearHold_waiting : (clearHold s).waiting = s.waiting := rfl
@[simp] theorem clearHold_reads : (clearHold s).reads = s.reads := rfl
@[simp] theorem clearHold_irqLog : (clearHold s).irqLog = s.irqLog := rfl
@[simp] theorem clearHold_stimuli : (clearHold s).stimuli = s.stimuli := rfl

@[simp] theorem frameInit_regs : (frameInit s).regs = { s.regs with crc := Config.crcInit, line := ⟨0, Config.nrziInit⟩, synth := ⟨0, 0, 0, 0⟩, asm := { s.regs.asm with pend := false, hold := 0, chars := 0, naddr := 0 } } := rfl
@[simp] theorem frameInit_after : (frameInit s).after = s.after := rfl
@[simp] theorem frameInit_offers : (frameInit s).offers = s.offers := rfl
@[simp] theorem frameInit_accepted : (frameInit s).accepted = s.accepted := rfl
@[simp] theorem frameInit_waiting : (frameInit s).waiting = s.waiting := rfl
@[simp] theorem frameInit_reads : (frameInit s).reads = s.reads := rfl
@[simp] theorem frameInit_irqLog : (frameInit s).irqLog = s.irqLog := rfl
@[simp] theorem frameInit_stimuli : (frameInit s).stimuli = s.stimuli := rfl

@[simp] theorem completeAccess_regs : (completeAccess s).regs = s.regs := rfl
@[simp] theorem completeAccess_after : (completeAccess s).after = s.after := rfl
@[simp] theorem completeAccess_offers : (completeAccess s).offers = s.offers := rfl
@[simp] theorem completeAccess_accepted : (completeAccess s).accepted = s.accepted := rfl
@[simp] theorem completeAccess_waiting : (completeAccess s).waiting = s.waiting := rfl
@[simp] theorem completeAccess_reads : (completeAccess s).reads = s.reads := rfl
@[simp] theorem completeAccess_irqLog : (completeAccess s).irqLog = s.irqLog ++ [s.regs.irq] := rfl
@[simp] theorem completeAccess_stimuli : (completeAccess s).stimuli = s.stimuli := rfl

@[simp] theorem resetBlock_regs : (resetBlock s).regs = Regs.reset := rfl
@[simp] theorem resetBlock_after : (resetBlock s).after = none := rfl
@[simp] theorem resetBlock_offers : (resetBlock s).offers = [] := rfl
@[simp] theorem resetBlock_accepted : (resetBlock s).accepted = s.accepted := rfl
@[simp] theorem resetBlock_waiting : (resetBlock s).waiting = [] := rfl
@[simp] theorem resetBlock_reads : (resetBlock s).reads = s.reads := rfl
@[simp] theorem resetBlock_irqLog : (resetBlock s).irqLog = s.irqLog := rfl
@[simp] theorem resetBlock_stimuli : (resetBlock s).stimuli = s.stimuli := rfl

@[simp] theorem presentCommand_regs (w : Word) : (presentCommand s w).regs = s.regs := rfl
@[simp] theorem presentCommand_after (w : Word) : (presentCommand s w).after = none := rfl
@[simp] theorem presentCommand_offers (w : Word) : (presentCommand s w).offers = [] := rfl
@[simp] theorem presentCommand_accepted (w : Word) : (presentCommand s w).accepted = s.accepted := rfl
@[simp] theorem presentCommand_waiting (w : Word) : (presentCommand s w).waiting = [] := rfl
@[simp] theorem presentCommand_reads (w : Word) : (presentCommand s w).reads = s.reads := rfl
@[simp] theorem presentCommand_irqLog (w : Word) : (presentCommand s w).irqLog = s.irqLog := rfl
@[simp] theorem presentCommand_stimuli (w : Word) : (presentCommand s w).stimuli = .access (.write 32 RegName.cmd.offset w) :: s.stimuli := rfl

@[simp] theorem abort_after : (abort s).after = s.after := by unfold abort; split <;> rfl
@[simp] theorem abort_offers : (abort s).offers = s.offers := by unfold abort; split <;> rfl
@[simp] theorem abort_accepted : (abort s).accepted = s.accepted := by unfold abort; split <;> rfl
@[simp] theorem abort_waiting : (abort s).waiting = s.waiting := by unfold abort; split <;> rfl
@[simp] theorem abort_reads : (abort s).reads = s.reads := by unfold abort; split <;> rfl
@[simp] theorem abort_irqLog : (abort s).irqLog = s.irqLog := by unfold abort; split <;> rfl
@[simp] theorem abort_stimuli : (abort s).stimuli = s.stimuli := by unfold abort; split <;> rfl

@[simp] theorem abort_regs :
    (abort s).regs = { s.regs with asm := if s.regs.asm.fstate = .idle then s.regs.asm else FrameAsm.closed } := by
  unfold abort; split <;> rfl

@[simp] theorem raiseError_after (c : Cause) (info : Word) : (raiseError c info s).after = s.after := by simp [raiseError]
@[simp] theorem raiseError_offers (c : Cause) (info : Word) : (raiseError c info s).offers = s.offers := by simp [raiseError]
@[simp] theorem raiseError_accepted (c : Cause) (info : Word) : (raiseError c info s).accepted = s.accepted := by simp [raiseError]
@[simp] theorem raiseError_waiting (c : Cause) (info : Word) : (raiseError c info s).waiting = s.waiting := by simp [raiseError]
@[simp] theorem raiseError_reads (c : Cause) (info : Word) : (raiseError c info s).reads = s.reads := by simp [raiseError]
@[simp] theorem raiseError_irqLog (c : Cause) (info : Word) : (raiseError c info s).irqLog = s.irqLog := by simp [raiseError]
@[simp] theorem raiseError_stimuli (c : Cause) (info : Word) : (raiseError c info s).stimuli = s.stimuli := by simp [raiseError]

@[simp] theorem raiseError_regs (c : Cause) (info : Word) :
    (raiseError c info s).regs =
      { s.regs with
        events := s.regs.events.record c s.regs.asm.naddr info
        asm := if s.regs.asm.fstate = .idle then s.regs.asm else FrameAsm.closed
        irq := irqLevel s.regs.ctrl (s.regs.events.record c s.regs.asm.naddr info) } := by
  simp [raiseError]

@[ext] theorem State.ext_fields {s t : State} (h1 : s.regs = t.regs) (h2 : s.after = t.after)
    (h3 : s.offers = t.offers) (h4 : s.accepted = t.accepted) (h5 : s.waiting = t.waiting) (h6 : s.reads = t.reads)
    (h7 : s.irqLog = t.irqLog) (h8 : s.stimuli = t.stimuli) : s = t := by
  cases s; cases t; simp_all

theorem PortsKept.refl : PortsKept s s := ⟨rfl, rfl, rfl, rfl, rfl, rfl⟩

theorem PortsKept.trans {s t u : State} (h : PortsKept s t) (k : PortsKept t u) : PortsKept s u :=
  ⟨k.1.trans h.1, k.2.trans h.2, k.3.trans h.3, k.4.trans h.4, k.5.trans h.5, k.6.trans h.6⟩

theorem raiseError_onlyRegs (c : Cause) (info : Word) : OnlyRegs s (raiseError c info s) :=
  ⟨⟨by simp, by simp, by simp, by simp, by simp, by simp⟩, by simp⟩

end Sys2Proof.Machine
end

