-- ==== Sys2Proof/Laws/Synth.lean ====
section
/-! SUPPORT. The tone synthesizer in closed form: what one symbol does to the registers and which records it emits. -/

namespace Sys2Proof.Machine

theorem samplesDue_nonpos {d : Int} (h : d ≤ 0) : samplesDue d = 0 := by
  unfold samplesDue; omega

theorem samplesDue_pos {d : Int} (h : 0 < d) : samplesDue d = samplesDue (d - 1200) + 1 := by
  unfold samplesDue; omega

/-- The clock after the due samples is back in its range (R248). -/
theorem samplesDue_leaves (d : Int) (h : -1199 ≤ d) :
    -1199 ≤ d - 1200 * samplesDue d ∧ d - 1200 * samplesDue d ≤ 0 := by
  unfold samplesDue; omega

theorem clkacc_sub_toInt (c : Word) (h : 0 < c.toInt) : (c - 1200).toInt = c.toInt - 1200 := by
  rw [BitVec.toInt_sub]
  have h1 : (1200 : Word).toInt = 1200 := by decide
  have h2 := BitVec.toInt_lt (x := c)
  rw [h1]
  have : (2 : Nat) ^ 32 = 4294967296 := by norm_num
  rw [Int.bmod_def]
  norm_num at h2 ⊢
  omega

theorem clkacc_add_toInt (c : Word) (rate : BitVec 20) (h1 : -1199 ≤ c.toInt) (h2 : c.toInt ≤ 0) :
    (c + rate.setWidth 32).toInt = c.toInt + rate.toNat := by
  have h3 := rate.isLt
  have h4 : (rate.setWidth 32).toInt = rate.toNat := by
    rw [BitVec.toInt_eq_toNat_cond, BitVec.toNat_setWidth, Nat.mod_eq_of_lt (by omega)]
    simp; omega
  rw [BitVec.toInt_add, h4, Int.bmod_def]
  norm_num at h3 ⊢
  omega

/-- The phase word of the sample `j` places on (R241). -/
theorem phase_step {p f R : Nat} (j : Nat) : ((p + f) % R + j * f) % R = (p + (j + 1) * f) % R := by
  rw [Nat.add_mod, Nat.mod_mod, ← Nat.add_mod]
  congr 1
  ring

theorem toneSample_eq (t : Bool) (rate : BitVec 20) (y : Synth) :
    toneSample t rate y = toneRecord t rate.toNat y.phase.toNat := by
  simp [toneSample, toneRecord]

theorem symbolRecords_zero (t : Bool) (R p : Nat) : symbolRecords t R p 0 = [] := rfl

theorem symbolRecords_succ (t : Bool) (R p c : Nat) (h : p < R) :
    symbolRecords t R p (c + 1) = toneRecord t R p :: symbolRecords t R ((p + toneFreq t) % R) c := by
  unfold symbolRecords
  rw [List.range_succ_eq_map]
  simp only [List.map_cons, List.map_map, Nat.zero_mul, Nat.add_zero, Nat.mod_eq_of_lt h]
  congr 1
  apply List.map_congr_left
  intro j _
  simp only [Function.comp, phase_step]

/-- The registers after `c` samples of one symbol (R243). -/
def synthAdvance (t : Bool) (R c : Nat) (y : Synth) : Synth :=
  { phase := BitVec.ofNat 20 ((y.phase.toNat + c * toneFreq t) % R)
    clkacc := y.clkacc - 1200 * BitVec.ofNat 32 c
    symcnt := y.symcnt
    smpcnt := y.smpcnt + BitVec.ofNat 32 c }

theorem synthAdvance_zero (t : Bool) (R : Nat) (y : Synth) (h : 0 < R → y.phase.toNat < R) :
    synthAdvance t R 0 y = y := by
  have hp : BitVec.ofNat 20 (y.phase.toNat % R) = y.phase := by
    rcases Nat.eq_zero_or_pos R with rfl | hR
    · simp
    · rw [Nat.mod_eq_of_lt (h hR)]; simp
  cases y
  simp_all [synthAdvance]

theorem phase_toNat (n : Nat) (rate : BitVec 20) (h : 0 < rate.toNat) :
    (BitVec.ofNat 20 (n % rate.toNat)).toNat = n % rate.toNat := by
  rw [BitVec.toNat_ofNat, Nat.mod_eq_of_lt]
  exact lt_trans (Nat.mod_lt _ h) rate.isLt

/-- The sample loop of R243 in closed form: it emits the due samples and advances the registers by them. -/
theorem toneLoop_spec (t : Bool) (rate : BitVec 20) (fuel : Nat) (y : Synth)
    (hf : samplesDue y.clkacc.toInt ≤ fuel) (hR : 0 < y.clkacc.toInt → 0 < rate.toNat)
    (hp : 0 < rate.toNat → y.phase.toNat < rate.toNat) :
    toneLoop t rate fuel y =
      (synthAdvance t rate.toNat (samplesDue y.clkacc.toInt) y,
       symbolRecords t rate.toNat y.phase.toNat (samplesDue y.clkacc.toInt)) := by
  induction fuel generalizing y with
  | zero =>
    have h0 : samplesDue y.clkacc.toInt = 0 := by omega
    simp [toneLoop, h0, synthAdvance_zero t _ y hp, symbolRecords_zero]
  | succ fuel ih =>
    by_cases hpos : 0 < y.clkacc.toInt
    · have hrate := hR hpos
      have hc : (toneStep t rate y).clkacc.toInt = y.clkacc.toInt - 1200 := clkacc_sub_toInt _ hpos
      have hph : (toneStep t rate y).phase.toNat = (y.phase.toNat + toneFreq t) % rate.toNat := by
        simp only [toneStep, modRate, if_neg hrate.ne']
        exact phase_toNat _ _ hrate
      have hdue := samplesDue_pos hpos
      have := ih (toneStep t rate y) (by rw [hc]; omega) (fun _ => hrate)
        (fun _ => by rw [hph]; exact Nat.mod_lt _ hrate)
      simp only [toneLoop, if_pos hpos, this]
      rw [hc, hph, hdue, symbolRecords_succ _ _ _ _ (hp hrate), toneSample_eq]
      congr 1
      simp only [synthAdvance, hph, phase_step]
      simp only [toneStep]
      congr 1
      · rw [BitVec.ofNat_add]
        have : ∀ a b : Word, a - 1200 - 1200 * b = a - 1200 * (b + 1) := by intro a b; ring
        exact this _ _
      · rw [BitVec.ofNat_add]
        have : ∀ a b : Word, a + 1 + b = a + (b + 1) := by intro a b; ring
        exact this _ _
    · have h0 : samplesDue y.clkacc.toInt = 0 := samplesDue_nonpos (by omega)
      simp [toneLoop, hpos, h0, synthAdvance_zero t _ y hp, symbolRecords_zero]

theorem samplesDue_le_toNat (d : Int) : samplesDue d ≤ d.toNat := by
  unfold samplesDue; omega

/-- What keeps a symbol well behaved: the clock in its range (R248) and the phase word below R (R241). -/
structure SynthReady (rate : BitVec 20) (y : Synth) : Prop where
  clock : ClockBounded y
  phase : 0 < rate.toNat → y.phase.toNat < rate.toNat

/-- The number of samples of the next symbol (R242, R244). -/
def nextCount (rate : BitVec 20) (y : Synth) : Nat := samplesDue (y.clkacc.toInt + rate.toNat)

/-- `Symbol(t)` in closed form (R243). -/
theorem synthSymbol_spec (t : Bool) (rate : BitVec 20) (y : Synth) (h : SynthReady rate y) :
    synthSymbol t rate y =
      (synthAdvance t rate.toNat (nextCount rate y) (symbolStart rate y),
       symbolRecords t rate.toNat y.phase.toNat (nextCount rate y)) := by
  obtain ⟨⟨h1, h2⟩, hp⟩ := h
  have hc : (symbolStart rate y).clkacc.toInt = y.clkacc.toInt + rate.toNat := clkacc_add_toInt _ _ h1 h2
  have := toneLoop_spec t rate (symbolStart rate y).clkacc.toInt.toNat (symbolStart rate y)
    (samplesDue_le_toNat _) (by rw [hc]; omega) hp
  rw [synthSymbol, this, hc]
  rfl

/-- CLKACC after a symbol, as an exact integer (R242). -/
theorem synthSymbol_clkacc (t : Bool) (rate : BitVec 20) (y : Synth) (h : SynthReady rate y) :
    (synthSymbol t rate y).1.clkacc.toInt = y.clkacc.toInt + rate.toNat - 1200 * nextCount rate y := by
  rw [synthSymbol_spec t rate y h]
  obtain ⟨⟨h1, h2⟩, hp⟩ := h
  have hc : (symbolStart rate y).clkacc.toInt = y.clkacc.toInt + rate.toNat := clkacc_add_toInt _ _ h1 h2
  have hr := rate.isLt
  have hl := samplesDue_leaves (y.clkacc.toInt + rate.toNat) (by omega)
  have hn : nextCount rate y ≤ 1048576 := by unfold nextCount samplesDue; omega
  have hm : (1200 * BitVec.ofNat 32 (nextCount rate y) : Word).toInt = 1200 * nextCount rate y := by
    have : (1200 * BitVec.ofNat 32 (nextCount rate y) : Word).toNat = 1200 * nextCount rate y := by
      simp only [BitVec.toNat_mul, BitVec.toNat_ofNat, Nat.reducePow]
      rw [Nat.mod_eq_of_lt (a := nextCount rate y) (by omega)]
      have : nextCount rate y ≤ 900 := by unfold nextCount samplesDue; omega
      simp; omega
    rw [BitVec.toInt_eq_toNat_cond, this]
    have : nextCount rate y ≤ 900 := by unfold nextCount samplesDue; omega
    simp; omega
  simp only [synthAdvance, BitVec.toInt_sub, hc, hm]
  unfold nextCount at *
  rw [Int.bmod_def]
  norm_num
  omega

/-- A symbol keeps what it needs (R248, R241). -/
theorem synthSymbol_ready (t : Bool) (rate : BitVec 20) (y : Synth) (h : SynthReady rate y) :
    SynthReady rate (synthSymbol t rate y).1 := by
  have hc := synthSymbol_clkacc t rate y h
  have hl := samplesDue_leaves (y.clkacc.toInt + rate.toNat) (by have := h.clock.1; omega)
  refine ⟨⟨?_, ?_⟩, fun hr => ?_⟩
  · rw [hc]; exact hl.1
  · rw [hc]; exact hl.2
  · rw [synthSymbol_spec t rate y h]
    simp only [synthAdvance]
    rw [phase_toNat _ _ hr]
    exact Nat.mod_lt _ hr

end Sys2Proof.Machine
end

