-- ==== Sys2Proof/Laws/Datapath.lean ====
section
/-! SUPPORT. The datapath procedures in closed form: what sending a line-bit sequence, payload bits, or header and
information bytes does to the state (R181, R182, R212 to R215), and that the records are those of the whole-sequence
transforms. -/

namespace Sys2Proof.Machine

/-! ## Symbol sequences -/

/-- The synthesizer's registers after a symbol sequence. -/
def synthAfter (rate : BitVec 20) : Synth → List Bool → Synth
  | y, [] => y
  | y, t :: ts => synthAfter rate (synthSymbol t rate y).1 ts

/-- The records of a symbol sequence. -/
def synthRecords (rate : BitVec 20) : Synth → List Bool → List Sample
  | _, [] => []
  | y, t :: ts => (synthSymbol t rate y).2 ++ synthRecords rate (synthSymbol t rate y).1 ts

theorem synthAfter_append (rate : BitVec 20) (y : Synth) (a b : List Bool) :
    synthAfter rate y (a ++ b) = synthAfter rate (synthAfter rate y a) b := by
  induction a generalizing y with
  | nil => rfl
  | cons t ts ih => simp [synthAfter, ih]

theorem synthRecords_append (rate : BitVec 20) (y : Synth) (a b : List Bool) :
    synthRecords rate y (a ++ b) = synthRecords rate y a ++ synthRecords rate (synthAfter rate y a) b := by
  induction a generalizing y with
  | nil => rfl
  | cons t ts ih => simp [synthAfter, synthRecords, ih]

theorem synthAfter_ready (rate : BitVec 20) (y : Synth) (ts : List Bool) (h : SynthReady rate y) :
    SynthReady rate (synthAfter rate y ts) := by
  induction ts generalizing y with
  | nil => exact h
  | cons t ts ih => exact ih _ (synthSymbol_ready t rate y h)

theorem synthSymbol_phase (t : Bool) (rate : BitVec 20) (y : Synth) (h : SynthReady rate y) :
    (synthSymbol t rate y).1.phase.toNat = (y.phase.toNat + nextCount rate y * toneFreq t) % rate.toNat := by
  rw [synthSymbol_spec t rate y h]
  rcases Nat.eq_zero_or_pos rate.toNat with hR | hR
  · have hc : nextCount rate y = 0 := by
      unfold nextCount; rw [hR]; exact samplesDue_nonpos (by simpa using h.clock.2)
    simp [synthAdvance, hR, hc, symbolStart]
  · exact phase_toNat _ _ hR

theorem synthRecords_eq_modulate (rate : BitVec 20) (y : Synth) (ts : List Bool) (h : SynthReady rate y) :
    synthRecords rate y ts = modulateFrom rate.toNat y.clkacc.toInt y.phase.toNat ts := by
  induction ts generalizing y with
  | nil => rfl
  | cons t ts ih =>
    rw [synthRecords, modulateFrom, ih _ (synthSymbol_ready t rate y h), synthSymbol_clkacc t rate y h,
      synthSymbol_phase t rate y h, synthSymbol_spec t rate y h]
    rfl

/-! ## NRZI and stuffing of sequences -/

theorem nrziFrom_append (l : Bool) (a b : List Bool) :
    nrziFrom l (a ++ b) = nrziFrom l a ++ nrziFrom (levelAfter l a) b := by
  induction a generalizing l with
  | nil => rfl
  | cons x xs ih => simp [nrziFrom, levelAfter, ih]

theorem levelAfter_append (l : Bool) (a b : List Bool) :
    levelAfter l (a ++ b) = levelAfter (levelAfter l a) b := by
  induction a generalizing l with
  | nil => rfl
  | cons x xs ih => simp [levelAfter, ih]

theorem stuffFrom_append (n : Nat) (a b : List Bool) :
    stuffFrom n (a ++ b) = stuffFrom n a ++ stuffFrom (runAfter n a) b := by
  induction a generalizing n with
  | nil => rfl
  | cons x xs ih => cases x <;> simp only [stuffFrom, runAfter, List.cons_append] <;> (try split) <;> simp [ih]

theorem runAfter_append (n : Nat) (a b : List Bool) : runAfter n (a ++ b) = runAfter (runAfter n a) b := by
  induction a generalizing n with
  | nil => rfl
  | cons x xs ih => cases x <;> simp only [runAfter, List.cons_append] <;> (try split) <;> simp [ih]

theorem runAfter_le (n : Nat) (a : List Bool) (h : n ≤ 4) : runAfter n a ≤ 4 := by
  induction a generalizing n with
  | nil => exact h
  | cons x xs ih =>
    cases x
    · exact ih 0 (by omega)
    · simp only [runAfter]
      split
      · exact ih 0 (by omega)
      · exact ih (n + 1) (by omega)

/-! ## Line bits -/

theorem lineBit_eq (x : Bool) (s : State) :
    lineBit x s =
      { s with
        regs.line.nrzi := s.regs.line.nrzi == x
        regs.synth := (synthSymbol (s.regs.line.nrzi == x) s.regs.setup.srate s.regs.synth).1
        offers := s.offers ++ (synthSymbol (s.regs.line.nrzi == x) s.regs.setup.srate s.regs.synth).2 } := by
  have : (if x then s.regs.line.nrzi else !s.regs.line.nrzi) = (s.regs.line.nrzi == x) := by
    cases x <;> cases s.regs.line.nrzi <;> rfl
  simp only [lineBit, this]
  rfl

/-- A line-bit sequence sent in order. -/
def sendLine (xs : List Bool) (s : State) : State := xs.foldl (fun t b => lineBit b t) s

theorem sendLine_append (a b : List Bool) (s : State) : sendLine (a ++ b) s = sendLine b (sendLine a s) :=
  List.foldl_append

theorem lineByte_eq (d : Byte) (s : State) : lineByte d s = sendLine (bitsLsb d) s := rfl

/-- Everything sending line bits does (R214, R215). -/
theorem sendLine_eq (xs : List Bool) (s : State) :
    sendLine xs s =
      { s with
        regs.line.nrzi := levelAfter s.regs.line.nrzi xs
        regs.synth := synthAfter s.regs.setup.srate s.regs.synth (nrziFrom s.regs.line.nrzi xs)
        offers := s.offers ++ synthRecords s.regs.setup.srate s.regs.synth (nrziFrom s.regs.line.nrzi xs) } := by
  induction xs generalizing s with
  | nil => simp [sendLine, levelAfter, synthAfter, synthRecords, nrziFrom]
  | cons x xs ih =>
    have : sendLine (x :: xs) s = sendLine xs (lineBit x s) := rfl
    rw [this, ih, lineBit_eq]
    simp [levelAfter, synthAfter, synthRecords, nrziFrom]

/-! ## Payload bits -/

/-- Payload bits stuffed and sent in order. -/
def sendPayload (bs : List Bool) (s : State) : State := bs.foldl (fun t b => stuffBit b t) s

theorem sendPayload_append (a b : List Bool) (s : State) :
    sendPayload (a ++ b) s = sendPayload b (sendPayload a s) := List.foldl_append

theorem fcsByte_eq (d : Byte) (s : State) : fcsByte d s = sendPayload (bitsLsb d) s := rfl

/-- The run counter as a register value. -/
theorem ones_succ (n : BitVec 3) (h : n.toNat ≤ 4) :
    (n + 1 = 5 ↔ n.toNat + 1 = 5) ∧ (n.toNat + 1 ≠ 5 → (n + 1).toNat = n.toNat + 1) := by
  revert h; revert n; decide

theorem setOnes_sendLine (n : BitVec 3) (xs : List Bool) (s : State) :
    setOnes n (sendLine xs s) = sendLine xs (setOnes n s) := by
  simp [sendLine_eq, setOnes]

theorem sendLine_cons (x : Bool) (xs : List Bool) (s : State) :
    sendLine (x :: xs) s = sendLine xs (lineBit x s) := rfl

/-- Stuffing bit by bit sends the stuffed sequence (R212, R217, R218). -/
theorem sendPayload_eq (bs : List Bool) (s : State) (h : s.regs.line.ones.toNat ≤ 4) :
    sendPayload bs s =
      setOnes (BitVec.ofNat 3 (runAfter s.regs.line.ones.toNat bs))
        (sendLine (stuffFrom s.regs.line.ones.toNat bs) s) := by
  induction bs generalizing s with
  | nil => simp [sendPayload, sendLine, runAfter, stuffFrom, setOnes]
  | cons b bs ih =>
    have hstep : sendPayload (b :: bs) s = sendPayload bs (stuffBit b s) := rfl
    have hones : (lineBit b s).regs.line.ones = s.regs.line.ones := by rw [lineBit_eq]
    cases b with
    | false =>
      have : stuffBit false s = setOnes 0 (lineBit false s) := rfl
      rw [hstep, this, ih _ (by simp)]
      simp only [setOnes_regs, stuffFrom, runAfter, sendLine_cons]
      rw [← setOnes_sendLine]
      rfl
    | true =>
      obtain ⟨h5, hs⟩ := ones_succ _ h
      by_cases hn : s.regs.line.ones.toNat + 1 = 5
      · have : stuffBit true s = setOnes 0 (lineBit false (setOnes (s.regs.line.ones + 1) (lineBit true s))) := by
          simp only [stuffBit, if_true, hones]; rw [if_pos (h5.mpr hn)]
        rw [hstep, this, ih _ (by simp)]
        simp only [setOnes_regs, stuffFrom, runAfter, hn, if_true, sendLine_cons]
        rw [← setOnes_sendLine]
        simp [sendLine_eq, lineBit_eq, setOnes]
      · have : stuffBit true s = setOnes (s.regs.line.ones + 1) (lineBit true s) := by
          have : ¬ s.regs.line.ones + 1 = 5 := fun k => hn (h5.mp k)
          simp only [stuffBit, if_true, hones]; rw [if_neg this]
        rw [hstep, this, ih _ (by simp only [setOnes_regs]; rw [hs hn]; omega)]
        simp only [setOnes_regs, hs hn, stuffFrom, runAfter, hn, if_false, sendLine_cons]
        rw [← setOnes_sendLine]
        rfl

/-! ## Header and information bytes -/

/-- Bits counted in the CRC, stuffed and sent in order. -/
def sendDataBits (bs : List Bool) (s : State) : State := bs.foldl (fun t b => dataBit b t) s

/-- Bytes counted in the CRC, stuffed and sent in order. -/
def sendData (ds : List Byte) (s : State) : State := ds.foldl (fun t d => dataByte d t) s

theorem dataByte_eq (d : Byte) (s : State) : dataByte d s = sendDataBits (bitsLsb d) s := rfl

theorem sendDataBits_append (a b : List Bool) (s : State) :
    sendDataBits (a ++ b) s = sendDataBits b (sendDataBits a s) := List.foldl_append

theorem sendData_append (a b : List Byte) (s : State) : sendData (a ++ b) s = sendData b (sendData a s) :=
  List.foldl_append

theorem sendData_eq_bits (ds : List Byte) (s : State) : sendData ds s = sendDataBits (bitsOf ds) s := by
  induction ds generalizing s with
  | nil => rfl
  | cons d ds ih =>
    have : sendData (d :: ds) s = sendData ds (dataByte d s) := rfl
    have hb : bitsOf (d :: ds) = bitsLsb d ++ bitsOf ds := by simp [bitsOf]
    rw [this, ih, dataByte_eq, hb, sendDataBits_append]

theorem stuffBit_crc (b : Bool) (c : BitVec 16) (s : State) :
    stuffBit b { s with regs.crc := c } = { stuffBit b s with regs.crc := c } := by
  cases b
  · simp [stuffBit, lineBit_eq, setOnes]
  · simp only [stuffBit, lineBit_eq, setOnes, if_true]
    split <;> rfl

theorem stuffBit_keeps_crc (b : Bool) (s : State) : (stuffBit b s).regs.crc = s.regs.crc := by
  cases b
  · simp [stuffBit, lineBit_eq, setOnes]
  · simp only [stuffBit, lineBit_eq, setOnes, if_true]
    split <;> rfl

theorem sendPayload_crc (bs : List Bool) (c : BitVec 16) (s : State) :
    sendPayload bs { s with regs.crc := c } = { sendPayload bs s with regs.crc := c } := by
  induction bs generalizing s with
  | nil => rfl
  | cons b bs ih =>
    have h1 : ∀ t, sendPayload (b :: bs) t = sendPayload bs (stuffBit b t) := fun _ => rfl
    rw [h1, h1, stuffBit_crc, ih]

/-- Counting in the CRC and sending do not interfere (R181). -/
theorem sendDataBits_eq_payload (bs : List Bool) (s : State) :
    sendDataBits bs s = { sendPayload bs s with regs.crc := crcBits s.regs.crc bs } := by
  induction bs generalizing s with
  | nil => rfl
  | cons b bs ih =>
    have h1 : sendDataBits (b :: bs) s = sendDataBits bs (dataBit b s) := rfl
    have h2 : ∀ t, sendPayload (b :: bs) t = sendPayload bs (stuffBit b t) := fun _ => rfl
    rw [h1, ih, dataBit, stuffBit_crc, sendPayload_crc, h2]
    rfl

/-- Everything sending data bits does, in one record (R181, R212, R215, R243). -/
theorem sendDataBits_eq (bs : List Bool) (s : State) (h : s.regs.line.ones.toNat ≤ 4) :
    sendDataBits bs s =
      { s with
        regs.crc := crcBits s.regs.crc bs
        regs.line := ⟨BitVec.ofNat 3 (runAfter s.regs.line.ones.toNat bs),
          levelAfter s.regs.line.nrzi (stuffFrom s.regs.line.ones.toNat bs)⟩
        regs.synth := synthAfter s.regs.setup.srate s.regs.synth
          (nrziFrom s.regs.line.nrzi (stuffFrom s.regs.line.ones.toNat bs))
        offers := s.offers ++ synthRecords s.regs.setup.srate s.regs.synth
          (nrziFrom s.regs.line.nrzi (stuffFrom s.regs.line.ones.toNat bs)) } := by
  rw [sendDataBits_eq_payload, sendPayload_eq _ _ h, sendLine_eq]
  rfl

end Sys2Proof.Machine
end

