-- ==== Sys2Proof/Laws/Decode.lean ====
section
/-! SUPPORT. The fields of a command word, what each operand form accepts, and what a successful decoding says. -/

namespace Sys2Proof

theorem commandWord_toNat (o : BitVec 8) (m : BitVec 24) : (commandWord o m).toNat = o.toNat * 2 ^ 24 + m.toNat := by
  unfold commandWord
  rw [BitVec.toNat_append, Nat.shiftLeft_eq, Nat.mul_comm, ← Nat.two_pow_add_eq_or_of_lt m.isLt, Nat.mul_comm]

theorem opcField_toNat (w : Word) : (opcField w).toNat = w.toNat / 2 ^ 24 := by
  have := w.isLt
  simp only [opcField, BitVec.extractLsb'_toNat, Nat.shiftRight_eq_div_pow]
  omega

theorem immField_toNat (w : Word) : (immField w).toNat = w.toNat % 2 ^ 24 := by
  simp [immField, BitVec.extractLsb'_toNat]

@[simp] theorem opcField_commandWord (o : BitVec 8) (m : BitVec 24) : opcField (commandWord o m) = o := by
  apply BitVec.eq_of_toNat_eq
  rw [opcField_toNat, commandWord_toNat]; omega

@[simp] theorem immField_commandWord (o : BitVec 8) (m : BitVec 24) : immField (commandWord o m) = m := by
  apply BitVec.eq_of_toNat_eq
  rw [immField_toNat, commandWord_toNat]; omega

/-- A word is its two fields (R101). -/
theorem commandWord_fields (w : Word) : commandWord (opcField w) (immField w) = w := by
  apply BitVec.eq_of_toNat_eq
  rw [commandWord_toNat, opcField_toNat, immField_toNat]; omega

theorem formZ_ok {imm : BitVec 24} {i j : Instr} : formZ imm i = .ok j ↔ imm = 0 ∧ j = i := by
  unfold formZ
  split
  · rename_i h; simp only [Except.ok.injEq, h, true_and]; exact eq_comm
  · rename_i h; exact ⟨fun k => (nomatch k), fun k => absurd k.1 h⟩

theorem extract_high_zero (imm : BitVec 24) (k n : Nat) (h : k + n = 24) :
    imm.extractLsb' k n = 0 ↔ imm.toNat < 2 ^ k := by
  have hi := imm.isLt
  rw [← BitVec.toNat_inj, BitVec.extractLsb'_toNat, Nat.shiftRight_eq_div_pow]
  have hlt : imm.toNat / 2 ^ k < 2 ^ n := by
    rw [Nat.div_lt_iff_lt_mul (Nat.two_pow_pos k), ← Nat.pow_add, Nat.add_comm, h]
    exact hi
  rw [Nat.mod_eq_of_lt hlt]
  have hz : ((0 : BitVec n)).toNat = 0 := by simp
  rw [hz, Nat.div_eq_zero_iff]
  have := Nat.two_pow_pos k
  omega

theorem formB8_ok {imm : BitVec 24} {f : Byte → Instr} {j : Instr} :
    formB8 imm f = .ok j ↔ imm.toNat < 256 ∧ j = f (imm.setWidth 8) := by
  have h := extract_high_zero imm 8 16 rfl
  have e : imm.extractLsb' 0 8 = imm.setWidth 8 := by
    apply BitVec.eq_of_toNat_eq; simp [BitVec.extractLsb'_toNat]
  unfold formB8
  rw [e]
  split <;> simp_all [eq_comm]

theorem formB1_ok {imm : BitVec 24} {f : Bool → Instr} {j : Instr} :
    formB1 imm f = .ok j ↔ imm.toNat < 2 ∧ j = f (imm.getLsbD 0) := by
  have h := extract_high_zero imm 1 23 rfl
  unfold formB1
  split <;> simp_all [eq_comm]

theorem formN24_ok {imm : BitVec 24} {f : BitVec 24 → Instr} {j : Instr} : formN24 imm f = .ok j ↔ j = f imm := by
  simp [formN24, eq_comm]

theorem setWidth_back (imm : BitVec 24) (h : imm.toNat < 256) : (imm.setWidth 8).setWidth 24 = imm := by
  apply BitVec.eq_of_toNat_eq
  rw [BitVec.toNat_setWidth, BitVec.toNat_setWidth]
  omega

theorem ofBool_back (imm : BitVec 24) (h : imm.toNat < 2) : (BitVec.ofBool (imm.getLsbD 0)).setWidth 24 = imm := by
  have : imm = 0 ∨ imm = 1 := by
    rcases Nat.lt_or_ge imm.toNat 1 with h1 | h1
    · left; apply BitVec.eq_of_toNat_eq; simp; omega
    · right; apply BitVec.eq_of_toNat_eq; simp; omega
  rcases this with rfl | rfl <;> decide

/-- A word that decodes is the word of what it decodes to, and is a command. -/
theorem decodeWord_ok {w : Word} {i : Instr} (h : decodeWord w = .ok i) :
    encode i = .word w ∧ i.isCommand = true ∧ wordOf i = w := by
  have hw := commandWord_fields w
  unfold decodeWord at h
  have key : encode i = .word w ∧ i.isCommand = true := by
    split at h
    all_goals first
      | exact absurd h (by simp)
      | skip
    all_goals
      rename_i ho
      have ho' : opcField w = BitVec.ofNat 8 (opcField w).toNat := by simp
      rw [ho] at ho'
      first
      | (obtain ⟨hm, rfl⟩ := formZ_ok.mp h; rw [ho', hm] at hw; exact ⟨congrArg _ hw, rfl⟩)
      | (obtain ⟨hm, rfl⟩ := formB8_ok.mp h
         rw [ho', ← setWidth_back _ hm] at hw; exact ⟨congrArg _ hw, rfl⟩)
      | (obtain ⟨hm, rfl⟩ := formB1_ok.mp h
         rw [ho', ← ofBool_back _ hm] at hw; exact ⟨congrArg _ hw, rfl⟩)
      | (have hi := formN24_ok.mp h; subst hi; rw [ho'] at hw; exact ⟨congrArg _ hw, rfl⟩)
  exact ⟨key.1, key.2, by rw [wordOf, key.1]⟩

end Sys2Proof
end

