-- ==== Sys2Proof/Laws/Sent.lean ====
section
/-! SUPPORT. `SentLine` from the closed forms of the datapath, and the commands' successful effects as closed forms. -/

namespace Sys2Proof.Machine

/-! ## Counters, clock and phase of a symbol sequence -/

theorem toneLoop_symcnt (t : Bool) (rate : BitVec 20) (fuel : Nat) (y : Synth) :
    (toneLoop t rate fuel y).1.symcnt = y.symcnt := by
  induction fuel generalizing y with
  | zero => rfl
  | succ n ih =>
    simp only [toneLoop]
    split
    · exact ih _
    · rfl

theorem synthSymbol_symcnt (t : Bool) (rate : BitVec 20) (y : Synth) :
    (synthSymbol t rate y).1.symcnt = y.symcnt + 1 := toneLoop_symcnt _ _ _ _

theorem ofNat_succ_add (w : Word) (n : Nat) : w + 1 + BitVec.ofNat 32 n = w + BitVec.ofNat 32 (n + 1) := by
  rw [BitVec.ofNat_add]
  have : ∀ a b : Word, a + 1 + b = a + (b + 1) := by intro a b; ring
  exact this _ _

theorem synthAfter_symcnt (rate : BitVec 20) (y : Synth) (ts : List Bool) :
    (synthAfter rate y ts).symcnt = y.symcnt + BitVec.ofNat 32 ts.length := by
  induction ts generalizing y with
  | nil => simp [synthAfter]
  | cons t ts ih =>
    rw [synthAfter, ih, synthSymbol_symcnt, ofNat_succ_add]
    rfl

theorem symbolRecords_length (t : Bool) (R p c : Nat) : (symbolRecords t R p c).length = c := by
  simp [symbolRecords]

theorem synthAfter_smpcnt (rate : BitVec 20) (y : Synth) (ts : List Bool) (h : SynthReady rate y) :
    (synthAfter rate y ts).smpcnt = y.smpcnt + BitVec.ofNat 32 (synthRecords rate y ts).length := by
  induction ts generalizing y with
  | nil => simp [synthAfter, synthRecords]
  | cons t ts ih =>
    have h1 : (synthSymbol t rate y).1.smpcnt = y.smpcnt + BitVec.ofNat 32 (nextCount rate y) := by
      rw [synthSymbol_spec t rate y h]; rfl
    have h2 : (synthSymbol t rate y).2.length = nextCount rate y := by
      rw [synthSymbol_spec t rate y h]; exact symbolRecords_length _ _ _ _
    rw [synthAfter, ih _ (synthSymbol_ready t rate y h), h1, synthRecords, List.length_append, h2, BitVec.ofNat_add,
      BitVec.add_assoc]

theorem synthAfter_clkacc (rate : BitVec 20) (y : Synth) (ts : List Bool) (h : SynthReady rate y) :
    (synthAfter rate y ts).clkacc.toInt =
      y.clkacc.toInt + rate.toNat * ts.length - 1200 * (synthRecords rate y ts).length := by
  induction ts generalizing y with
  | nil => simp [synthAfter, synthRecords]
  | cons t ts ih =>
    have h2 : (synthSymbol t rate y).2.length = nextCount rate y := by
      rw [synthSymbol_spec t rate y h]; exact symbolRecords_length _ _ _ _
    rw [synthAfter, ih _ (synthSymbol_ready t rate y h), synthSymbol_clkacc t rate y h, synthRecords,
      List.length_append, h2, List.length_cons]
    push_cast
    ring

theorem PhaseChain.append {R p m q : Nat} {a b : List Sample} (h : PhaseChain R p a m) (k : PhaseChain R m b q) :
    PhaseChain R p (a ++ b) q := by
  induction a generalizing p with
  | nil => obtain rfl : m = p := h; exact k
  | cons x xs ih => exact ⟨h.1, ih h.2⟩

theorem symbolRecords_chain (t : Bool) (R p c : Nat) (h : p < R) (hR : R ≤ 2 ^ 20) :
    PhaseChain R p (symbolRecords t R p c) ((p + c * toneFreq t) % R) := by
  induction c generalizing p with
  | zero =>
    show (p + 0 * toneFreq t) % R = p
    rw [Nat.zero_mul, Nat.add_zero, Nat.mod_eq_of_lt h]
  | succ c ih =>
    rw [symbolRecords_succ _ _ _ _ h]
    refine ⟨?_, ?_⟩
    · show (BitVec.ofNat 20 p).toNat = p
      rw [BitVec.toNat_ofNat, Nat.mod_eq_of_lt (by omega)]
    · rw [← phase_step]
      exact ih _ (Nat.mod_lt _ (by omega))

theorem synthAfter_chain (rate : BitVec 20) (y : Synth) (ts : List Bool) (h : SynthReady rate y) :
    PhaseChain rate.toNat y.phase.toNat (synthRecords rate y ts) (synthAfter rate y ts).phase.toNat := by
  induction ts generalizing y with
  | nil => rfl
  | cons t ts ih =>
    refine PhaseChain.append ?_ (ih _ (synthSymbol_ready t rate y h))
    rw [synthSymbol_phase t rate y h, synthSymbol_spec t rate y h]
    rcases Nat.eq_zero_or_pos rate.toNat with hR | hR
    · have hc : nextCount rate y = 0 := by
        unfold nextCount; rw [hR]; exact samplesDue_nonpos (by simpa using h.clock.2)
      rw [hc, hR]
      show (_ + 0 * _) % 0 = _
      simp
    · exact symbolRecords_chain _ _ _ _ (h.phase hR) rate.isLt.le

theorem nrziFrom_length (l : Bool) (xs : List Bool) : (nrziFrom l xs).length = xs.length := by
  induction xs generalizing l with
  | nil => rfl
  | cons x xs ih => simp [nrziFrom, ih]

/-- `SentLine` from the closed form of what was sent. -/
theorem sentLine_intro {r : Regs} {xs : List Bool} {s t : State} (h : SynthReady r.setup.srate r.synth)
    (h1 : t.regs.line.nrzi = levelAfter r.line.nrzi xs)
    (h2 : t.regs.synth = synthAfter r.setup.srate r.synth (nrziFrom r.line.nrzi xs))
    (h3 : t.offers = s.offers ++ synthRecords r.setup.srate r.synth (nrziFrom r.line.nrzi xs))
    (h4 : t.regs.setup = s.regs.setup) (h5 : t.regs.ctrl = s.regs.ctrl) (h6 : PortsKept s t) : SentLine r xs s t := by
  have hn := nrziFrom_length r.line.nrzi xs
  have hr : lineRecords r xs = synthRecords r.setup.srate r.synth (nrziFrom r.line.nrzi xs) :=
    (synthRecords_eq_modulate _ _ _ h).symm
  refine ⟨h1, by rw [h3, hr], by rw [h2, synthAfter_symcnt, hn], by rw [h2, hr, synthAfter_smpcnt _ _ _ h],
    by rw [h2, hr, synthAfter_clkacc _ _ _ h, hn], ?_, h4, h5, h6⟩
  rw [h2, hr]
  exact synthAfter_chain _ _ _ h

/-- The registers of an open frame are ready to send (R35, R36). -/
theorem Regs.Inv.ready {r : Regs} (h : r.Inv) (hf : r.asm.fstate ≠ .idle) : SynthReady r.setup.srate r.synth :=
  ⟨h.clock, (h.phase hf).1⟩

/-! ## The line bits of a command -/

/-- A command that raises an error sends nothing (R307). -/
theorem sentBits_of_error {i : Instr} {r : Regs} (h : errorOf i r ≠ none) : sentBits i r = [] := if_neg h

theorem sentBits_of_ok {i : Instr} {r : Regs} (h : errorOf i r = none) : sentBits i r = lineBitsOf i r := if_pos h

/-! ## The pieces of the frame commands -/

theorem repeatTimes_eq_foldl (f : State → State) (n : Nat) (s : State) :
    repeatTimes f n s = (List.replicate n ()).foldl (fun t _ => f t) s := by
  induction n generalizing s with
  | zero => rfl
  | succ n ih => simp [repeatTimes, ih, List.replicate_succ]

theorem repeat_dataByte (d : Byte) (n : Nat) (s : State) :
    repeatTimes (dataByte d) n s = sendData (List.replicate n d) s := by
  induction n generalizing s with
  | zero => rfl
  | succ n ih => simp [repeatTimes, ih, sendData, List.replicate_succ]

theorem repeat_lineByte (d : Byte) (n : Nat) (s : State) :
    repeatTimes (lineByte d) n s = sendLine (bitsOf (List.replicate n d)) s := by
  induction n generalizing s with
  | zero => rfl
  | succ n ih =>
    have hb : bitsOf (List.replicate (n + 1) d) = bitsLsb d ++ bitsOf (List.replicate n d) := by
      simp [bitsOf, List.replicate_succ]
    rw [repeatTimes, ih, hb, sendLine_append, lineByte_eq]

theorem bitsOf_append (a b : List Byte) : bitsOf (a ++ b) = bitsOf a ++ bitsOf b := by simp [bitsOf]

theorem sendLine_setup (xs : List Bool) (s : State) : (sendLine xs s).regs.setup = s.regs.setup := by
  rw [sendLine_eq]

/-- The preamble is its line bits (R180, R184). -/
theorem sendPreamble_eq (s : State) : sendPreamble s = sendLine (preambleBits s.regs.setup) s := by
  rw [sendPreamble, repeat_lineByte, repeat_lineByte, preambleBits, sendLine_append]

/-- Bytes sent through DataByte, in one record. -/
theorem sendData_eq (ds : List Byte) (s : State) (h : s.regs.line.ones.toNat ≤ 4) :
    sendData ds s =
      { s with
        regs.crc := crcBits s.regs.crc (bitsOf ds)
        regs.line := ⟨BitVec.ofNat 3 (runAfter s.regs.line.ones.toNat (bitsOf ds)),
          levelAfter s.regs.line.nrzi (stuffFrom s.regs.line.ones.toNat (bitsOf ds))⟩
        regs.synth := synthAfter s.regs.setup.srate s.regs.synth
          (nrziFrom s.regs.line.nrzi (stuffFrom s.regs.line.ones.toNat (bitsOf ds)))
        offers := s.offers ++ synthRecords s.regs.setup.srate s.regs.synth
          (nrziFrom s.regs.line.nrzi (stuffFrom s.regs.line.ones.toNat (bitsOf ds))) } := by
  rw [sendData_eq_bits, sendDataBits_eq _ _ h]

theorem ofNat3_toNat {n : Nat} (h : n ≤ 4) : (BitVec.ofNat 3 n).toNat = n := by
  rw [BitVec.toNat_ofNat, Nat.mod_eq_of_lt (by omega)]

/-- What sending data bytes leaves, as `SentLine` and the rest. -/
theorem sendData_sent (ds : List Byte) (s : State) (h : s.regs.line.ones.toNat ≤ 4)
    (hr : SynthReady s.regs.setup.srate s.regs.synth) :
    SentLine s.regs (stuffFrom s.regs.line.ones.toNat (bitsOf ds)) s (sendData ds s) := by
  rw [sendData_eq ds s h]
  exact sentLine_intro hr rfl rfl rfl rfl rfl ⟨rfl, rfl, rfl, rfl, rfl, rfl⟩

theorem sendData_asm (ds : List Byte) (a : FrameAsm) (s : State) :
    sendData ds { s with regs.asm := a } = { sendData ds s with regs.asm := a } := by
  rw [sendData_eq_bits, sendData_eq_bits]
  generalize bitsOf ds = bs
  induction bs generalizing s with
  | nil => rfl
  | cons b bs ih =>
    have h1 : ∀ t, sendDataBits (b :: bs) t = sendDataBits bs (dataBit b t) := fun _ => rfl
    have h2 : dataBit b { s with regs.asm := a } = { dataBit b s with regs.asm := a } := by
      cases b
      · simp [dataBit, stuffBit, lineBit_eq, setOnes]
      · simp only [dataBit, stuffBit, lineBit_eq, setOnes, if_true]
        split <;> rfl
    rw [h1, h1, h2, ih]

theorem clearHold_dataByte (d : Byte) (s : State) : clearHold (dataByte d s) = dataByte d (clearHold s) := by
  have h := fun a => sendData_asm [d] a s
  have e : ∀ t, sendData [d] t = dataByte d t := fun _ => rfl
  simp only [e] at h
  have hk : (dataByte d s).regs.asm = s.regs.asm := by
    have := congrArg (fun t : State => t.regs.asm) (h s.regs.asm)
    exact this
  simp only [clearHold, hk]
  exact (h _).symm

end Sys2Proof.Machine
end

