-- ==== Sys2Proof/Laws/Ops.lean ====
section
/-! SUPPORT. One lemma per shared operation that says what it can do: the phase check, the outcome of a command, the
held byte, the datapath part of each frame command, and the operations of the bus port. -/

namespace Sys2Proof.Machine

/-! ## The phase check and the dispatch -/

theorem requirePhase_pos {p : Phase} {w : Word} {body : State → State} {s : State} (h : s.regs.asm.fstate = p) :
    requirePhase p w body s = body s := if_pos h

theorem requirePhase_neg {p : Phase} {w : Word} {body : State → State} {s : State} (h : s.regs.asm.fstate ≠ p) :
    requirePhase p w body s = raiseError .sequence w s := if_neg h

/-- Running a decoded command is executing it. -/
theorem runCommand_eq_exec {i : Instr} (h : i.isCommand = true) (s : State) : runCommand i s = exec i s := by
  cases i <;> first | rfl | cases h

/-- A command always goes on (R106, R305). -/
theorem exec_command_next {i : Instr} (h : i.isCommand = true) (s : State) : ∃ t, exec i s = .next t := by
  cases i <;> first | exact ⟨_, rfl⟩ | cases h

/-- A write to CMD executes the command its word decodes to, and recomputes IRQ (R106, R315). -/
theorem exec_cmdWrite {w : Word} {i : Instr} (h : decodeWord w = .ok i) (s : State) :
    exec (.mmioWr 32 0x00 w) s = onNext updateIrq (exec i s) := by
  have hc := (decodeWord_ok h).2.1
  show onNext updateIrq (executeWord w s) = _
  rw [executeWord, h]
  exact congrArg _ (runCommand_eq_exec hc s)

/-- A write to CMD of a word that is no command raises ILLEGAL_COMMAND (R107, R108). -/
theorem exec_cmdWrite_illegal {w : Word} {e : DecodeError} (h : decodeWord w = .error e) (s : State) :
    exec (.mmioWr 32 0x00 w) s = .next (raiseError .illegalCommand w s) := by
  show onNext updateIrq (executeWord w s) = _
  rw [executeWord, h]
  rfl

/-- The error action leaves IRQ up to date. -/
@[simp] theorem updateIrq_raiseError (c : Cause) (info : Word) (s : State) :
    updateIrq (raiseError c info s) = raiseError c info s := rfl

/-- IRQ up to date stays as it is. -/
theorem updateIrq_of_level {s : State} (h : s.regs.irq = irqLevel s.regs.ctrl s.regs.events) : updateIrq s = s := by
  have : s.regs = { s.regs with irq := irqLevel s.regs.ctrl s.regs.events } := by rw [← h]
  unfold updateIrq
  rw [← this]

/-! ## Header bytes -/

theorem sendData_nil (s : State) : sendData [] s = s := rfl

theorem sendData_one (d : Byte) (s : State) : sendData [d] s = dataByte d s := rfl

/-- The held byte, if there is one, is sent and HOLD is cleared (R165). -/
theorem releaseHold_eq (s : State) (h : s.regs.asm.pend = false → s.regs.asm.hold = 0) :
    releaseHold s =
      sendData (if s.regs.asm.pend then [s.regs.asm.hold] else [])
        { s with regs.asm := { s.regs.asm with pend := false, hold := 0 } } := by
  unfold releaseHold
  cases hp : s.regs.asm.pend with
  | false =>
    have : s.regs.asm = { s.regs.asm with pend := false, hold := 0 } := by rw [← hp, ← h hp]
    simp only [if_false, sendData_nil, Bool.false_eq_true]
    rw [← this]
  | true =>
    simp only [if_true, sendData_one]
    rw [clearHold_dataByte]
    rfl

theorem sendData_keeps_asm (ds : List Byte) (s : State) : (sendData ds s).regs.asm = s.regs.asm := by
  have h := congrArg (fun t : State => t.regs.asm) (sendData_asm ds s.regs.asm s)
  exact h

/-- ADDR.CH's effect as one run of data bytes (R166). -/
theorem sendChar_eq (d : Byte) (s : State) (h : s.regs.asm.pend = false → s.regs.asm.hold = 0) :
    sendChar d s =
      sendData ((if s.regs.asm.pend then [s.regs.asm.hold] else []) ++ [encodeChar (upper d)])
        { s with regs.asm := { s.regs.asm with pend := false, hold := 0, chars := s.regs.asm.chars + 1 } } := by
  unfold sendChar
  rw [releaseHold_eq s h, ← sendData_one, ← sendData_append]
  simp only [sendData_keeps_asm]
  exact (sendData_asm _ _ { s with regs.asm := { s.regs.asm with pend := false, hold := 0 } }).symm

/-- ADDR.SSID's effect as one run of data bytes (R167). -/
theorem completeCallsign_eq (d : Byte) (s : State) (h : s.regs.asm.pend = false → s.regs.asm.hold = 0) :
    completeCallsign d s =
      sendData ((if s.regs.asm.pend then [s.regs.asm.hold] else []) ++
          List.replicate (6 - s.regs.asm.chars.toNat) Config.pad)
        { s with regs.asm := ⟨s.regs.asm.fstate, true, encodeChar d, 0, s.regs.asm.naddr + 1⟩ } := by
  unfold completeCallsign
  rw [releaseHold_eq s h, repeat_dataByte, ← sendData_append]
  simp only [sendData_keeps_asm]
  exact (sendData_asm _ _ { s with regs.asm := { s.regs.asm with pend := false, hold := 0 } }).symm

/-- FR.HDR's effect as one run of data bytes (R185). -/
theorem sendHeader_eq (s : State) :
    sendHeader s =
      sendData [endOfAddress s.regs.asm.hold, 0x03, 0xF0]
        { s with regs.asm := { s.regs.asm with pend := false, hold := 0, fstate := .info } } := by
  have h3 : ∀ (a b c : Byte) (t : State), sendData [a, b, c] t = dataByte c (dataByte b (dataByte a t)) :=
    fun _ _ _ _ => rfl
  unfold sendHeader
  rw [clearHold_dataByte, ← h3]
  have hk := fun ds t => sendData_keeps_asm ds t
  have hs := fun ds a => sendData_asm ds a (clearHold s)
  have e : ∀ ds, setPhase .info (sendData ds (clearHold s)) =
      sendData ds { s with regs.asm := { s.regs.asm with pend := false, hold := 0, fstate := .info } } := by
    intro ds
    simp only [setPhase, hk]
    exact (hs ds _).symm
  exact e _

/-- FR.BEGIN's datapath part: the preamble after the per-frame initialization (R184). -/
theorem sendPreamble_frameInit (s : State) :
    sendPreamble (frameInit s) = sendLine (preambleBits s.regs.setup) (frameInit s) := sendPreamble_eq _

/-- FR.END's line part: the FCS bits stuffed, then the closing flag unstuffed (R182, R187). -/
theorem sendTrailer_eq (f : BitVec 16) (s : State) (h : s.regs.line.ones.toNat ≤ 4) :
    sendTrailer f s =
      setOnes (BitVec.ofNat 3 (runAfter s.regs.line.ones.toNat (bitsOf [fcsLow f, fcsHigh f])))
        (sendLine (stuffFrom s.regs.line.ones.toNat (bitsOf [fcsLow f, fcsHigh f]) ++ bitsLsb Config.flag) s) := by
  have hb : bitsOf [fcsLow f, fcsHigh f] = bitsLsb (fcsLow f) ++ bitsLsb (fcsHigh f) := by simp [bitsOf]
  unfold sendTrailer
  rw [fcsByte_eq, fcsByte_eq, ← sendPayload_append, ← hb, sendPayload_eq _ _ h, lineByte_eq, ← setOnes_sendLine,
    ← sendLine_append]

/-! ## The bus port -/

theorem busy_false_iff {s : State} : s.busy = false ↔ s.after = none := by
  unfold State.busy; cases s.after <;> simp

theorem busy_true_iff {s : State} : s.busy = true ↔ ∃ r, s.after = some r := by
  unfold State.busy; cases s.after <;> simp

theorem onNext_next {f : State → State} {r : Result} {t : State} : onNext f r = .next t ↔ ∃ u, r = .next u ∧ t = f u := by
  cases r <;> simp [onNext, eq_comm]

/-- A run of one step more, when that step goes on. -/
theorem run_next {s u : State} (h : step s = .next u) (n : Nat) : Sys2Proof.core.run (n + 1) s = Sys2Proof.core.run n u := by
  have hs : Sys2Proof.core.step s = .next u := h
  simp only [Host.Core.run, hs]

/-- An accepted access is executed and settled. -/
theorem serve_ok {a : Access} {i : Instr} {s : State} (h : decodeAccess a = .ok i) :
    serve a s = onNext (settle s) (exec i s) := by
  unfold serve; rw [h]

theorem settle_empty {s t : State} (h : t.offers = []) : settle s t = completeAccess t := by
  unfold settle; simp [h]

theorem settle_nonempty {s t : State} (h : t.offers ≠ []) :
    settle s t = { t with regs := s.regs, after := some t.regs } := by
  unfold settle; simp [h]

/-- Everything a step can do (R81, R89, R250, R341): nothing, stall an access, let the sink take a record, be reset, or
execute the access whose turn it is. -/
theorem step_cases {s t : State} (h : step s = .next t) :
    (s.stimuli = [] ∧ t = s) ∨
    (∃ a rest, s.busy = true ∧ s.stimuli = .access a :: rest ∧
      t = { s with stimuli := rest, waiting := s.waiting ++ [a] }) ∨
    (∃ rest, s.stimuli = .sinkReady :: rest ∧ t = sinkAccept { s with stimuli := rest }) ∨
    (∃ rest, s.stimuli = .reset :: rest ∧ s.waiting = [] ∧ t = resetBlock { s with stimuli := rest }) ∨
    (∃ a rest, s.busy = false ∧ s.waiting = [] ∧ s.stimuli = .access a :: rest ∧
      serve a { s with stimuli := rest } = .next t) ∨
    (∃ a as, s.busy = false ∧ s.waiting = a :: as ∧ s.stimuli.head? ≠ some .reset ∧
      serve a { s with waiting := as } = .next t) := by
  have hreset : ∀ rest, assertReset { s with stimuli := rest } = .next t →
      s.waiting = [] ∧ t = resetBlock { s with stimuli := rest } := by
    intro rest k
    unfold assertReset at k
    split at k
    · rename_i he
      refine ⟨by simpa using he, ?_⟩
      injection k with k; exact k.symm
    · cases k
  unfold step at h
  cases hb : s.busy with
  | true =>
    rw [hb, if_pos rfl] at h
    unfold stepBusy at h
    cases hs : s.stimuli with
    | nil => rw [hs] at h; injection h with h; exact .inl ⟨rfl, h.symm⟩
    | cons x rest =>
      rw [hs] at h
      cases x with
      | access a => injection h with h; exact .inr (.inl ⟨a, rest, rfl, rfl, h.symm⟩)
      | sinkReady => injection h with h; exact .inr (.inr (.inl ⟨rest, rfl, h.symm⟩))
      | reset =>
        obtain ⟨h1, h2⟩ := hreset rest h
        exact .inr (.inr (.inr (.inl ⟨rest, rfl, h1, h2⟩)))
  | false =>
    rw [hb, if_neg (by decide)] at h
    cases hw : s.waiting with
    | nil =>
      rw [hw] at h
      simp only [stepFree] at h
      cases hs : s.stimuli with
      | nil => rw [hs] at h; injection h with h; exact .inl ⟨rfl, h.symm⟩
      | cons x rest =>
        rw [hs] at h
        cases x with
        | access a => exact .inr (.inr (.inr (.inr (.inl ⟨a, rest, rfl, rfl, rfl, hw ▸ h⟩))))
        | sinkReady => injection h with h; exact .inr (.inr (.inl ⟨rest, rfl, by rw [← h, ← hw]⟩))
        | reset =>
          obtain ⟨h1, h2⟩ := hreset rest h
          exact .inr (.inr (.inr (.inl ⟨rest, rfl, rfl, h2⟩)))
    | cons a as =>
      rw [hw] at h
      simp only [stepStalled] at h
      cases hs : s.stimuli with
      | nil => rw [hs] at h; exact .inr (.inr (.inr (.inr (.inr ⟨a, as, rfl, rfl, by simp, h⟩))))
      | cons x rest =>
        rw [hs] at h
        cases x with
        | access b => exact .inr (.inr (.inr (.inr (.inr ⟨a, as, rfl, rfl, by simp, h⟩))))
        | sinkReady => exact .inr (.inr (.inr (.inr (.inr ⟨a, as, rfl, rfl, by simp, h⟩))))
        | reset => exact absurd (hreset rest h).1 (by rw [hw]; simp)

end Sys2Proof.Machine
end

