-- ==== Sys2Proof/Laws/Invariant.lean ====
section
/-! SUPPORT. The pieces of the invariant: what the error action, the datapath and the ports' operations keep. -/

namespace Sys2Proof.Machine

/-- A closed frame assembler meets its invariant (R44 (a)). -/
theorem FrameAsm.closed_inv : FrameAsm.closed.Inv := by constructor <;> decide

/-- Recording a named error keeps the event registers' invariant (R305). -/
theorem Events.record_inv {e : Events} (h : e.Inv) (c : Cause) (hc : c ≠ .none) (n : BitVec 4) (w : Word) : (e.record c n w).Inv := by
  unfold Events.record
  split
  · exact h
  · exact ⟨fun k => (nomatch k), fun _ => hc⟩

/-- The error action keeps the registers' invariant (R305, R306). -/
theorem raiseError_inv {s : State} (h : s.regs.Inv) (c : Cause) (hc : c ≠ .none) (w : Word) :
    (raiseError c w s).regs.Inv := by
  have hr : (raiseError c w s).regs = _ := raiseError_regs s c w
  by_cases hf : s.regs.asm.fstate = .idle
  · rw [hr]; simp only [hf, if_true]
    exact ⟨h.ones_le, h.clock, h.phase, h.exact_, h.asm, Events.record_inv h.events c hc _ _, rfl⟩
  · rw [hr]; simp only [hf, if_false]
    exact ⟨h.ones_le, h.clock, fun k => absurd rfl k, fun k => absurd rfl k, FrameAsm.closed_inv, Events.record_inv h.events c hc _ _, rfl⟩

/-- Symbols keep the clock equation (R39). -/
theorem synthAfter_exact (rate : BitVec 20) (y : Synth) (ts : List Bool) (h : SynthReady rate y)
    (hx : y.clkacc = y.symcnt * rate.setWidth 32 - y.smpcnt * 1200) :
    (synthAfter rate y ts).clkacc =
      (synthAfter rate y ts).symcnt * rate.setWidth 32 - (synthAfter rate y ts).smpcnt * 1200 := by
  induction ts generalizing y with
  | nil => exact hx
  | cons t ts ih =>
    refine ih _ (synthSymbol_ready t rate y h) ?_
    rw [synthSymbol_spec t rate y h]
    simp only [synthAdvance, symbolStart, hx]
    ring

/-- At R = 0 symbols leave the phase word at 0 (R247 (a)). -/
theorem synthAfter_zero (rate : BitVec 20) (y : Synth) (ts : List Bool) (h : SynthReady rate y) (h0 : rate = 0)
    (hp : y.phase = 0) : (synthAfter rate y ts).phase = 0 := by
  induction ts generalizing y with
  | nil => exact hp
  | cons t ts ih =>
    refine ih _ (synthSymbol_ready t rate y h) ?_
    apply BitVec.eq_of_toNat_eq
    rw [synthSymbol_phase t rate y h]
    have : nextCount rate y = 0 := by
      unfold nextCount; rw [h0]; exact samplesDue_nonpos (by simpa using h.clock.2)
    rw [this, hp, h0]; simp

/-- Sending symbols from registers that are ready, whatever else changes soundly, keeps the invariant. -/
theorem sent_inv {r r' : Regs} (hc : SynthReady r.setup.srate r.synth)
    (hz : r.setup.srate = 0 → r.synth.phase = 0)
    (hx : r.synth.clkacc = r.synth.symcnt * r.setup.srate.setWidth 32 - r.synth.smpcnt * 1200)
    (ts : List Bool) (h1 : r'.synth = synthAfter r.setup.srate r.synth ts) (h2 : r'.setup = r.setup)
    (ho : r'.line.ones.toNat ≤ 4) (ha : r'.asm.Inv) (he : r'.events.Inv)
    (hi : r'.irq = irqLevel r'.ctrl r'.events) : r'.Inv := by
  have hr := synthAfter_ready _ _ ts hc
  refine ⟨ho, ?_, ?_, ?_, ha, he, hi⟩
  · rw [h1]; exact hr.clock
  · intro _; rw [h1, h2]; exact ⟨hr.phase, fun k => synthAfter_zero _ _ ts hc k (hz k)⟩
  · intro _; rw [h1, h2]; exact synthAfter_exact _ _ ts hc hx

/-- Sending data bytes in an open frame keeps the registers' invariant (R181). -/
theorem sendData_inv (ds : List Byte) (s : State) (a : FrameAsm) (h : s.regs.Inv) (hf : s.regs.asm.fstate ≠ .idle)
    (ha : a.Inv) : (sendData ds { s with regs.asm := a }).regs.Inv := by
  have ht := sendData_eq ds { s with regs.asm := a } h.ones_le
  rw [ht]
  refine sent_inv (h.ready hf) (h.phase hf).2 (h.exact_ hf) _ rfl rfl ?_ ha h.events h.irq
  show (BitVec.ofNat 3 _).toNat ≤ 4
  have := runAfter_le s.regs.line.ones.toNat (bitsOf ds) h.ones_le
  rw [ofNat3_toNat this]; exact this

/-- A configuration write keeps the registers' invariant (R57). -/
theorem writeSetup_inv {s : State} (h : s.regs.Inv) (n : RegName) (v : Word) : (writeSetup n v s).regs.Inv := by
  unfold writeSetup
  split
  · rename_i hf; exact ⟨h.ones_le, h.clock, fun k => absurd hf k, fun k => absurd hf k, h.asm, h.events, h.irq⟩
  · exact raiseError_inv h _ (by simp) _

/-- Recomputing IRQ keeps the registers' invariant (R315). -/
theorem updateIrq_inv {s : State} (h : s.regs.Inv) : (updateIrq s).regs.Inv :=
  ⟨h.ones_le, h.clock, h.phase, h.exact_, h.asm, h.events, rfl⟩

/-- Sending data bytes leaves the ports alone. -/
theorem sendData_ports (ds : List Byte) (s : State) : PortsKept s (sendData ds s) := by
  rw [sendData_eq_bits]
  generalize bitsOf ds = bs
  induction bs generalizing s with
  | nil => exact PortsKept.refl s
  | cons b bs ih =>
    refine PortsKept.trans ?_ (ih (dataBit b s))
    cases b
    · simp [dataBit, stuffBit, lineBit_eq, setOnes]; exact ⟨rfl, rfl, rfl, rfl, rfl, rfl⟩
    · simp only [dataBit, stuffBit, lineBit_eq, setOnes, if_true]
      split <;> exact ⟨rfl, rfl, rfl, rfl, rfl, rfl⟩

/-- What sending data bytes in an open frame leaves, with the frame assembler set to `a` (R181). -/
theorem sendData_in_frame (ds : List Byte) (s : State) (a : FrameAsm) (h : s.regs.Inv)
    (hf : s.regs.asm.fstate ≠ .idle) :
    let t := sendData ds { s with regs.asm := a }
    SentLine s.regs (stuffFrom s.regs.line.ones.toNat (bitsOf ds)) s t ∧
      t.regs.line.ones.toNat = runAfter s.regs.line.ones.toNat (bitsOf ds) ∧
      t.regs.crc = crcBits s.regs.crc (bitsOf ds) ∧ t.regs.asm = a ∧ t.regs.events = s.regs.events ∧
      t.regs.result = s.regs.result ∧ t.regs.irq = s.regs.irq := by
  intro t
  have ht : t = _ := sendData_eq ds { s with regs.asm := a } h.ones_le
  rw [ht]
  refine ⟨sentLine_intro (h.ready hf) rfl rfl rfl rfl rfl ⟨rfl, rfl, rfl, rfl, rfl, rfl⟩, ?_, rfl, rfl, rfl, rfl, rfl⟩
  exact ofNat3_toNat (runAfter_le _ _ h.ones_le)

end Sys2Proof.Machine
end

