-- ==== Sys2Proof/Laws/PerInstr.lean ====
section
/-! SUPPORT. The family CommandRow, one lemma per constructor: the word of every command is covered by the row of R105
that bears its mnemonic. -/

namespace Sys2Proof.Laws

/-- Masking off the low `k` bits compares the high ones. -/
theorem and_mask_eq {w p : Word} (k : Nat) {mask : Word} (hm : mask = BitVec.allOnes 32 <<< k)
    (h : w >>> k = p >>> k) (hp : p &&& mask = p) : w &&& mask = p := by
  rw [← hp, hm]
  apply BitVec.eq_of_getLsbD_eq
  intro i hi
  have hb := congrArg (fun x : Word => x.getLsbD (i - k)) h
  simp only [BitVec.getLsbD_ushiftRight] at hb
  simp only [BitVec.getLsbD_and, BitVec.getLsbD_shiftLeft]
  by_cases hk : i < k
  · simp [hk]
  · rw [show k + (i - k) = i by omega] at hb
    rw [hb]

/-- A word of opcode `o` matches the row whose mask keeps the opcode alone. -/
theorem commandWord_covers (o : BitVec 8) (imm : BitVec 24) :
    commandWord o imm &&& 0xFF000000 = commandWord o 0 := by
  apply and_mask_eq 24 (by decide)
  · apply BitVec.eq_of_toNat_eq
    simp only [BitVec.toNat_ushiftRight, Nat.shiftRight_eq_div_pow, commandWord_toNat]
    have := imm.isLt
    show _ = (o.toNat * 2 ^ 24 + 0) / 2 ^ 24
    omega
  · revert o; decide

namespace CommandRow

/-- A command's word is covered by a row of R105 with the command's mnemonic. -/
def Statement (i : Instr) : Prop :=
  i.isCommand = true → ∃ row ∈ opcodeTable, row.mnemonic = i.mnemonic ∧ row.covers (wordOf i) = true

theorem nop (hint : BitVec 24) : Statement (.nop hint) := fun _ =>
  ⟨_, List.mem_of_getElem? (i := 0) rfl, rfl, beq_iff_eq.mpr (commandWord_covers 0x00 hint)⟩

theorem crcInit : Statement .crcInit := fun _ => ⟨_, List.mem_of_getElem? (i := 1) rfl, rfl, by decide⟩

theorem crcBit (b : Bool) : Statement (.crcBit b) := fun _ =>
  ⟨_, List.mem_of_getElem? (i := 2) rfl, rfl, by revert b; decide⟩

theorem crcByte (d : Byte) : Statement (.crcByte d) := fun _ =>
  ⟨_, List.mem_of_getElem? (i := 3) rfl, rfl, by revert d; decide⟩

theorem crcDigest : Statement .crcDigest := fun _ => ⟨_, List.mem_of_getElem? (i := 4) rfl, rfl, by decide⟩

theorem crcCheck : Statement .crcCheck := fun _ => ⟨_, List.mem_of_getElem? (i := 5) rfl, rfl, by decide⟩

theorem addrCh (d : Byte) : Statement (.addrCh d) := fun _ =>
  ⟨_, List.mem_of_getElem? (i := 6) rfl, rfl, by revert d; decide⟩

theorem addrSsid (d : Byte) : Statement (.addrSsid d) := fun _ =>
  ⟨_, List.mem_of_getElem? (i := 7) rfl, rfl, by revert d; decide⟩

theorem frBegin : Statement .frBegin := fun _ => ⟨_, List.mem_of_getElem? (i := 8) rfl, rfl, by decide⟩

theorem frHdr : Statement .frHdr := fun _ => ⟨_, List.mem_of_getElem? (i := 9) rfl, rfl, by decide⟩

theorem frInfo (d : Byte) : Statement (.frInfo d) := fun _ =>
  ⟨_, List.mem_of_getElem? (i := 10) rfl, rfl, by revert d; decide⟩

theorem frEnd : Statement .frEnd := fun _ => ⟨_, List.mem_of_getElem? (i := 11) rfl, rfl, by decide⟩

theorem frAbort : Statement .frAbort := fun _ => ⟨_, List.mem_of_getElem? (i := 12) rfl, rfl, by decide⟩

theorem txSilence (n : BitVec 24) : Statement (.txSilence n) := fun _ =>
  ⟨_, List.mem_of_getElem? (i := 13) rfl, rfl, beq_iff_eq.mpr (commandWord_covers 0x40 n)⟩

theorem mmioRd (width off : Nat) : Statement (.mmioRd width off) := fun h => nomatch h

theorem mmioWr (width off : Nat) (v : Word) : Statement (.mmioWr width off v) := fun h => nomatch h

end CommandRow

end Sys2Proof.Laws
end

