-- ==== Sys2Proof/Tests/Slice0.lean ====
section
/-! SUPPORT. The model's own tests.  Expected values are those of spec/95_test_vectors.md (the section is named at each) or
worked out by hand from the rule named; and for every statement with hypotheses, a concrete state that meets them. -/

namespace Sys2Proof.Tests

open Sys2Proof.Machine

/-! ## Helpers -/

/-- The reset state with another frame assembler. -/
def withAsm (a : FrameAsm) : State := { State.reset with regs.asm := a }

/-- The same at R = 1200, where every symbol gives exactly one record (R244). -/
def slow (a : FrameAsm) : State := { State.reset with regs.asm := a, regs.setup.srate := 1200 }

/-- A frame just opened; `k` characters and `n` addresses on. -/
def openAsm (k : BitVec 3) (n : BitVec 4) : FrameAsm := ⟨.address, false, 0, k, n⟩

/-- `n` addresses complete, the last SSID character '0'. -/
def heldAsm (n : BitVec 4) : FrameAsm := ⟨.address, true, 0x60, 0, n⟩

/-- The header sent, two addresses. -/
def infoAsm : FrameAsm := ⟨.info, false, 0, 0, 2⟩

/-- The reset state with another CRC value. -/
def withCrc (c : BitVec 16) : State := { State.reset with regs.crc := c }

/-- TX.SILENCE 2 in progress, with what the outside does next. -/
def busyState (xs : List Stimulus) : State :=
  { State.reset with after := some Regs.reset, offers := [silenceSample, silenceSample], stimuli := xs }

/-- A word the host reads from the next state. -/
def readNext (n : RegName) (r : Result) : Option Word := (nextState r).map fun t => readReg n t.regs

/-- The symbols of the records in the next state. -/
def symsNext (r : Result) : Option (List Bool) := (nextState r).map fun t => t.offers.map Sample.sym

/-! ## WellFormed: one ill-formed term for each check (R84), and the edge of what is accepted -/

theorem test_wf_width8_refused : (Instr.mmioRd 8 0x04).wellFormed = false := by decide
theorem test_wf_width16_refused : (Instr.mmioWr 16 0x04 0).wellFormed = false := by decide
theorem test_wf_misaligned_refused : (Instr.mmioRd 32 0x06).wellFormed = false := by decide
theorem test_wf_misaligned_write_refused : (Instr.mmioWr 32 0x01 0).wellFormed = false := by decide
theorem test_wf_above_window_refused : (Instr.mmioRd 32 0x40).wellFormed = false := by decide
theorem test_wf_above_window_write_refused : (Instr.mmioWr 32 0x40 0).wellFormed = false := by decide
theorem test_wf_last_register_accepted : (Instr.mmioRd 32 0x3C).wellFormed = true := by decide

/-! ## Decoding: words written out from the patterns of R105 -/

theorem test_decode_nop : decodeWord 0b00000000_00010010_00110100_01010110#32 = .ok (.nop 0x123456) := by decide
theorem test_decode_crcInit : decodeWord 0b00010000_00000000_00000000_00000000#32 = .ok .crcInit := by decide
theorem test_decode_crcBit : decodeWord 0b00010001_00000000_00000000_00000001#32 = .ok (.crcBit true) := by decide
theorem test_decode_crcByte : decodeWord 0b00010010_00000000_00000000_10100101#32 = .ok (.crcByte 0xA5) := by decide
theorem test_decode_crcDigest : decodeWord 0b00010011_00000000_00000000_00000000#32 = .ok .crcDigest := by decide
theorem test_decode_crcCheck : decodeWord 0b00010100_00000000_00000000_00000000#32 = .ok .crcCheck := by decide
theorem test_decode_addrCh : decodeWord 0b00100000_00000000_00000000_01000001#32 = .ok (.addrCh 0x41) := by decide
theorem test_decode_addrSsid : decodeWord 0b00100001_00000000_00000000_00110111#32 = .ok (.addrSsid 0x37) := by decide
theorem test_decode_frBegin : decodeWord 0b00110000_00000000_00000000_00000000#32 = .ok .frBegin := by decide
theorem test_decode_frHdr : decodeWord 0b00110001_00000000_00000000_00000000#32 = .ok .frHdr := by decide
theorem test_decode_frInfo : decodeWord 0b00110010_00000000_00000000_01111110#32 = .ok (.frInfo 0x7E) := by decide
theorem test_decode_frEnd : decodeWord 0b00110011_00000000_00000000_00000000#32 = .ok .frEnd := by decide
theorem test_decode_frAbort : decodeWord 0b00110100_00000000_00000000_00000000#32 = .ok .frAbort := by decide
theorem test_decode_txSilence : decodeWord 0b01000000_00000001_00000010_00000011#32 = .ok (.txSilence 0x010203) := by
  decide
theorem test_decode_mmioRd : decode (.bus (.read 32 0x14)) = .ok (.mmioRd 32 0x14) := by decide
theorem test_decode_mmioWr : decode (.bus (.write 32 0x08 3)) = .ok (.mmioWr 32 0x08 3) := by decide
theorem test_decode_reserved_opcode : decodeWord 0x15000000 = .error .reservedOpcode := by decide
theorem test_decode_reserved_bit : decodeWord 0x11000002 = .error .reservedOperandBits := by decide
theorem test_decode_narrow_access : decode (.bus (.read 16 0x04)) = .error .busError := by decide
theorem test_decode_table_word : decodeTableWord 32 0x200000FF = some (.addrCh 0xFF) := by decide

/-! ## Checksum Engine (95, 2.1) -/

theorem test_crcInit : readNext .crc (exec .crcInit (withCrc 0x1234)) = some 0xFFFF := by decide
theorem test_crcInit_in_frame : readNext .event (exec .crcInit (withAsm (openAsm 0 0))) = some 0x41 := by decide
theorem test_crcBit_0 : readNext .crc (exec (.crcBit false) (withCrc 0xFFFF)) = some 0xFBF7 := by decide
theorem test_crcBit_1 : readNext .crc (exec (.crcBit true) (withCrc 0xFFFF)) = some 0x7FFF := by decide
theorem test_crcByte_41 : readNext .crc (exec (.crcByte 0x41) (withCrc 0xFFFF)) = some 0x5C0A := by decide
theorem test_crcByte_80 : readNext .crc (exec (.crcByte 0x80) (withCrc 0xFFFF)) = some 0x8B8F := by decide
theorem test_crcDigest : readNext .result (exec .crcDigest (withCrc 0x6F91)) = some 0x906E := by decide
theorem test_crcDigest_keeps_crc : readNext .crc (exec .crcDigest (withCrc 0x6F91)) = some 0x6F91 := by decide
theorem test_crcCheck_fails : readNext .event (exec .crcCheck (withCrc 0xE131)) = some 0x21 := by decide
theorem test_crcCheck_passes : readNext .event (exec .crcCheck (withCrc 0xF0B8)) = some 0 := by decide

/-! ## Address Codec (95, 2.2) -/

theorem test_addrCh_status : readNext .status (exec (.addrCh 0x6E) (slow (openAsm 0 0))) = some 0xC09 := by decide
theorem test_addrCh_seventh : readNext .event (exec (.addrCh 0x58) (slow (openAsm 6 1))) = some 0x111 := by decide
theorem test_addrSsid_empty_base : readNext .status (exec (.addrSsid 0x30) (slow (openAsm 0 0))) = some 0x445 := by decide
theorem test_addrSsid_eleventh : readNext .event (exec (.addrSsid 0x30) (slow (heldAsm 10))) = some 0xA51 := by decide

/-! ## Frame Builder (95, 2.3 and P4; symbols worked out from R212, R215 at one record a symbol) -/

set_option maxRecDepth 20000 in
/-- R = 8000, one preamble byte 0xFF, no flag (95, 2.5). -/
theorem test_frBegin_counts :
    (nextState (exec .frBegin { State.reset with regs.setup := ⟨8000, 1, 0, 0xFF⟩ })).map
      (fun t => (readReg .symcnt t.regs, readReg .smpcnt t.regs, readReg .phase t.regs, readReg .clkacc t.regs)) =
      some (8, 54, 800, 0xFFFFFCE0) := by decide
/-- The symbols of the bytes 0x55 and 0x7E from NRZI = 1 (R220). -/
theorem test_frBegin_symbols :
    symsNext (exec .frBegin { State.reset with regs.setup := ⟨1200, 1, 1, 0x55⟩ }) =
      some [true, false, false, true, true, false, false, true,
        false, false, false, false, false, false, false, true] := by decide
/-- The bytes 61 03 F0 after HOLD = 0x60 (R185's example). -/
theorem test_frHdr_symbols :
    symsNext (exec .frHdr (slow (heldAsm 2))) =
      some [true, false, true, false, true, true, true, false,
        false, false, true, false, true, false, true, false,
        true, false, true, false, false, false, false, false] := by decide
theorem test_frHdr_no_address : readNext .event (exec .frHdr (slow (openAsm 0 0))) = some 0x51 := by decide
/-- Four 1 bits before the byte 0xFF: a 0 is inserted after its first and its sixth bit (P4). -/
theorem test_frInfo_stuffed :
    symsNext (exec (.frInfo 0xFF) { slow infoAsm with regs.line := ⟨4, true⟩ }) =
      some [true, false, false, false, false, false, false, true, true, true] := by decide
theorem test_frInfo_in_idle : readNext .errinfo (exec (.frInfo 0x41) State.reset) = some 0x32000041 := by decide
/-- The empty information field: FCS A3 A2, one bit stuffed, then the flag. -/
theorem test_frEnd_result :
    (nextState (exec .frEnd { slow infoAsm with regs.line := ⟨4, true⟩, regs.crc := 0x5D5C })).map
      (fun t => (readReg .result t.regs, readReg .crc t.regs, t.offers.length)) = some (0xA2A3, 0x5D5C, 25) := by decide
theorem test_frEnd_event : readNext .event (exec .frEnd (slow infoAsm)) = some 2 := by decide
theorem test_frAbort : readNext .status (exec .frAbort (withAsm infoAsm)) = some 0x400 := by decide
theorem test_frAbort_no_event : readNext .event (exec .frAbort (withAsm infoAsm)) = some 0 := by decide

/-! ## Tone Synthesizer (95, 2.5) -/

theorem test_txSilence :
    nextState (exec (.txSilence 3) State.reset) =
      some { State.reset with offers := [silenceSample, silenceSample, silenceSample] } := by decide
theorem test_txSilence_in_frame :
    readNext .errinfo (exec (.txSilence 1) (withAsm (openAsm 0 0))) = some 0x40000001 := by decide

/-! ## Host access (95, 2.6) -/

theorem test_nop_hint : nextState (exec (.nop 0xABCDEF) State.reset) = some State.reset := by decide
theorem test_mmioRd_status :
    (nextState (exec (.mmioRd 32 0x04) State.reset)).map State.reads = some [0x400] := by decide
theorem test_mmioWr_srate : readNext .srate (exec (.mmioWr 32 0x14 0x01234567) State.reset) = some 0x34567 := by decide
theorem test_mmioWr_srate_refused :
    (nextState (exec (.mmioWr 32 0x14 44100) (withAsm (heldAsm 2)))).map
      (fun t => (readReg .event t.regs, readReg .errinfo t.regs, readReg .srate t.regs)) =
      some (0x241, 0xFF000014, 48000) := by decide
theorem test_mmioRd_misaligned_stops : nextState (exec (.mmioRd 32 0x06) State.reset) = none := by decide

/-- The very next step after `withFetchWord` runs the command (CRC.BYTE 0x41). -/
theorem test_step_withFetchWord :
    readNext .crc (step (State.reset.withFetchWord 32 0x12000041)) = some 0x5C0A := by decide
/-- A command with records is in progress until the sink takes the last of them. -/
theorem test_step_last_record :
    nextState (step { busyState [.sinkReady] with offers := [silenceSample] }) =
      some { State.reset with accepted := [silenceSample], irqLog := [false] } := by decide

/-! ## Assembler (R110, R111) -/

theorem test_parse_call :
    parseLine "CALL \"APRS\", '0' ; destination".toList = some (.call ⟨[0x41, 0x50, 0x52, 0x53], 0x30⟩) := by decide
/-- R111: the path list has a callsign after each comma. -/
theorem test_parse_path_list :
    parseLine "UIFRAME \"A\", \"B\", [\"C\"], \"\"".toList =
        some (.uiFrame ⟨[0x41], 0x30⟩ ⟨[0x42], 0x30⟩ [⟨[0x43], 0x30⟩] []) ∧
      parseLine "UIFRAME \"A\", \"B\", [], \"\"".toList = some (.uiFrame ⟨[0x41], 0x30⟩ ⟨[0x42], 0x30⟩ [] []) ∧
      parseLine "UIFRAME \"A\", \"B\", [\"C\",], \"\"".toList = none := by decide
theorem test_parse_out_of_range_refused : parseLine "CRC.BYTE 256".toList = none := by decide
/-- R110: an N24 operand is a number, and only a B8 operand may be a character literal. -/
theorem test_parse_count_is_number :
    parseLine "TX.SILENCE 'A'".toList = none ∧ parseLine "fr.info 'A'".toList = some (.command (.frInfo 0x41)) := by decide

/-! ## Invariants of the helpers -/

theorem reset_ones : Regs.reset.line.ones.toNat ≤ 4 := by decide

theorem reset_clock : ClockBounded Regs.reset.synth := ⟨by decide, by decide⟩

theorem reset_phase : Regs.reset.synth.phase.toNat < Regs.reset.setup.srate.toNat := by decide

theorem reset_exact :
    Regs.reset.synth.clkacc =
      Regs.reset.synth.symcnt * Regs.reset.setup.srate.setWidth 32 - Regs.reset.synth.smpcnt * 1200 := by decide

theorem withAsm_inv {a : FrameAsm} (h : a.Inv) : (withAsm a).regs.Inv :=
  ⟨reset_ones, reset_clock, fun _ => ⟨fun _ => reset_phase, fun _ => rfl⟩, fun _ => reset_exact, h,
    ⟨fun _ => ⟨rfl, rfl, rfl⟩, fun k => nomatch k⟩, rfl⟩

theorem openAsm_inv : (openAsm 0 0).Inv ∧ (openAsm 1 0).Inv ∧ (openAsm 6 0).Inv ∧ (openAsm 6 9).Inv := by
  refine ⟨?_, ?_, ?_, ?_⟩ <;> constructor <;> decide

theorem heldAsm_inv : (heldAsm 1).Inv ∧ (heldAsm 2).Inv ∧ (heldAsm 10).Inv := by
  refine ⟨?_, ?_, ?_⟩ <;> constructor <;> decide

theorem infoAsm_inv : infoAsm.Inv := by constructor <;> decide

theorem reset_inv : State.reset.regs.Inv := withAsm_inv FrameAsm.closed_inv

theorem busyState_inv (xs : List Stimulus) : (busyState xs).Inv :=
  ⟨reset_inv, fun _ h => Option.some.inj h ▸ reset_inv, rfl⟩

/-! ## Witnesses: what the hypotheses of the statements ask is met -/

theorem witness_EncodeThenDecodeGivesInstruction :
    (Instr.txSilence 0xFFFFFF).wellFormed = true ∧ (Instr.mmioWr 32 0x3C 7).wellFormed = true := by decide

theorem witness_DecodeThenEncodeGivesWord :
    decode (.word 0x00ABCDEF) = .ok (.nop 0xABCDEF) ∧ decode (.bus (.read 32 0x3C)) = .ok (.mmioRd 32 0x3C) := by decide

theorem witness_WordIsCommandOfItsRow :
    0x11000001#32 &&& 0xFFFFFFFE = 0x11000000 ∧
      decodeWord 0x11000001 = .ok (.crcBit true) := by decide

/-- A reserved opcode at each end of its ranges, and each form's first reserved operand. -/
theorem witness_ReservedWordsRaiseIllegalCommand :
    (0x01000000#32).toNat / 2 ^ 24 ∉ listedOpcodes ∧ (0xFF000000#32).toNat / 2 ^ 24 ∉ listedOpcodes ∧
      (0x34000001#32).toNat / 2 ^ 24 ∈ [0x10, 0x13, 0x14, 0x30, 0x31, 0x33, 0x34] ∧
      (0x34000001#32).toNat % 2 ^ 24 ≠ 0 ∧
      (0x11000002#32).toNat / 2 ^ 24 = 0x11 ∧ 2 ≤ (0x11000002#32).toNat % 2 ^ 24 ∧
      (0x12000100#32).toNat / 2 ^ 24 ∈ [0x12, 0x20, 0x21, 0x32] ∧ 256 ≤ (0x12000100#32).toNat % 2 ^ 24 := by decide

/-- For CrcInitSetsPreset, CrcByteIsEightCrcBits, TxSilenceEmitsSilence, FrBeginOpensFrame: both phases. -/
theorem witness_phase_idle_and_open :
    State.reset.regs.asm.fstate = .idle ∧ (withAsm (openAsm 0 0)).regs.asm.fstate ≠ .idle := by decide

theorem witness_CrcBitFeedsOneBit :
    State.reset.regs.asm.fstate = .idle ∧ State.reset.regs.crc.getLsbD 0 = true ∧
      State.reset.regs.crc.getLsbD 0 ≠ false ∧ (withAsm infoAsm).regs.asm.fstate ≠ .idle := by decide

theorem witness_CrcCheckTestsResidue :
    (withCrc 0xF0B8).regs.crc = 0xF0B8 ∧ (withCrc 0xF0B9).regs.crc ≠ 0xF0B8 := by decide

theorem witness_CrcUpdateIsAffine : ([true, false, true]).length = 3 := by decide

theorem witness_ErrorActionRecordsAndAborts :
    State.reset.regs.events.errv = false ∧ State.reset.regs.asm.fstate = .idle ∧
      (raiseError .sequence 0 State.reset).regs.events.errv = true ∧ (withAsm (heldAsm 2)).regs.asm.fstate ≠ .idle := by
  decide

/-- A word of each column of R302's table, and one that raises nothing. -/
theorem witness_CommandErrorsFollowTable :
    decodeWord 0x15000000 = .error .reservedOpcode ∧
      decodeWord 0x31000000 = .ok .frHdr ∧ errorOf .frHdr State.reset.regs = some .sequence ∧
      errorOf .frHdr (withAsm (openAsm 1 0)).regs = some .invalidCallsign ∧
      errorOf .frHdr (withAsm (openAsm 0 0)).regs = some .addressCount ∧
      decodeWord 0x14000000 = .ok .crcCheck ∧ errorOf .crcCheck State.reset.regs = some .checksumMismatch ∧
      errorOf .frHdr (withAsm (heldAsm 2)).regs = none := by decide

theorem witness_isCommand : Instr.frBegin.isCommand = true ∧ (Instr.frInfo 0).isCommand = true := by decide

theorem witness_EventWriteClearsWrittenBits :
    (3#32).getLsbD 0 = true ∧ (0#32).getLsbD 0 = false ∧ (2#32).getLsbD 1 = true ∧ (1#32).getLsbD 1 = false := by decide

/-- The letters at each end, and the characters next to them. -/
theorem witness_CharacterCodes :
    (0x61 ≤ (0x61#8).toNat ∧ (0x61#8).toNat ≤ 0x7A) ∧ (0x61 ≤ (0x7A#8).toNat ∧ (0x7A#8).toNat ≤ 0x7A) ∧
      ((0x60#8).toNat < 0x61 ∨ 0x7A < (0x60#8).toNat) ∧ ((0x7B#8).toNat < 0x61 ∨ 0x7A < (0x7B#8).toNat) := by decide

theorem witness_AddrChSendsCharacter_phase :
    (withAsm infoAsm).regs.Inv ∧ (withAsm infoAsm).regs.asm.fstate ≠ .address := ⟨withAsm_inv infoAsm_inv, by decide⟩

theorem witness_AddrChSendsCharacter_seventh :
    (withAsm (openAsm 6 9)).regs.Inv ∧ (withAsm (openAsm 6 9)).regs.asm.fstate = .address ∧
      (withAsm (openAsm 6 9)).regs.asm.chars = 6 := ⟨withAsm_inv openAsm_inv.2.2.2, by decide⟩

/-- Also for AddrSsidCompletesCallsign. -/
theorem witness_AddrChSendsCharacter_eleventh :
    (withAsm (heldAsm 10)).regs.Inv ∧ (withAsm (heldAsm 10)).regs.asm.fstate = .address ∧
      (withAsm (heldAsm 10)).regs.asm.chars = 0 ∧ (withAsm (heldAsm 10)).regs.asm.naddr = 10 :=
  ⟨withAsm_inv heldAsm_inv.2.2, by decide⟩

/-- Also for AddrSsidCompletesCallsign and CallsignIsSevenBytes: a held byte before the first character. -/
theorem witness_AddrChSendsCharacter_sends :
    (withAsm (heldAsm 1)).regs.Inv ∧ (withAsm (heldAsm 1)).regs.asm.fstate = .address ∧
      (withAsm (heldAsm 1)).regs.asm.chars ≠ 6 ∧
      ¬((withAsm (heldAsm 1)).regs.asm.chars = 0 ∧ (withAsm (heldAsm 1)).regs.asm.naddr = 10) :=
  ⟨withAsm_inv heldAsm_inv.1, by decide⟩

/-- A callsign of six characters, when none is open; the shortest is the empty one. -/
theorem witness_CallsignIsSevenBytes :
    (Callsign.mk [0x4E, 0x30, 0x43, 0x41, 0x4C, 0x4C] 0x30).base.length ≤ 6 ∧ (Callsign.mk [] 0x30).base.length ≤ 6 ∧
      (withAsm (openAsm 0 0)).regs.Inv ∧ (withAsm (openAsm 0 0)).regs.asm.fstate = .address ∧
      (withAsm (openAsm 0 0)).regs.asm.chars = 0 ∧ (withAsm (openAsm 0 0)).regs.asm.naddr ≠ 10 :=
  ⟨by decide, by decide, withAsm_inv openAsm_inv.1, by decide⟩

theorem witness_CallsignIsRecoverable :
    ([0x20, 0x41, 0x7F] : List Byte).length ≤ 6 ∧ (∀ d ∈ ([0x20, 0x41, 0x7F] : List Byte), d.toNat < 0x80) ∧
      ([0x20, 0x41, 0x7F] : List Byte).getLast? ≠ some 0x20 ∧ (0x7F#8).toNat < 0x80 ∧
      (∀ d ∈ ([0x20, 0x41, 0x7F] : List Byte), d.toNat < 0x61 ∨ 0x7A < d.toNat) ∧
      ([0x20, 0x41, 0x7F] : List Byte).length < 6 := by decide

theorem witness_FrHdrSendsControlAndPid :
    (withAsm infoAsm).regs.Inv ∧ (withAsm infoAsm).regs.asm.fstate ≠ .address ∧
      (withAsm (openAsm 1 0)).regs.Inv ∧ (withAsm (openAsm 1 0)).regs.asm.fstate = .address ∧
      (withAsm (openAsm 1 0)).regs.asm.chars ≠ 0 ∧
      (withAsm (heldAsm 1)).regs.Inv ∧ (withAsm (heldAsm 1)).regs.asm.chars = 0 ∧
      (withAsm (heldAsm 1)).regs.asm.naddr.toNat < 2 ∧
      (withAsm (heldAsm 2)).regs.Inv ∧ (withAsm (heldAsm 2)).regs.asm.chars = 0 ∧
      2 ≤ (withAsm (heldAsm 2)).regs.asm.naddr.toNat :=
  ⟨withAsm_inv infoAsm_inv, by decide, withAsm_inv openAsm_inv.2.1, by decide, by decide, withAsm_inv heldAsm_inv.1,
    by decide, by decide, withAsm_inv heldAsm_inv.2.1, by decide, by decide⟩

/-- For FrInfoSendsByte and FrEndSendsFcsAndFlag. -/
theorem witness_FrInfoSendsByte :
    (withAsm infoAsm).regs.Inv ∧ (withAsm infoAsm).regs.asm.fstate = .info ∧
      State.reset.regs.Inv ∧ State.reset.regs.asm.fstate ≠ .info :=
  ⟨withAsm_inv infoAsm_inv, by decide, reset_inv, by decide⟩

/-- For FrAbortClosesFrame and ConfigurationWrites: both phases with the invariant. -/
theorem witness_ConfigurationWrites :
    State.reset.regs.Inv ∧ State.reset.regs.asm.fstate = .idle ∧
      (withAsm (heldAsm 2)).regs.Inv ∧ (withAsm (heldAsm 2)).regs.asm.fstate ≠ .idle :=
  ⟨reset_inv, by decide, withAsm_inv heldAsm_inv.2.1, by decide⟩

theorem witness_FramePhaseMachine :
    Instr.frHdr.isCommand = true ∧ acceptedIn .frHdr .idle = false ∧
      errorOf .frHdr (withAsm (heldAsm 2)).regs = none ∧ errorOf .frHdr State.reset.regs ≠ none := by decide

/-- For FrameIsSentAsLaidOut and FrameLengthAndSampleCount: no path, and the longest path. -/
theorem witness_FrameIsSentAsLaidOut :
    (∀ c ∈ [Callsign.mk [0x41, 0x50, 0x52, 0x53] 0x30, Callsign.mk [0x4E, 0x30, 0x43, 0x41, 0x4C, 0x4C] 0x30],
        c.base.length ≤ 6) ∧
      (List.replicate 8 (Callsign.mk [0x57, 0x49, 0x44, 0x45, 0x31] 0x31)).length ≤ 8 ∧
      State.reset.regs.asm.fstate = .idle := by decide

theorem witness_NrziTogglesOnZero :
    1 < ([true, false] : List Bool).length ∧ 1 < (nrziFrom true [true, false]).length := by decide

theorem witness_SamplesPerSymbol :
    (0 < 1 ∧ 1 < 2 ^ 20) ∧ (0 < 48000 ∧ 48000 < 2 ^ 20 ∧ 48000 % 1200 = 0) ∧ 2 ^ 20 - 1 < 2 ^ 20 := by decide

theorem witness_PhaseIsContinuous :
    (Instr.frInfo 0xFF).isCommand = true ∧ (withAsm infoAsm).regs.Inv ∧ (withAsm infoAsm).regs.asm.fstate ≠ .idle ∧
      Instr.frBegin.isCommand = true ∧ State.reset.regs.Inv ∧ State.reset.regs.asm.fstate = .idle :=
  ⟨by decide, withAsm_inv infoAsm_inv, by decide, by decide, reset_inv, by decide⟩

/-- The registers of an open frame, and of none, at R = 0. -/
theorem witness_RateZeroEmitsNothing :
    ({ Regs.reset with setup := ⟨0, 1, 1, 0x55⟩, asm := infoAsm } : Regs).Inv ∧
      ({ Regs.reset with setup := ⟨0, 1, 1, 0x55⟩ } : Regs).Inv ∧ infoAsm.fstate ≠ .idle ∧
      FrameAsm.closed.fstate = .idle := by
  refine ⟨?_, ?_, by decide, by decide⟩
  · exact ⟨by decide, ⟨by decide, by decide⟩, fun _ => ⟨fun k => absurd k (by decide), fun _ => rfl⟩,
      fun _ => by decide, infoAsm_inv, ⟨fun _ => ⟨rfl, rfl, rfl⟩, fun k => nomatch k⟩, rfl⟩
  · exact ⟨by decide, ⟨by decide, by decide⟩, fun k => absurd rfl k, fun k => absurd rfl k, FrameAsm.closed_inv,
      ⟨fun _ => ⟨rfl, rfl, rfl⟩, fun k => nomatch k⟩, rfl⟩

/-- The last offset accepted, and the nearest refused: another width, a misaligned offset, one above the window. -/
theorem witness_MmioReadReturnsRegister :
    (0x3C % 4 = 0 ∧ 0x3C ≤ 0x3C) ∧ ¬(16 = 32 ∧ 0x3C % 4 = 0 ∧ 0x3C ≤ 0x3C) ∧
      ¬(32 = 32 ∧ 0x3B % 4 = 0 ∧ 0x3B ≤ 0x3C) ∧ ¬(32 = 32 ∧ 0x40 % 4 = 0 ∧ 0x40 ≤ 0x3C) := by decide

theorem witness_ReadOnlyWritesIgnored :
    State.reset.regs.Inv ∧ 0x3C ∈ [0x04, 0x10, 0x24, 0x28, 0x2C, 0x30, 0x34, 0x38, 0x3C] := ⟨reset_inv, by decide⟩

theorem witness_WindowAddressesSelectOffsets :
    (Config.baseAddr + 64 < Config.baseAddr ∨ Config.baseAddr + 64 ≤ Config.baseAddr + 64) ∧ 63 < 64 :=
  ⟨.inr (le_refl _), by decide⟩

/-- A CMD write that leaves records, presented at once and after a stall. -/
theorem witness_StepRunsDecodedAccess :
    State.reset.after = none ∧ decodeAccess (.write 32 0 0x40000001) = .ok (.mmioWr 32 0 0x40000001) ∧
      (nextState (exec (.mmioWr 32 0 0x40000001) State.reset)).map State.offers = some [silenceSample] ∧
      (nextState (exec (.mmioWr 32 0 0) State.reset)).map State.offers = some [] ∧
      ({ State.reset with waiting := [.write 32 0 0] } : State).stimuli.head? ≠ some .reset := by decide

theorem witness_CmdWriteRunsCommand :
    0x30000000 < 2 ^ 32 ∧ decodeWord (BitVec.ofNat 32 0x34000000) = .ok .frAbort ∧
      nextState (exec .frAbort State.reset) = some State.reset ∧
      nextState (exec (.mmioWr 32 0x00 (BitVec.ofNat 32 0x34000000)) State.reset) = some State.reset := by decide

/-- For AccessStallsWhileCommandRuns and SilentSinkHangsTheBlock. -/
theorem witness_AccessStallsWhileCommandRuns :
    (busyState [.access (.read 32 4)]).busy = true ∧
      (busyState [.access (.read 32 4)]).stimuli = [.access (.read 32 4)] := by decide

theorem witness_RecordsLeaveInOrder :
    (State.reset.waiting = [] ∧ (∀ a, State.reset.stimuli.head? ≠ some (.access a)) ∧
        nextState (step State.reset) = some State.reset) ∧
      nextState (step (busyState [.sinkReady])) =
        some { busyState [] with offers := [silenceSample], accepted := [silenceSample] } ∧
      (busyState [.sinkReady]).stimuli.head? ≠ some .reset :=
  ⟨⟨rfl, by simp [State.reset], by decide⟩, by decide, by decide⟩

theorem witness_CommandCompletesWhenSinkAccepts :
    (busyState [.sinkReady, .sinkReady]).after = some Regs.reset ∧ (busyState [.sinkReady, .sinkReady]).offers ≠ [] ∧
      (busyState [.sinkReady, .sinkReady]).stimuli =
        List.replicate (busyState [.sinkReady, .sinkReady]).offers.length .sinkReady ++ [] := by decide

theorem witness_ResetAbandonsCommand :
    (busyState [.reset]).stimuli = .reset :: [] ∧ (busyState [.reset]).waiting = [] ∧
      ({ busyState [.reset] with waiting := [.read 32 4] } : State).waiting ≠ [] := by decide

theorem witness_StepKeepsInvariant :
    (busyState [.sinkReady]).Inv ∧ (nextState (step (busyState [.sinkReady]))).isSome = true :=
  ⟨busyState_inv _, by decide⟩

theorem witness_OpenFrameKeepsConfiguration :
    (withAsm (heldAsm 2)).regs.asm.fstate ≠ .idle ∧
      (nextState (exec (.mmioWr 32 0x14 44100) (withAsm (heldAsm 2)))).isSome = true := by decide

theorem witness_AcceptedAccessesNeverFault :
    (∀ a ∈ [Access.read 32 0x3C], a.accepted = true) ∧ (Access.write 32 0x00 0).accepted = true := by decide

theorem witness_AssemblerWritesCommandWords :
    Instr.frEnd.isCommand = true ∧ (Callsign.mk [0x41] 0x30).base.length ≤ 6 ∧
      6 < (Callsign.mk [1, 2, 3, 4, 5, 6, 7] 0x30).base.length := by decide

end Sys2Proof.Tests
end

section
/-! PROOFS. The window of the bus (R11, R84, R87) and the range of the amplitudes (R11, R246). -/

namespace Sys2Proof.Machine

/-! ## The bus window -/

theorem baseAddr_mod_64 : Config.baseAddr % 64 = 0 :=
  Nat.mul_mod_right 64 Config.baseBlock

/-- The window test of `busRead` and `busWrite` fails exactly outside the 64 bytes. -/
theorem not_inWindow_iff (addr : Nat) :
    ¬(Config.baseAddr ≤ addr ∧ addr < Config.baseAddr + 64) ↔
      addr < Config.baseAddr ∨ Config.baseAddr + 64 ≤ addr := by
  omega

theorem inWindow_base_add {off : Nat} (h : off < 64) :
    Config.baseAddr ≤ Config.baseAddr + off ∧ Config.baseAddr + off < Config.baseAddr + 64 :=
  ⟨Nat.le_add_right _ _, Nat.add_lt_add_left h _⟩

theorem busRead_outside (width : Nat) {addr : Nat}
    (h : addr < Config.baseAddr ∨ Config.baseAddr + 64 ≤ addr) : busRead width addr = none :=
  if_neg ((not_inWindow_iff addr).mpr h)

theorem busWrite_outside (width : Nat) {addr : Nat} (v : Word)
    (h : addr < Config.baseAddr ∨ Config.baseAddr + 64 ≤ addr) : busWrite width addr v = none :=
  if_neg ((not_inWindow_iff addr).mpr h)

theorem busRead_base_add (width : Nat) {off : Nat} (h : off < 64) :
    busRead width (Config.baseAddr + off) = some (.read width off) := by
  rw [busRead, if_pos (inWindow_base_add h), Nat.add_sub_cancel_left]

theorem busWrite_base_add (width : Nat) {off : Nat} (v : Word) (h : off < 64) :
    busWrite width (Config.baseAddr + off) v = some (.write width off v) := by
  rw [busWrite, if_pos (inWindow_base_add h), Nat.add_sub_cancel_left]

/-- Settles O47: outside the window the test of `busRead` and `busWrite` fails; at `base + off` it holds and the base
cancels. -/
theorem windowAddressesSelectOffsets : Obligations.WindowAddressesSelectOffsets :=
  ⟨baseAddr_mod_64, fun width _ v =>
    ⟨fun h => ⟨busRead_outside width h, busWrite_outside width v h⟩,
      fun _ h => ⟨busRead_base_add width h, busWrite_base_add width v h⟩⟩⟩

/-! ## The amplitudes -/

theorem ampValue_zeroAmp : Config.ampValue Config.zeroAmp = 0 :=
  if_pos rfl

/-- AMP_RANGE for every word of the type, not only those `AMP` answers: `ZERO` denotes 0, the clamp bounds the rest. -/
theorem ampValue_mem_Icc (a : Config.Amplitude) : Config.ampValue a ∈ Set.Icc (-1 : ℝ) 1 := by
  by_cases h : a = Config.zeroAmp
  · rw [h, ampValue_zeroAmp]
    norm_num
  · have clamped : Config.ampValue a = max (-1) (min 1 (Config.ampNumber a.val)) := if_neg h
    rw [clamped]
    exact ⟨le_max_left _ _, max_le (by norm_num) (min_le_left _ _)⟩

/-- Settles O38, from the bounds of every amplitude word. -/
theorem amplitudeInRange : Obligations.AmplitudeInRange :=
  ⟨fun p R => ampValue_mem_Icc (Config.amp p R), ampValue_zeroAmp⟩

end Sys2Proof.Machine
end

section
/-! PROOFS. What a command can do, said once: a command either raises its error of R302 or has its one effect; and what
both leave unchanged. -/

namespace Sys2Proof.Machine

/-! ## What a command can do -/

/-- The one effect of a command that raises no error (R132 to R136, R166, R167, R184 to R188, R251, R270). -/
def commandEffect (i : Instr) (s : State) : State :=
  match i with
  | .crcInit => { s with regs.crc := Config.crcInit }
  | .crcBit b => { s with regs.crc := crcBit s.regs.crc b }
  | .crcByte d => { s with regs.crc := crcByte s.regs.crc d }
  | .crcDigest => { s with regs.result := digest s.regs.crc }
  | .addrCh d => sendChar d s
  | .addrSsid d => completeCallsign d s
  | .frBegin => setPhase .address (sendPreamble (frameInit s))
  | .frHdr => sendHeader s
  | .frInfo d => dataByte d s
  | .frEnd => closeFrame (digest s.regs.crc) (sendTrailer (digest s.regs.crc) s)
  | .frAbort => { s with regs.asm := FrameAsm.closed }
  | .txSilence n => emit (List.replicate n.toNat silenceSample) s
  | .nop _ => s
  | .crcCheck => s
  | .mmioRd _ _ => s
  | .mmioWr _ _ _ => s

/-- What a command leaves: its error action, or its effect (R305, R307). -/
def commandResult (i : Instr) (s : State) : State :=
  match errorOf i s.regs with
  | some c => raiseError c (wordOf i) s
  | none => commandEffect i s

theorem commandResult_of_error {i : Instr} {s : State} {c : Cause} (h : errorOf i s.regs = some c) :
    commandResult i s = raiseError c (wordOf i) s := by
  simp [commandResult, h]

theorem commandResult_of_ok {i : Instr} {s : State} (h : errorOf i s.regs = none) :
    commandResult i s = commandEffect i s := by
  simp [commandResult, h]

theorem commandResult_refused {i : Instr} {s : State} (h : acceptedIn i s.regs.asm.fstate = false) :
    commandResult i s = raiseError .sequence (wordOf i) s := by
  simp [commandResult, errorOf, h]

/-- In a phase that accepts the command, the other errors of R302 in the priority of R304. -/
theorem commandResult_accepted {i : Instr} {s : State} (h : acceptedIn i s.regs.asm.fstate = true) :
    commandResult i s =
      if callsignError i s.regs.asm then raiseError .invalidCallsign (wordOf i) s
      else if countError i s.regs.asm then raiseError .addressCount (wordOf i) s
      else if checksumError i s.regs.crc then raiseError .checksumMismatch (wordOf i) s
      else commandEffect i s := by
  simp only [commandResult, errorOf, h, Bool.not_true, Bool.false_eq_true, if_false]
  split_ifs <;> rfl

/-- A phase check (R303) is the command when its body is the command in the phase checked. -/
theorem requirePhase_eq_commandResult {i : Instr} {p : Phase} {body : State → State} {s : State}
    (hp : acceptedIn i s.regs.asm.fstate = decide (s.regs.asm.fstate = p))
    (hb : acceptedIn i s.regs.asm.fstate = true → body s = commandResult i s) :
    requirePhase p (wordOf i) body s = commandResult i s := by
  by_cases h : s.regs.asm.fstate = p
  · rw [requirePhase_pos h, hb (hp.trans (decide_eq_true h))]
  · rw [requirePhase_neg h, commandResult_refused (hp.trans (decide_eq_false h))]

/-- A command goes on to its error action or its effect, the error being the first of R304. -/
theorem exec_command {i : Instr} (hi : i.isCommand = true) (s : State) : exec i s = .next (commandResult i s) := by
  cases i
  case nop | crcDigest | frAbort => rfl
  case crcCheck =>
    refine congrArg Host.Outcome.next ?_
    rw [commandResult_accepted rfl]
    by_cases h : s.regs.crc = Config.crcResidue <;>
      simp [commandEffect, callsignError, countError, checksumError, h]
  case crcInit | crcBit | crcByte | frBegin | frInfo | frEnd | txSilence =>
    refine congrArg Host.Outcome.next (requirePhase_eq_commandResult rfl fun h => ?_)
    rw [commandResult_accepted h]
    rfl
  case addrCh | addrSsid | frHdr =>
    refine congrArg Host.Outcome.next (requirePhase_eq_commandResult rfl fun h => ?_)
    rw [commandResult_accepted h]
    simp [commandEffect, callsignError, countError, checksumError, Config.callMax, Config.addrMax, Config.pathMax,
      ← BitVec.toNat_inj]
  case mmioRd | mmioWr => cases hi

/-! ## What a command works on -/

/-- The state `r` with the part a command's effect works on taken from `s`: everything but the event registers, CTRL, IRQ
and the ports other than the stream port's queue. -/
def State.withCommandPart (r s : State) : State :=
  { r with
    regs.crc := s.regs.crc
    regs.line := s.regs.line
    regs.synth := s.regs.synth
    regs.asm := s.regs.asm
    regs.result := s.regs.result
    regs.setup := s.regs.setup
    offers := s.offers }

/-- `f` reads and writes the command part alone, and keeps the configuration. -/
structure CommandLocal (f : State → State) : Prop where
  commutes : ∀ r s : State, f (r.withCommandPart s) = r.withCommandPart (f s)
  setup : ∀ s : State, (f s).regs.setup = s.regs.setup

theorem CommandLocal.id : CommandLocal (fun s => s) := ⟨fun _ _ => rfl, fun _ => rfl⟩

theorem CommandLocal.comp {f g : State → State} (hf : CommandLocal f) (hg : CommandLocal g) :
    CommandLocal (fun s => f (g s)) :=
  ⟨fun r s => by rw [hg.commutes, hf.commutes], fun s => by rw [hf.setup, hg.setup]⟩

/-- An operand read from the command part keeps a procedure local. -/
theorem CommandLocal.operand {α : Type} {f : α → State → State} (hf : ∀ a, CommandLocal (f a)) (v : State → α)
    (hv : ∀ r s : State, v (r.withCommandPart s) = v s) : CommandLocal (fun s => f (v s) s) :=
  ⟨fun r s => by rw [hv, (hf _).commutes], fun s => (hf _).setup s⟩

theorem CommandLocal.foldl {α : Type} {f : α → State → State} (hf : ∀ a, CommandLocal (f a)) (l : List α) :
    CommandLocal (fun s => l.foldl (fun t a => f a t) s) := by
  induction l with
  | nil => exact .id
  | cons a l ih => exact ih.comp (hf a)

theorem lineBit_local (x : Bool) : CommandLocal (lineBit x) :=
  ⟨fun r s => by rw [lineBit_eq, lineBit_eq]; rfl, fun s => by rw [lineBit_eq]⟩

theorem setOnes_local (n : BitVec 3) : CommandLocal (setOnes n) := ⟨fun _ _ => rfl, fun _ => rfl⟩

theorem stuffBit_local (b : Bool) : CommandLocal (stuffBit b) := by
  cases b with
  | false => exact (setOnes_local 0).comp (lineBit_local false)
  | true =>
    refine ⟨fun r s => ?_, fun s => ?_⟩
    all_goals
      simp only [stuffBit, lineBit_eq, setOnes, State.withCommandPart, if_true]
      split <;> rfl

theorem dataBit_local (b : Bool) : CommandLocal (dataBit b) :=
  (stuffBit_local b).comp
    (g := fun s => { s with regs.crc := crcBit s.regs.crc b }) ⟨fun _ _ => rfl, fun _ => rfl⟩

theorem dataByte_local (d : Byte) : CommandLocal (dataByte d) := .foldl dataBit_local _

theorem sendData_local (ds : List Byte) : CommandLocal (sendData ds) := .foldl dataByte_local _

theorem sendLine_local (xs : List Bool) : CommandLocal (sendLine xs) := .foldl lineBit_local _

theorem lineByte_local (d : Byte) : CommandLocal (lineByte d) := sendLine_local (bitsLsb d)

theorem fcsByte_local (d : Byte) : CommandLocal (fcsByte d) := .foldl stuffBit_local _

theorem sendTrailer_local (f : BitVec 16) : CommandLocal (sendTrailer f) :=
  (lineByte_local Config.flag).comp ((fcsByte_local (fcsHigh f)).comp (fcsByte_local (fcsLow f)))

theorem setPhase_local (p : Phase) : CommandLocal (setPhase p) := ⟨fun _ _ => rfl, fun _ => rfl⟩

theorem clearHold_local : CommandLocal clearHold := ⟨fun _ _ => rfl, fun _ => rfl⟩

theorem sendPreamble_local : CommandLocal sendPreamble := by
  rw [funext sendPreamble_eq]
  exact .operand sendLine_local (fun s => preambleBits s.regs.setup) fun _ _ => rfl

/-- Sending the held byte, or nothing, by PEND (R165). -/
theorem releaseHold_local : CommandLocal releaseHold :=
  .operand (f := fun (p : Bool) s => if p then clearHold (dataByte s.regs.asm.hold s) else s)
    (fun p => by
      cases p with
      | false => exact .id
      | true => exact clearHold_local.comp (.operand dataByte_local (·.regs.asm.hold) fun _ _ => rfl))
    (·.regs.asm.pend) fun _ _ => rfl

theorem sendChar_local (d : Byte) : CommandLocal (sendChar d) :=
  .comp (f := fun t => { t with regs.asm.chars := t.regs.asm.chars + 1 }) ⟨fun _ _ => rfl, fun _ => rfl⟩
    ((dataByte_local _).comp releaseHold_local)

theorem completeCallsign_local (d : Byte) : CommandLocal (completeCallsign d) :=
  .comp
    (f := fun t => { t with regs.asm := { t.regs.asm with
      hold := encodeChar d, pend := true, chars := 0, naddr := t.regs.asm.naddr + 1 } })
    (g := fun s => repeatTimes (dataByte Config.pad) (Config.callMax - s.regs.asm.chars.toNat) (releaseHold s))
    ⟨fun _ _ => rfl, fun _ => rfl⟩
    (.operand (f := fun n s => repeatTimes (dataByte Config.pad) n (releaseHold s))
      (fun n => by
        simp only [repeat_dataByte]
        exact (sendData_local _).comp releaseHold_local)
      (fun s => Config.callMax - s.regs.asm.chars.toNat) fun _ _ => rfl)

theorem sendHeader_local : CommandLocal sendHeader :=
  (setPhase_local .info).comp ((dataByte_local _).comp ((dataByte_local _).comp (clearHold_local.comp
    (.operand dataByte_local (fun s => endOfAddress s.regs.asm.hold) fun _ _ => rfl))))

/-- Every effect but FR.END's, which sets FDONE and IRQ, works on the command part alone. -/
theorem commandEffect_local {i : Instr} (h : i ≠ .frEnd) : CommandLocal (commandEffect i) := by
  cases i
  case nop | crcCheck | mmioRd | mmioWr => exact .id
  case crcInit | crcBit | crcByte | crcDigest | frAbort | txSilence => exact ⟨fun _ _ => rfl, fun _ => rfl⟩
  case addrCh d => exact sendChar_local d
  case addrSsid d => exact completeCallsign_local d
  case frBegin =>
    exact (setPhase_local .address).comp
      (sendPreamble_local.comp (g := frameInit) ⟨fun _ _ => rfl, fun _ => rfl⟩)
  case frHdr => exact sendHeader_local
  case frInfo d => exact dataByte_local d
  case frEnd => exact absurd rfl h

/-- The line part of FR.END (R187). -/
theorem sendOwnDigest_local : CommandLocal (fun s => sendTrailer (digest s.regs.crc) s) :=
  .operand sendTrailer_local (fun s => digest s.regs.crc) fun _ _ => rfl

/-! ## What a command leaves unchanged -/

/-- The configuration, the enables and the ports are unchanged, the stream port's queue apart. -/
structure CommandKeeps (s t : State) : Prop extends PortsKept s t where
  setup : t.regs.setup = s.regs.setup
  ctrl : t.regs.ctrl = s.regs.ctrl

theorem CommandLocal.keeps {f : State → State} (hf : CommandLocal f) (s : State) : CommandKeeps s (f s) := by
  have h : f s = s.withCommandPart (f s) := hf.commutes s s
  refine ⟨?_, hf.setup s, by rw [h]; rfl⟩
  rw [h]
  exact ⟨rfl, rfl, rfl, rfl, rfl, rfl⟩

theorem raiseError_keeps (c : Cause) (w : Word) (s : State) : CommandKeeps s (raiseError c w s) :=
  ⟨(raiseError_onlyRegs s c w).toPortsKept, by simp, by simp⟩

theorem closeFrame_keeps {s t : State} (h : CommandKeeps s t) (f : BitVec 16) : CommandKeeps s (closeFrame f t) :=
  ⟨h.toPortsKept.trans ⟨rfl, rfl, rfl, rfl, rfl, rfl⟩, h.setup, h.ctrl⟩

theorem commandResult_keeps (i : Instr) (s : State) : CommandKeeps s (commandResult i s) := by
  cases he : errorOf i s.regs with
  | some c =>
    rw [commandResult_of_error he]
    exact raiseError_keeps c _ s
  | none =>
    rw [commandResult_of_ok he]
    by_cases hi : i = .frEnd
    · subst hi
      exact closeFrame_keeps (sendOwnDigest_local.keeps s) _
    · exact (commandEffect_local hi).keeps s

end Sys2Proof.Machine
end

section
/-! PROOFS. The host's registers (R46 to R57, R310): what a write to each leaves, that a recorded error blocks no command,
and that an open frame keeps the configuration. -/

namespace Sys2Proof.Machine

/-! ## A host access at a register's offset -/

theorem selectReg_offset (n : RegName) : selectReg 32 n.offset = some n := by cases n <;> rfl

/-- R272: the write of the register the offset selects, with IRQ recomputed. -/
theorem exec_mmioWr_offset (n : RegName) (v : Word) (s : State) :
    exec (.mmioWr 32 n.offset v) s = onNext updateIrq (writeReg n v s) := by
  show execMmioWr 32 n.offset v s = _
  simp only [execMmioWr, selectReg_offset]

/-- R271: the host receives the register's word. -/
theorem exec_mmioRd_offset (n : RegName) (s : State) :
    exec (.mmioRd 32 n.offset) s = .next { s with reads := s.reads ++ [readReg n s.regs] } := by
  show execMmioRd 32 n.offset s = _
  simp only [execMmioRd, selectReg_offset]

/-- Where IRQ is up to date already, a register's write is all that a host write does. -/
theorem exec_mmioWr_of_level {n : RegName} {v : Word} {s t : State} (hw : writeReg n v s = .next t)
    (ht : t.regs.irq = irqLevel t.regs.ctrl t.regs.events) : exec (.mmioWr 32 n.offset v) s = .next t := by
  rw [exec_mmioWr_offset, hw]
  exact congrArg Host.Outcome.next (updateIrq_of_level ht)

/-! ## CTRL and EVENT -/

/-- Settles O45: the register's write, then IRQ from the new enables. -/
theorem ctrlWriteSetsEnables : Obligations.CtrlWriteSetsEnables :=
  fun v s => exec_mmioWr_offset .ctrl v s

/-- Bit 0 = 1 clears the error record (R47). -/
theorem Events.clear_record {e : Events} {v : Word} (h : v.getLsbD 0 = true) :
    (e.clear v).errv = false ∧ (e.clear v).cause = .none ∧ (e.clear v).errnaddr = 0 ∧ (e.clear v).errinfo = 0 := by
  simp [Events.clear, h]

/-- Bit 0 = 0 keeps the error record (R47). -/
theorem Events.clear_keeps_record {e : Events} {v : Word} (h : v.getLsbD 0 = false) :
    (e.clear v).errv = e.errv ∧ (e.clear v).cause = e.cause ∧ (e.clear v).errnaddr = e.errnaddr ∧
      (e.clear v).errinfo = e.errinfo := by
  simp only [Events.clear, h, Bool.not_false, Bool.and_true, Bool.false_eq_true, if_false, and_self]

/-- Bit 1 = 1 clears FDONE (R47). -/
theorem Events.clear_fdone {e : Events} {v : Word} (h : v.getLsbD 1 = true) : (e.clear v).fdone = false := by
  simp [Events.clear, h]

/-- Bit 1 = 0 keeps FDONE (R47). -/
theorem Events.clear_keeps_fdone {e : Events} {v : Word} (h : v.getLsbD 1 = false) : (e.clear v).fdone = e.fdone := by
  simp only [Events.clear, h, Bool.not_false, Bool.and_true]

/-- Settles O18: the write is `acknowledge`, so each clause is one of `Events.clear`. -/
theorem eventWriteClearsWrittenBits : Obligations.EventWriteClearsWrittenBits :=
  fun v s => ⟨updateIrq (acknowledge v s), exec_mmioWr_offset .event v s, Events.clear_record,
    Events.clear_keeps_record, Events.clear_fdone, Events.clear_keeps_fdone, rfl, rfl⟩

/-! ## The configuration registers -/

theorem writeSetup_idle {n : RegName} {v : Word} {s : State} (h : s.regs.asm.fstate = .idle) :
    writeSetup n v s = { s with regs.setup := s.regs.setup.write n v } := if_pos h

theorem writeSetup_open {n : RegName} {v : Word} {s : State} (h : s.regs.asm.fstate ≠ .idle) :
    writeSetup n v s = raiseError .sequence (refusedWriteInfo n) s := if_neg h

/-- A write to a configuration register is `writeSetup` alone: IRQ stays up to date (R57). -/
theorem exec_writeSetup {n : RegName} {v : Word} {s : State} (h : s.regs.Inv)
    (hn : writeReg n v s = .next (writeSetup n v s)) :
    exec (.mmioWr 32 n.offset v) s = .next (writeSetup n v s) :=
  exec_mmioWr_of_level hn (writeSetup_inv h n v).irq

/-- Settles O44: each of the four writes is `writeSetup`, by phase. -/
theorem configurationWrites : Obligations.ConfigurationWrites := by
  intro v s h
  have hsrate := exec_writeSetup (n := .srate) (v := v) h rfl
  have hprecnt := exec_writeSetup (n := .precnt) (v := v) h rfl
  have hflagcnt := exec_writeSetup (n := .flagcnt) (v := v) h rfl
  have hprebyte := exec_writeSetup (n := .prebyte) (v := v) h rfl
  refine ⟨fun hidle => ?_, fun hopen => ?_⟩
  · simp only [BitVec.ofNat_toNat]
    rw [writeSetup_idle hidle] at hsrate hprecnt hflagcnt hprebyte
    exact ⟨hsrate, hprecnt, hflagcnt, hprebyte⟩
  · rw [writeSetup_open hopen] at hsrate hprecnt hflagcnt hprebyte
    exact ⟨hsrate, hprecnt, hflagcnt, hprebyte⟩

/-! ## The read-only registers -/

/-- The registers whose writes R56 ignores. -/
def readOnlyRegs : List RegName := [.status, .result, .crc, .phase, .clkacc, .symcnt, .smpcnt, .hold, .errinfo]

theorem writeReg_readOnly {n : RegName} (h : n ∈ readOnlyRegs) (v : Word) (s : State) : writeReg n v s = .next s := by
  simp only [readOnlyRegs, List.mem_cons, List.not_mem_nil, or_false] at h
  rcases h with rfl | rfl | rfl | rfl | rfl | rfl | rfl | rfl | rfl <;> rfl

/-- Settles O46: the offsets are those of `readOnlyRegs`, whose writes keep the state, and IRQ is up to date. -/
theorem readOnlyWritesIgnored : Obligations.ReadOnlyWritesIgnored := by
  refine fun off v s h => ⟨fun hoff => ?_, exec_mmioRd_offset .cmd s⟩
  obtain ⟨n, hn, rfl⟩ : ∃ n ∈ readOnlyRegs, n.offset = off := List.mem_map.mp hoff
  exact exec_mmioWr_of_level (writeReg_readOnly hn v s) h.irq

/-! ## A recorded error blocks nothing -/

/-- The command part and CTRL are the same in both. -/
structure SameCommandPart (t u : State) : Prop where
  crc : u.regs.crc = t.regs.crc
  line : u.regs.line = t.regs.line
  synth : u.regs.synth = t.regs.synth
  asm : u.regs.asm = t.regs.asm
  result : u.regs.result = t.regs.result
  setup : u.regs.setup = t.regs.setup
  ctrl : u.regs.ctrl = t.regs.ctrl
  offers : u.offers = t.offers

/-- The state with other event registers. -/
def State.withEvents (s : State) (e : Events) : State := { s with regs.events := e }

theorem CommandLocal.same_withEvents {f : State → State} (hf : CommandLocal f) (s : State) (e : Events) :
    SameCommandPart (f s) (f (s.withEvents e)) := by
  have h : f (s.withEvents e) = (s.withEvents e).withCommandPart (f s) := hf.commutes (s.withEvents e) s
  have hctrl : (f s).regs.ctrl = s.regs.ctrl := (hf.keeps s).ctrl
  rw [h]
  exact ⟨rfl, rfl, rfl, rfl, rfl, rfl, hctrl.symm, rfl⟩

theorem raiseError_same_withEvents (c : Cause) (w : Word) (s : State) (e : Events) :
    SameCommandPart (raiseError c w s) (raiseError c w (s.withEvents e)) := by
  constructor <;> simp [State.withEvents]

theorem closeFrame_same {t u : State} (h : SameCommandPart t u) (f : BitVec 16) :
    SameCommandPart (closeFrame f t) (closeFrame f u) := by
  obtain ⟨hcrc, hline, hsynth, hasm, -, hsetup, hctrl, hoffers⟩ := h
  have hclosed := congrArg (fun a : FrameAsm => { a with fstate := .idle, naddr := 0 }) hasm
  exact ⟨hcrc, hline, hsynth, hclosed, rfl, hsetup, hctrl, hoffers⟩

/-- No command reads the event registers: not its error conditions, not its error action, not its effect (R59, R309). -/
theorem commandResult_same_withEvents (i : Instr) (s : State) (e : Events) :
    SameCommandPart (commandResult i s) (commandResult i (s.withEvents e)) := by
  have herr : errorOf i (s.withEvents e).regs = errorOf i s.regs := rfl
  cases he : errorOf i s.regs with
  | some c =>
    rw [commandResult_of_error he, commandResult_of_error (herr.trans he)]
    exact raiseError_same_withEvents c _ s e
  | none =>
    rw [commandResult_of_ok he, commandResult_of_ok (herr.trans he)]
    by_cases hi : i = .frEnd
    · subst hi
      exact closeFrame_same (sendOwnDigest_local.same_withEvents s e) _
    · exact (commandEffect_local hi).same_withEvents s e

/-- Settles O17: both runs go on, and agree on the command part and CTRL. -/
theorem recordedErrorBlocksNothing : Obligations.RecordedErrorBlocksNothing := by
  intro i s e hi
  obtain ⟨hcrc, hline, hsynth, hasm, hresult, hsetup, hctrl, hoffers⟩ := commandResult_same_withEvents i s e
  exact ⟨_, _, exec_command hi s, exec_command hi (s.withEvents e), hcrc, hline, hsynth, hasm, hresult, hsetup, hctrl,
    hoffers⟩

/-! ## What an instruction can do -/

/-- What a word written to CMD leaves: ILLEGAL_COMMAND's error action, or the command's result (R106 to R108). -/
theorem executeWord_cases {w : Word} {s t : State} (h : executeWord w s = .next t) :
    t = raiseError .illegalCommand w s ∨ ∃ i, t = commandResult i s := by
  unfold executeWord at h
  cases hd : decodeWord w with
  | error e =>
    rw [hd] at h
    cases h
    exact .inl rfl
  | ok i =>
    have hi : i.isCommand = true := (decodeWord_ok hd).2.1
    simp only [hd, runCommand_eq_exec hi, exec_command hi] at h
    cases h
    exact .inr ⟨i, rfl⟩

/-- What a host write of a register can leave before IRQ is recomputed (R56, R57, R272, R310). -/
theorem writeReg_cases {n : RegName} {v : Word} {s t : State} (h : writeReg n v s = .next t) :
    executeWord v s = .next t ∨ t = acknowledge v s ∨ (∃ c, t = { s with regs.ctrl := c }) ∨ t = writeSetup n v s ∨
      t = s := by
  cases n
  case cmd => exact .inl h
  case event => cases h; exact .inr (.inl rfl)
  case ctrl => cases h; exact .inr (.inr (.inl ⟨_, rfl⟩))
  case srate | precnt | flagcnt | prebyte => cases h; exact .inr (.inr (.inr (.inl rfl)))
  case status | result | crc | phase | clkacc | symcnt | smpcnt | hold | errinfo =>
    cases h; exact .inr (.inr (.inr (.inr rfl)))

/-- What an instruction that goes on can leave: a command its result, a host read its value, a host write the register
written, with IRQ recomputed. -/
theorem exec_cases {i : Instr} {s t : State} (h : exec i s = .next t) :
    t = commandResult i s ∨ (∃ v, t = { s with reads := s.reads ++ [v] }) ∨
      ∃ n v u, writeReg n v s = .next u ∧ t = updateIrq u := by
  cases i
  case mmioRd width off =>
    replace h : execMmioRd width off s = .next t := h
    unfold execMmioRd at h
    split at h <;> cases h
    exact .inr (.inl ⟨_, rfl⟩)
  case mmioWr width off v =>
    replace h : execMmioWr width off v s = .next t := h
    unfold execMmioWr at h
    split at h
    · cases h
    · obtain ⟨u, hw, ht⟩ := onNext_next.mp h
      exact .inr (.inr ⟨_, v, u, hw, ht⟩)
  all_goals
    rw [exec_command rfl] at h
    cases h
    exact .inl rfl

/-! ## What an instruction leaves unchanged -/

theorem executeWord_keeps {w : Word} {s t : State} (h : executeWord w s = .next t) : CommandKeeps s t := by
  rcases executeWord_cases h with rfl | ⟨i, rfl⟩
  · exact raiseError_keeps .illegalCommand w s
  · exact commandResult_keeps i s

theorem writeSetup_ports (n : RegName) (v : Word) (s : State) : PortsKept s (writeSetup n v s) := by
  by_cases h : s.regs.asm.fstate = .idle
  · rw [writeSetup_idle h]
    exact ⟨rfl, rfl, rfl, rfl, rfl, rfl⟩
  · rw [writeSetup_open h]
    exact (raiseError_keeps _ _ s).toPortsKept

theorem writeReg_ports {n : RegName} {v : Word} {s t : State} (h : writeReg n v s = .next t) : PortsKept s t := by
  rcases writeReg_cases h with hw | rfl | ⟨c, rfl⟩ | rfl | rfl
  · exact (executeWord_keeps hw).toPortsKept
  · exact ⟨rfl, rfl, rfl, rfl, rfl, rfl⟩
  · exact ⟨rfl, rfl, rfl, rfl, rfl, rfl⟩
  · exact writeSetup_ports n v s
  · exact .refl _

/-- An instruction changes nothing of the ports but the stream port's queue and the values read. -/
theorem exec_ports {i : Instr} {s t : State} (h : exec i s = .next t) : PortsKept { s with reads := t.reads } t := by
  rcases exec_cases h with rfl | ⟨v, rfl⟩ | ⟨n, v, u, hw, rfl⟩
  · exact { (commandResult_keeps i s).toPortsKept with reads := rfl }
  · exact ⟨rfl, rfl, rfl, rfl, rfl, rfl⟩
  · exact { writeReg_ports hw with reads := rfl }

/-- While a frame is open a host write keeps the configuration (R57). -/
theorem writeReg_keeps_setup {n : RegName} {v : Word} {s t : State} (hopen : s.regs.asm.fstate ≠ .idle)
    (h : writeReg n v s = .next t) : t.regs.setup = s.regs.setup := by
  rcases writeReg_cases h with hw | rfl | ⟨c, rfl⟩ | rfl | rfl
  · exact (executeWord_keeps hw).setup
  · rfl
  · rfl
  · rw [writeSetup_open hopen]
    exact (raiseError_keeps _ _ s).setup
  · rfl

/-- Settles O58: a command keeps the configuration in every phase, a host write while a frame is open. -/
theorem openFrameKeepsConfiguration : Obligations.OpenFrameKeepsConfiguration := by
  intro i s t hopen h
  rcases exec_cases h with rfl | ⟨v, rfl⟩ | ⟨n, v, u, hw, rfl⟩
  · exact (commandResult_keeps i s).setup
  · rfl
  · rw [updateIrq_regs]
    exact writeReg_keeps_setup hopen hw

end Sys2Proof.Machine
end

section
/-! PROOFS. Every step keeps the invariant: the frame assembler's transitions (R44), the commands, the host writes, then
the ports. -/

namespace Sys2Proof.Machine

/-! ## The frame assembler's transitions -/

/-- There is room for an address: one is begun, or fewer than ten are complete (R44 (e)). -/
theorem FrameAsm.Inv.naddr_le_nine {a : FrameAsm} (h : a.Inv) (hroom : ¬(a.chars.toNat = 0 ∧ a.naddr.toNat = 10)) :
    a.naddr.toNat ≤ 9 := by
  by_cases hc : a.chars.toNat = 0
  · have := h.naddr_le
    omega
  · exact (h.open_ (by omega)).2

/-- A character is counted, the held byte being gone (R166). -/
theorem FrameAsm.Inv.nextChar {a : FrameAsm} (h : a.Inv) (hf : a.fstate = .address) (hc : a.chars.toNat ≠ 6)
    (hroom : ¬(a.chars.toNat = 0 ∧ a.naddr.toNat = 10)) :
    FrameAsm.Inv { a with pend := false, hold := 0, chars := a.chars + 1 } := by
  have hle := h.chars_le
  have hn : (a.chars + 1).toNat = a.chars.toNat + 1 := by bv_omega
  exact {
    chars_le := by show (a.chars + 1).toNat ≤ 6; omega
    naddr_le := h.naddr_le
    hold_zero := fun _ => rfl
    hold_even := by simp
    idle := fun k => nomatch hf.symm.trans k
    info := fun k => nomatch hf.symm.trans k
    pend := fun k => nomatch k
    held := fun _ k => by
      replace k : a.chars + 1 = 0 := k
      rw [k] at hn
      exact absurd hn (Nat.succ_ne_zero _).symm
    open_ := fun _ => ⟨hf, h.naddr_le_nine hroom⟩ }

/-- An address is complete, its SSID byte held back (R167). -/
theorem FrameAsm.Inv.nextAddress {a : FrameAsm} (h : a.Inv) (hf : a.fstate = .address)
    (hroom : ¬(a.chars.toNat = 0 ∧ a.naddr.toNat = 10)) (d : Byte) :
    FrameAsm.Inv ⟨a.fstate, true, encodeChar d, 0, a.naddr + 1⟩ := by
  have hle := h.naddr_le_nine hroom
  have hn : (a.naddr + 1).toNat = a.naddr.toNat + 1 := by bv_omega
  exact {
    chars_le := Nat.zero_le 6
    naddr_le := by show (a.naddr + 1).toNat ≤ 10; omega
    hold_zero := fun k => nomatch k
    hold_even := by simp [encodeChar]
    idle := fun k => nomatch hf.symm.trans k
    info := fun k => nomatch hf.symm.trans k
    pend := fun _ => ⟨hf, rfl, by show 1 ≤ (a.naddr + 1).toNat; omega⟩
    held := fun _ _ _ => rfl
    open_ := fun k => absurd k (Nat.lt_irrefl 0) }

/-- The header is sent (R185). -/
theorem FrameAsm.Inv.enterInfo {a : FrameAsm} (h : a.Inv) (hc : a.chars.toNat = 0) (hn : 2 ≤ a.naddr.toNat) :
    FrameAsm.Inv { a with pend := false, hold := 0, fstate := .info } where
  chars_le := h.chars_le
  naddr_le := h.naddr_le
  hold_zero _ := rfl
  hold_even := by simp
  idle k := nomatch k
  info _ := ⟨rfl, rfl, BitVec.eq_of_toNat_eq hc, hn⟩
  pend k := nomatch k
  held k := nomatch k
  open_ k := absurd hc k.ne'

/-- A frame is ended from INFO (R187). -/
theorem FrameAsm.Inv.leaveInfo {a : FrameAsm} (h : a.Inv) (hf : a.fstate = .info) :
    FrameAsm.Inv { a with fstate := .idle, naddr := 0 } := by
  obtain ⟨hpend, hhold, hchars, -⟩ := h.info hf
  have : ({ a with fstate := .idle, naddr := 0 } : FrameAsm) = FrameAsm.closed := by
    simp [FrameAsm.closed, hpend, hhold, hchars]
  rw [this]
  exact FrameAsm.closed_inv

/-- A frame just begun (R184). -/
theorem FrameAsm.begun_inv : FrameAsm.Inv ⟨.address, false, 0, 0, 0⟩ := by constructor <;> decide

/-! ## The event registers -/

/-- The write to EVENT keeps the error record's invariant (R47). -/
theorem Events.clear_inv {e : Events} (h : e.Inv) (v : Word) : (e.clear v).Inv := by
  cases hv : v.getLsbD 0 with
  | true =>
    obtain ⟨herrv, hcause, hnaddr, hinfo⟩ := Events.clear_record (e := e) hv
    exact ⟨fun _ => ⟨hcause, hnaddr, hinfo⟩, fun k => absurd (herrv.symm.trans k) Bool.false_ne_true⟩
  | false =>
    obtain ⟨herrv, hcause, hnaddr, hinfo⟩ := Events.clear_keeps_record (e := e) hv
    constructor
    · rw [herrv, hcause, hnaddr, hinfo]
      exact h.clear
    · rw [herrv, hcause]
      exact h.named

/-! ## The registers' invariant, operation by operation -/

theorem Regs.reset_inv : Regs.reset.Inv where
  ones_le := by decide
  clock := ⟨by decide, by decide⟩
  phase k := absurd rfl k
  exact_ k := absurd rfl k
  asm := FrameAsm.closed_inv
  events := ⟨fun _ => ⟨rfl, rfl, rfl⟩, fun k => nomatch k⟩
  irq := rfl

/-- CRC and RESULT are bound by no invariant. -/
theorem Regs.Inv.set_crc_result {r : Regs} (h : r.Inv) (c f : BitVec 16) : Regs.Inv { r with crc := c, result := f } :=
  ⟨h.ones_le, h.clock, h.phase, h.exact_, h.asm, h.events, h.irq⟩

/-- With no frame open only R33, R36 and the event registers bind the rest. -/
theorem Regs.Inv.close {r : Regs} (h : r.Inv) {a : FrameAsm} (ha : a.Inv) (hf : a.fstate = .idle) :
    Regs.Inv { r with asm := a } :=
  ⟨h.ones_le, h.clock, fun k => absurd hf k, fun k => absurd hf k, ha, h.events, h.irq⟩

theorem sendChar_inv {s : State} (h : s.regs.Inv) (hf : s.regs.asm.fstate = .address)
    (hc : s.regs.asm.chars.toNat ≠ 6) (hroom : ¬(s.regs.asm.chars.toNat = 0 ∧ s.regs.asm.naddr.toNat = 10))
    (d : Byte) : (sendChar d s).regs.Inv := by
  rw [sendChar_eq d s h.asm.hold_zero]
  exact sendData_inv _ s _ h (by simp [hf]) (h.asm.nextChar hf hc hroom)

theorem completeCallsign_inv {s : State} (h : s.regs.Inv) (hf : s.regs.asm.fstate = .address)
    (hroom : ¬(s.regs.asm.chars.toNat = 0 ∧ s.regs.asm.naddr.toNat = 10)) (d : Byte) :
    (completeCallsign d s).regs.Inv := by
  rw [completeCallsign_eq d s h.asm.hold_zero]
  exact sendData_inv _ s _ h (by simp [hf]) (h.asm.nextAddress hf hroom d)

theorem sendHeader_inv {s : State} (h : s.regs.Inv) (hf : s.regs.asm.fstate = .address)
    (hc : s.regs.asm.chars.toNat = 0) (hn : 2 ≤ s.regs.asm.naddr.toNat) : (sendHeader s).regs.Inv := by
  rw [sendHeader_eq]
  exact sendData_inv _ s _ h (by simp [hf]) (h.asm.enterInfo hc hn)

/-- FR.BEGIN's preamble is sent from registers FR.BEGIN has just set (R184, R344). -/
theorem beginFrame_inv {s : State} (h : s.regs.Inv) :
    (setPhase .address (sendPreamble (frameInit s))).regs.Inv := by
  rw [sendPreamble_frameInit, sendLine_eq]
  have hready : SynthReady (frameInit s).regs.setup.srate (frameInit s).regs.synth :=
    ⟨Regs.reset_inv.clock, fun hr => hr⟩
  refine sent_inv hready (fun _ => rfl) ?_ _ rfl rfl (Nat.zero_le 4) FrameAsm.begun_inv h.events h.irq
  simp

/-- FR.END leaves the line coder and the clock as the closing flag does, and the frame closed (R187). -/
theorem endFrame_inv {s : State} (h : s.regs.Inv) (hf : s.regs.asm.fstate = .info) (f : BitVec 16) :
    (closeFrame f (sendTrailer f s)).regs.Inv := by
  have hones := runAfter_le s.regs.line.ones.toNat (bitsOf [fcsLow f, fcsHigh f]) h.ones_le
  have hready := h.ready (r := s.regs) (by simp [hf])
  rw [sendTrailer_eq f s h.ones_le, sendLine_eq]
  refine ⟨?_, (synthAfter_ready _ _ _ hready).clock, fun k => absurd rfl k, fun k => absurd rfl k,
    h.asm.leaveInfo hf, ⟨h.events.clear, h.events.named⟩, rfl⟩
  show (BitVec.ofNat 3 _).toNat ≤ 4
  rw [ofNat3_toNat hones]
  exact hones

/-! ## Commands -/

/-- A command raises no error exactly where its phase accepts it and none of R302's other conditions holds. -/
theorem errorOf_eq_none_iff {i : Instr} {r : Regs} :
    errorOf i r = none ↔ acceptedIn i r.asm.fstate = true ∧ callsignError i r.asm = false ∧
      countError i r.asm = false ∧ checksumError i r.crc = false := by
  unfold errorOf
  split_ifs <;> simp_all

theorem commandEffect_inv {i : Instr} {s : State} (h : s.regs.Inv) (hok : errorOf i s.regs = none) :
    (commandEffect i s).regs.Inv := by
  obtain ⟨hphase, hcall, hcount, -⟩ := errorOf_eq_none_iff.mp hok
  cases i
  case nop | crcCheck | txSilence | mmioRd | mmioWr => exact h
  case crcInit | crcBit | crcByte | crcDigest => exact h.set_crc_result _ _
  case frAbort => exact h.close FrameAsm.closed_inv rfl
  case addrCh d =>
    exact sendChar_inv h (of_decide_eq_true hphase) (of_decide_eq_false hcall) (by simpa [countError] using hcount) d
  case addrSsid d =>
    exact completeCallsign_inv h (of_decide_eq_true hphase) (by simpa [countError] using hcount) d
  case frHdr =>
    exact sendHeader_inv h (of_decide_eq_true hphase) (Nat.eq_zero_of_not_pos (of_decide_eq_false hcall))
      (Nat.le_of_not_lt (of_decide_eq_false hcount))
  case frBegin => exact beginFrame_inv h
  case frInfo d =>
    have hf : s.regs.asm.fstate = .info := of_decide_eq_true hphase
    exact sendData_inv [d] s s.regs.asm h (by simp [hf]) h.asm
  case frEnd => exact endFrame_inv h (of_decide_eq_true hphase) _

/-- Every error a command raises names a cause (R302). -/
theorem errorOf_ne_none_cause {i : Instr} {r : Regs} {c : Cause} (h : errorOf i r = some c) : c ≠ .none := by
  unfold errorOf at h
  split_ifs at h <;> cases h <;> decide

theorem commandResult_inv {s : State} (h : s.regs.Inv) (i : Instr) : (commandResult i s).regs.Inv := by
  cases he : errorOf i s.regs with
  | some c =>
    rw [commandResult_of_error he]
    exact raiseError_inv h c (errorOf_ne_none_cause he) _
  | none =>
    rw [commandResult_of_ok he]
    exact commandEffect_inv h he

/-! ## Host accesses -/

theorem executeWord_inv {w : Word} {s t : State} (hs : s.regs.Inv) (h : executeWord w s = .next t) : t.regs.Inv := by
  rcases executeWord_cases h with rfl | ⟨i, rfl⟩
  · exact raiseError_inv hs .illegalCommand (by decide) w
  · exact commandResult_inv hs i

/-- A host write keeps the invariant once IRQ is recomputed: EVENT and CTRL are what IRQ depends on (R55, R315). -/
theorem writeReg_inv {n : RegName} {v : Word} {s t : State} (hs : s.regs.Inv) (h : writeReg n v s = .next t) :
    (updateIrq t).regs.Inv := by
  rcases writeReg_cases h with hw | rfl | ⟨c, rfl⟩ | rfl | rfl
  · exact updateIrq_inv (executeWord_inv hs hw)
  · exact ⟨hs.ones_le, hs.clock, hs.phase, hs.exact_, hs.asm, Events.clear_inv hs.events v, rfl⟩
  · exact ⟨hs.ones_le, hs.clock, hs.phase, hs.exact_, hs.asm, hs.events, rfl⟩
  · exact updateIrq_inv (writeSetup_inv hs n v)
  · exact updateIrq_inv hs

/-- Every instruction keeps the registers' invariant. -/
theorem exec_inv {i : Instr} {s t : State} (hs : s.regs.Inv) (h : exec i s = .next t) : t.regs.Inv := by
  rcases exec_cases h with rfl | ⟨v, rfl⟩ | ⟨n, v, u, hw, rfl⟩
  · exact commandResult_inv hs i
  · exact hs
  · exact writeReg_inv hs hw

/-! ## The ports -/

/-- An access executed between commands: complete with no record left, or in progress with its registers kept apart. -/
theorem settle_inv {s t : State} (hs : s.regs.Inv) (ht : t.regs.Inv) (ha : t.after = none) : (settle s t).Inv := by
  by_cases ho : t.offers = []
  · rw [settle_empty ho]
    exact ⟨ht, fun r k => (nomatch ha.symm.trans k), by simp [State.busy, ha, ho]⟩
  · rw [settle_nonempty ho]
    exact ⟨hs, fun r k => Option.some.inj k ▸ ht, by simp [State.busy, ho]⟩

theorem serve_inv {a : Access} {s t : State} (hs : s.regs.Inv) (ha : s.after = none) (h : serve a s = .next t) :
    t.Inv := by
  cases hd : decodeAccess a with
  | error e =>
    unfold serve at h
    rw [hd] at h
    cases h
  | ok i =>
    rw [serve_ok hd] at h
    obtain ⟨u, hx, rfl⟩ := onNext_next.mp h
    exact settle_inv hs (exec_inv hs hx) ((exec_ports hx).after.trans ha)

/-- The registers of the command in progress come into place with its last record (R81). -/
theorem finishCommand_inv {s : State} (hs : s.regs.Inv) (ha : ∀ r, s.after = some r → r.Inv) (ho : s.offers = []) :
    (finishCommand s).Inv := by
  unfold finishCommand
  split
  · rename_i hn
    exact ⟨hs, ha, by simp [State.busy, hn, ho]⟩
  · rename_i r hr
    exact ⟨ha r hr, fun _ k => (nomatch k), by simp [State.busy, ho]⟩

theorem sinkAccept_inv {s : State} (h : s.Inv) : (sinkAccept s).Inv := by
  unfold sinkAccept
  split
  · exact h
  · rename_i rec rest ho
    split
    · rename_i hr
      exact finishCommand_inv h.regs h.after (List.isEmpty_iff.mp hr)
    · rename_i hr
      have hbusy := h.port
      rw [ho] at hbusy
      exact ⟨h.regs, h.after, by simpa [State.busy, hr] using hbusy⟩

theorem resetBlock_inv (s : State) : (resetBlock s).Inv :=
  ⟨Regs.reset_inv, fun _ k => (nomatch k), rfl⟩

/-- What the host and the sink will do is bound by no invariant. -/
theorem State.Inv.set_host {s : State} (h : s.Inv) (w : List Access) (x : List Stimulus) :
    State.Inv { s with waiting := w, stimuli := x } := ⟨h.regs, h.after, h.port⟩

/-- Settles O56, over what a step can do: nothing, stall, accept a record, reset, or execute an access. -/
theorem stepKeepsInvariant : Obligations.StepKeepsInvariant := by
  intro s t hs h
  rcases step_cases h with ⟨-, rfl⟩ | ⟨a, rest, -, -, rfl⟩ | ⟨rest, -, rfl⟩ | ⟨rest, -, -, rfl⟩ |
    ⟨a, rest, hfree, -, -, hserve⟩ | ⟨a, as, hfree, -, -, hserve⟩
  · exact hs
  · exact hs.set_host _ _
  · exact sinkAccept_inv (hs.set_host _ _)
  · exact resetBlock_inv _
  · exact serve_inv (s := { s with stimuli := rest }) hs.regs (busy_false_iff.mp hfree) hserve
  · exact serve_inv (s := { s with waiting := as }) hs.regs (busy_false_iff.mp hfree) hserve

end Sys2Proof.Machine
end

section
/-! PROOFS. The bus port: which accesses are accepted (R84), how an access is served or stalls (R81, R89), and how the
sink's acceptances complete a command (R250, R354). -/

namespace Sys2Proof.Machine

/-! ## The accesses R84 accepts -/

theorem busAccepts_iff {width off : Nat} : busAccepts width off = true ↔ width = 32 ∧ off % 4 = 0 ∧ off ≤ 0x3C := by
  simp [busAccepts, and_assoc]

/-- There is a register at every offset R84 accepts (R45). -/
theorem ofOffset_isSome : ∀ off < 64, off % 4 = 0 → (RegName.ofOffset off).isSome = true := by decide

theorem selectReg_accepted {width off : Nat} (h : busAccepts width off = true) :
    ∃ n, selectReg width off = some n := by
  obtain ⟨-, haligned, hle⟩ := busAccepts_iff.mp h
  rw [selectReg, if_pos h]
  exact Option.isSome_iff_exists.mp (ofOffset_isSome off (Nat.lt_succ_of_le (hle.trans (by decide))) haligned)

theorem selectReg_refused {width off : Nat} (h : ¬busAccepts width off = true) : selectReg width off = none :=
  if_neg h

theorem executeWord_next (w : Word) (s : State) : ∃ t, executeWord w s = .next t := by
  unfold executeWord
  cases hd : decodeWord w with
  | error e => exact ⟨_, rfl⟩
  | ok i =>
    have hi : i.isCommand = true := (decodeWord_ok hd).2.1
    exact ⟨_, (runCommand_eq_exec hi s).trans (exec_command hi s)⟩

theorem writeReg_next (n : RegName) (v : Word) (s : State) : ∃ t, writeReg n v s = .next t := by
  cases n
  case cmd => exact executeWord_next v s
  all_goals exact ⟨_, rfl⟩

theorem exec_mmioRd_accepted {width off : Nat} (h : busAccepts width off = true) (s : State) :
    ∃ t, exec (.mmioRd width off) s = .next t := by
  obtain ⟨n, hn⟩ := selectReg_accepted h
  refine ⟨{ s with reads := s.reads ++ [readReg n s.regs] }, ?_⟩
  show execMmioRd width off s = _
  simp only [execMmioRd, hn]

theorem exec_mmioWr_accepted {width off : Nat} (h : busAccepts width off = true) (v : Word) (s : State) :
    ∃ t, exec (.mmioWr width off v) s = .next t := by
  obtain ⟨n, hn⟩ := selectReg_accepted h
  obtain ⟨t, ht⟩ := writeReg_next n v s
  refine ⟨updateIrq t, ?_⟩
  show execMmioWr width off v s = _
  simp only [execMmioWr, hn, ht, onNext]

theorem exec_mmioRd_refused {width off : Nat} (h : ¬busAccepts width off = true) (s : State) :
    exec (.mmioRd width off) s = .fault .busError := by
  show execMmioRd width off s = _
  simp only [execMmioRd, selectReg_refused h]

theorem exec_mmioWr_refused {width off : Nat} (h : ¬busAccepts width off = true) (v : Word) (s : State) :
    exec (.mmioWr width off v) s = .fault .busError := by
  show execMmioWr width off v s = _
  simp only [execMmioWr, selectReg_refused h]

/-- Settles O43, by whether R84 accepts the access. -/
theorem unacceptedAccessIsBusError : Obligations.UnacceptedAccessIsBusError := by
  refine fun width off v s => ⟨fun hnot => ?_, fun hwidth haligned hle => ?_⟩
  · have h : ¬busAccepts width off = true := mt busAccepts_iff.mp hnot
    exact ⟨exec_mmioRd_refused h s, exec_mmioWr_refused h v s⟩
  · have h : busAccepts width off = true := busAccepts_iff.mpr ⟨hwidth, haligned, hle⟩
    exact ⟨exec_mmioRd_accepted h s, exec_mmioWr_accepted h v s⟩

/-! ## Which of its three forms a step takes -/

theorem step_of_busy {s : State} (h : s.busy = true) : step s = stepBusy s := if_pos h

theorem step_of_stalled {s : State} {a : Access} {as : List Access} (hfree : s.busy = false) (hw : s.waiting = a :: as) :
    step s = stepStalled a as s := by
  simp [step, hfree, hw]

theorem step_of_free {s : State} (hfree : s.busy = false) (hw : s.waiting = []) : step s = stepFree s := by
  simp [step, hfree, hw]

/-- In mid-command, or with none stalled, it is no stalled access's turn. -/
theorem step_of_no_stalled_turn {s : State} (hturn : s.busy = true ∨ s.waiting = []) :
    step s = stepBusy s ∨ step s = stepFree s := by
  cases hb : s.busy with
  | true => exact .inl (step_of_busy hb)
  | false => exact .inr (step_of_free hb (hturn.resolve_left (by simp [hb])))

theorem step_busy_access {s : State} {a : Access} {rest : List Stimulus} (h : s.busy = true)
    (hs : s.stimuli = .access a :: rest) : step s = .next { s with stimuli := rest, waiting := s.waiting ++ [a] } := by
  simp only [step_of_busy h, stepBusy, hs]

/-- Settles O50: this is the access's case of a step in mid-command. -/
theorem accessStallsWhileCommandRuns : Obligations.AccessStallsWhileCommandRuns :=
  fun _ _ _ => step_busy_access

/-- The sink's act is taken in mid-command and between commands alike (R250). -/
theorem step_sinkReady {s : State} {rest : List Stimulus} (hturn : s.busy = true ∨ s.waiting = [])
    (hs : s.stimuli = .sinkReady :: rest) : step s = .next (sinkAccept { s with stimuli := rest }) := by
  rcases step_of_no_stalled_turn hturn with h | h
  · simp only [h, stepBusy, hs]
  · simp only [h, stepFree, hs]

/-- Between commands with none stalled, the access presented is served (R89). -/
theorem step_presented {s : State} {a : Access} {rest : List Stimulus} (hfree : s.busy = false) (hw : s.waiting = [])
    (hs : s.stimuli = .access a :: rest) : step s = serve a { s with stimuli := rest } := by
  simp only [step_of_free hfree hw, stepFree, hs]

/-- Between commands the oldest stalled access is served, unless reset comes first (R89, R341). -/
theorem step_stalled {s : State} {a : Access} {as : List Access} (hfree : s.busy = false) (hw : s.waiting = a :: as)
    (hreset : s.stimuli.head? ≠ some .reset) : step s = serve a { s with waiting := as } := by
  rw [step_of_stalled hfree hw, stepStalled]
  split
  next hs => simp [hs] at hreset
  all_goals rfl

/-- With nothing to do and none stalled the state stays (R325, R355). -/
theorem step_idle {s : State} (hturn : s.busy = true ∨ s.waiting = []) (hs : s.stimuli = []) : step s = .next s := by
  rcases step_of_no_stalled_turn hturn with h | h
  · simp only [h, stepBusy, hs]
  · simp only [h, stepFree, hs]

/-! ## Serving an access -/

theorem serve_next {a : Access} {i : Instr} {s t : State} (hd : decodeAccess a = .ok i) (hx : exec i s = .next t) :
    serve a s = .next (settle s t) := by
  rw [serve_ok hd, hx]
  rfl

/-- An access served completes at once, or its command is in progress with its registers kept apart (R81). -/
theorem serve_settled {a : Access} {i : Instr} {s t : State} (hd : decodeAccess a = .ok i) (hx : exec i s = .next t) :
    (t.offers = [] → serve a s = .next { t with irqLog := t.irqLog ++ [t.regs.irq] }) ∧
    (t.offers ≠ [] → serve a s = .next { t with regs := s.regs, after := some t.regs }) := by
  rw [serve_next hd hx]
  exact ⟨fun ho => congrArg _ (settle_empty ho), fun ho => congrArg _ (settle_nonempty ho)⟩

/-- Settles O48: the step serves the access whose turn it is. -/
theorem stepRunsDecodedAccess : Obligations.StepRunsDecodedAccess := by
  intro s t a i hafter hd
  have hfree : s.busy = false := busy_false_iff.mpr hafter
  refine ⟨fun rest hw hs hx => ?_, fun as hw hreset hx => ?_⟩
  · rw [step_presented hfree hw hs]
    exact serve_settled hd hx
  · rw [step_stalled hfree hw hreset]
    exact serve_settled hd hx

@[simp] theorem settle_waiting (s t : State) : (settle s t).waiting = t.waiting := by
  unfold settle
  split <;> rfl

@[simp] theorem settle_stimuli (s t : State) : (settle s t).stimuli = t.stimuli := by
  unfold settle
  split <;> rfl

/-- An accepted access is an instruction that goes on (R84). -/
theorem exec_accepted {a : Access} (h : a.accepted = true) (s : State) :
    ∃ i t, decodeAccess a = .ok i ∧ exec i s = .next t := by
  cases a with
  | read width off =>
    obtain ⟨t, ht⟩ := exec_mmioRd_accepted h s
    exact ⟨_, t, if_pos h, ht⟩
  | write width off v =>
    obtain ⟨t, ht⟩ := exec_mmioWr_accepted h v s
    exact ⟨_, t, if_pos h, ht⟩

/-- An accepted access is served, and what the host does next is left as it was. -/
theorem serve_accepted {a : Access} (h : a.accepted = true) (s : State) :
    ∃ t, serve a s = .next t ∧ t.waiting = s.waiting ∧ t.stimuli = s.stimuli := by
  obtain ⟨i, u, hd, hx⟩ := exec_accepted h s
  exact ⟨settle s u, serve_next hd hx, (settle_waiting s u).trans (exec_ports hx).waiting,
    (settle_stimuli s u).trans (exec_ports hx).stimuli⟩

/-! ## The sink takes a record -/

/-- Before the last record the command stays in progress (R250). -/
theorem sinkAccept_more {s : State} {x y : Sample} {xs : List Sample} (h : s.offers = x :: y :: xs) :
    sinkAccept s = { s with offers := y :: xs, accepted := s.accepted ++ [x] } := by
  simp [sinkAccept, h]

/-- The last record completes the command (R81, R250). -/
theorem sinkAccept_last {s : State} {x : Sample} {r : Regs} (h : s.offers = [x]) (ha : s.after = some r) :
    sinkAccept s =
      { s with
        regs := r, after := none, offers := [], accepted := s.accepted ++ [x], irqLog := s.irqLog ++ [r.irq] } := by
  simp [sinkAccept, h, finishCommand, ha, completeAccess]

theorem finishCommand_host (s : State) :
    (finishCommand s).waiting = s.waiting ∧ (finishCommand s).stimuli = s.stimuli := by
  unfold finishCommand
  split <;> exact ⟨rfl, rfl⟩

theorem sinkAccept_host (s : State) : (sinkAccept s).waiting = s.waiting ∧ (sinkAccept s).stimuli = s.stimuli := by
  unfold sinkAccept
  split
  · exact ⟨rfl, rfl⟩
  · split
    · exact finishCommand_host _
    · exact ⟨rfl, rfl⟩

/-- The step that takes a record and leaves others. -/
theorem step_takes_record {s : State} {x y : Sample} {xs : List Sample} {rest : List Stimulus} (hb : s.busy = true)
    (ho : s.offers = x :: y :: xs) (hs : s.stimuli = .sinkReady :: rest) :
    step s = .next { s with offers := y :: xs, accepted := s.accepted ++ [x], stimuli := rest } :=
  (step_sinkReady (.inl hb) hs).trans (congrArg Host.Outcome.next (sinkAccept_more ho))

/-- The step that takes the last record. -/
theorem step_takes_last {s : State} {x : Sample} {r : Regs} {rest : List Stimulus} (ha : s.after = some r)
    (ho : s.offers = [x]) (hs : s.stimuli = .sinkReady :: rest) :
    step s = .next { s with
      regs := r, after := none, offers := [], accepted := s.accepted ++ [x], irqLog := s.irqLog ++ [r.irq],
      stimuli := rest } :=
  (step_sinkReady (.inl (busy_true_iff.mpr ⟨r, ha⟩)) hs).trans (congrArg Host.Outcome.next (sinkAccept_last ho ha))

/-- Settles O53, by induction on the records offered: each step takes one, the last completes the command. -/
theorem commandCompletesWhenSinkAccepts : Obligations.CommandCompletesWhenSinkAccepts := by
  intro s r rest hafter hne hstim
  generalize ho : s.offers = recs at hne hstim ⊢
  induction recs generalizing s with
  | nil => exact absurd rfl hne
  | cons x xs ih =>
    cases xs with
    | nil => exact run_next (step_takes_last hafter ho hstim) 0
    | cons y ys =>
      have hbusy : s.busy = true := busy_true_iff.mpr ⟨r, hafter⟩
      have hstep := run_next (step_takes_record hbusy ho hstim) (y :: ys).length
      refine (hstep.trans (ih _ ?_ rfl (List.cons_ne_nil y ys) rfl)).trans ?_
      · exact hafter
      · simp only [List.append_assoc, List.singleton_append]

/-! ## A host whose accesses are all accepted -/

/-- The act stops no machine: an acceptance of the sink, or an access R84 accepts. -/
def Stimulus.Harmless (x : Stimulus) : Prop := x = .sinkReady ∨ ∃ a, x = .access a ∧ a.accepted = true

/-- Every stalled access is accepted and every act to come is harmless. -/
structure HarmlessHost (waiting : List Access) (stimuli : List Stimulus) : Prop where
  waiting : ∀ a ∈ waiting, a.accepted = true
  stimuli : ∀ x ∈ stimuli, x.Harmless

/-- The oldest stalled access and the others. -/
theorem HarmlessHost.serve_oldest {a : Access} {as : List Access} {xs : List Stimulus}
    (h : HarmlessHost (a :: as) xs) : a.accepted = true ∧ HarmlessHost as xs :=
  ⟨h.waiting a List.mem_cons_self, fun b hb => h.waiting b (List.mem_cons_of_mem a hb), h.stimuli⟩

/-- The next act and the others. -/
theorem HarmlessHost.next_act {as : List Access} {x : Stimulus} {xs : List Stimulus} (h : HarmlessHost as (x :: xs)) :
    x.Harmless ∧ HarmlessHost as xs :=
  ⟨h.stimuli x List.mem_cons_self, h.waiting, fun y hy => h.stimuli y (List.mem_cons_of_mem x hy)⟩

/-- An accepted access may join the stalled ones. -/
theorem HarmlessHost.stall {a : Access} {as : List Access} {xs : List Stimulus} (h : HarmlessHost as xs)
    (ha : a.accepted = true) : HarmlessHost (as ++ [a]) xs := by
  refine ⟨fun b hb => ?_, h.stimuli⟩
  rcases List.mem_append.mp hb with hb | hb
  · exact h.waiting b hb
  · rw [List.mem_singleton.mp hb]
    exact ha

theorem HarmlessHost.head_ne_reset {as : List Access} {xs : List Stimulus} (h : HarmlessHost as xs) :
    xs.head? ≠ some .reset := by
  intro hx
  rcases h.stimuli _ (List.mem_of_mem_head? hx) with hr | ⟨a, hr, -⟩ <;> cases hr

/-- Serving an accepted access goes on to a state whose host is as harmless as the one it is served in. -/
theorem serve_harmless {a : Access} {s : State} (ha : a.accepted = true) (h : HarmlessHost s.waiting s.stimuli) :
    ∃ t, serve a s = .next t ∧ HarmlessHost t.waiting t.stimuli := by
  obtain ⟨t, ht, hw, hx⟩ := serve_accepted ha s
  exact ⟨t, ht, by rwa [hw, hx]⟩

/-- With no stalled access's turn, a harmless host's next act is taken, or there is none. -/
theorem step_harmless_act {s : State} (hturn : s.busy = true ∨ s.waiting = []) (h : HarmlessHost s.waiting s.stimuli) :
    ∃ t, step s = .next t ∧ HarmlessHost t.waiting t.stimuli := by
  cases hs : s.stimuli with
  | nil => exact ⟨s, step_idle hturn hs, h⟩
  | cons x rest =>
    rw [hs] at h
    obtain ⟨hx, hrest⟩ := h.next_act
    obtain rfl | ⟨a, rfl, ha⟩ := hx
    · obtain ⟨hw, hx⟩ := sinkAccept_host { s with stimuli := rest }
      exact ⟨_, step_sinkReady hturn hs, by rwa [hw, hx]⟩
    · cases hb : s.busy with
      | true => exact ⟨_, step_busy_access hb hs, hrest.stall ha⟩
      | false =>
        rw [step_presented hb (hturn.resolve_left (by simp [hb])) hs]
        exact serve_harmless ha hrest

theorem step_harmless {s : State} (h : HarmlessHost s.waiting s.stimuli) :
    ∃ t, step s = .next t ∧ HarmlessHost t.waiting t.stimuli := by
  cases hb : s.busy with
  | true => exact step_harmless_act (.inl hb) h
  | false =>
    cases hw : s.waiting with
    | nil => exact step_harmless_act (.inr hw) h
    | cons a as =>
      rw [step_stalled hb hw h.head_ne_reset]
      rw [hw] at h
      obtain ⟨ha, has⟩ := h.serve_oldest
      exact serve_harmless ha has

/-- Settles O59: a step from a harmless host goes on to a harmless host. -/
theorem acceptedAccessesNeverFault : Obligations.AcceptedAccessesNeverFault := by
  intro s hw hx
  obtain ⟨t, ht, hhost⟩ := step_harmless ⟨hw, hx⟩
  exact ⟨t, ht, hhost.waiting, hhost.stimuli⟩

end Sys2Proof.Machine
end

section
/-! PROOFS. The operand form of every opcode (R102, R104), the decoder as a read of that form, and with it: decode and
encode are inverse. -/

namespace Sys2Proof

/-! ## Operand forms (R102) -/

/-- An operand form of R102 with the command its operand gives; forms N24 and H both read the whole IMM field. -/
inductive OperandForm where
  | z (i : Instr)
  | b1 (f : Bool → Instr)
  | b8 (f : Byte → Instr)
  | whole (f : BitVec 24 → Instr)

/-- How many low bits of IMM the form reads; the others must be zero (R102). -/
def OperandForm.width : OperandForm → Nat
  | .z _ => 0
  | .b1 _ => 1
  | .b8 _ => 8
  | .whole _ => 24

/-- The command of an IMM field whose must-be-zero bits are zero. -/
def OperandForm.instr : OperandForm → BitVec 24 → Instr
  | .z i, _ => i
  | .b1 f, imm => f (imm.getLsbD 0)
  | .b8 f, imm => f (imm.setWidth 8)
  | .whole f, imm => f imm

/-- What the form makes of an IMM field (R102, R107). -/
def OperandForm.read (f : OperandForm) (imm : BitVec 24) : Except DecodeError Instr :=
  if imm.toNat < 2 ^ f.width then .ok (f.instr imm) else .error .reservedOperandBits

/-- The opcode map of R104: a listed opcode's operand form. -/
def formOf : Nat → Option OperandForm
  | 0x00 => some (.whole .nop)
  | 0x10 => some (.z .crcInit)
  | 0x11 => some (.b1 .crcBit)
  | 0x12 => some (.b8 .crcByte)
  | 0x13 => some (.z .crcDigest)
  | 0x14 => some (.z .crcCheck)
  | 0x20 => some (.b8 .addrCh)
  | 0x21 => some (.b8 .addrSsid)
  | 0x30 => some (.z .frBegin)
  | 0x31 => some (.z .frHdr)
  | 0x32 => some (.b8 .frInfo)
  | 0x33 => some (.z .frEnd)
  | 0x34 => some (.z .frAbort)
  | 0x40 => some (.whole .txSilence)
  | _ => none

theorem OperandForm.read_ok (f : OperandForm) {imm : BitVec 24} (h : imm.toNat < 2 ^ f.width) :
    f.read imm = .ok (f.instr imm) := if_pos h

theorem OperandForm.read_reserved (f : OperandForm) {imm : BitVec 24} (h : 2 ^ f.width ≤ imm.toNat) :
    f.read imm = .error .reservedOperandBits := if_neg (Nat.not_lt.mpr h)

theorem formZ_eq_read (imm : BitVec 24) (i : Instr) : formZ imm i = (OperandForm.z i).read imm := by
  have h : imm = 0 ↔ imm.toNat < 2 ^ 0 := by
    rw [← BitVec.toNat_inj]
    simp
  simp only [formZ, h]
  rfl

theorem formB1_eq_read (imm : BitVec 24) (f : Bool → Instr) : formB1 imm f = (OperandForm.b1 f).read imm := by
  simp only [formB1, extract_high_zero imm 1 23 rfl]
  rfl

theorem formB8_eq_read (imm : BitVec 24) (f : Byte → Instr) : formB8 imm f = (OperandForm.b8 f).read imm := by
  have h : imm.extractLsb' 0 8 = imm.setWidth 8 := by
    apply BitVec.eq_of_toNat_eq
    simp [BitVec.extractLsb'_toNat]
  simp only [formB8, extract_high_zero imm 8 16 rfl, h]
  rfl

theorem formN24_eq_read (imm : BitVec 24) (f : BitVec 24 → Instr) : formN24 imm f = (OperandForm.whole f).read imm :=
  (OperandForm.read_ok (.whole f) imm.isLt).symm

/-! ## The decoder -/

/-- The decoder reads IMM in the form its opcode is listed with (R104, R106, R108). -/
theorem decodeWord_eq_read (w : Word) :
    decodeWord w = (formOf (w.toNat / 2 ^ 24)).elim (.error .reservedOpcode) (·.read (immField w)) := by
  simp only [decodeWord, opcField_toNat, formZ_eq_read, formB1_eq_read, formB8_eq_read, formN24_eq_read]
  generalize w.toNat / 2 ^ 24 = o
  split <;> simp only [formOf, *] <;> rfl

theorem decodeWord_of_form {w : Word} {f : OperandForm} (h : formOf (w.toNat / 2 ^ 24) = some f) :
    decodeWord w = f.read (immField w) := by
  rw [decodeWord_eq_read, h]
  rfl

theorem decodeWord_of_unlisted {w : Word} (h : formOf (w.toNat / 2 ^ 24) = none) :
    decodeWord w = .error .reservedOpcode := by
  rw [decodeWord_eq_read, h]
  rfl

theorem decodeWord_commandWord {o : BitVec 8} {imm : BitVec 24} {f : OperandForm} (h : formOf o.toNat = some f)
    (himm : imm.toNat < 2 ^ f.width) : decodeWord (commandWord o imm) = .ok (f.instr imm) := by
  rw [decodeWord_of_form (f := f), immField_commandWord, f.read_ok himm]
  rw [← opcField_toNat, opcField_commandWord, h]

theorem decodeWord_formZ (o : BitVec 8) {i : Instr} (h : formOf o.toNat = some (.z i)) :
    decodeWord (commandWord o 0) = .ok i :=
  decodeWord_commandWord h Nat.one_pos

theorem decodeWord_formB1 (o : BitVec 8) {f : Bool → Instr} (h : formOf o.toNat = some (.b1 f)) (b : Bool) :
    decodeWord (commandWord o ((BitVec.ofBool b).setWidth 24)) = .ok (f b) := by
  have hb : ((BitVec.ofBool b).setWidth 24).toNat < 2 ^ 1 := by cases b <;> decide
  rw [decodeWord_commandWord h hb]
  simp [OperandForm.instr]

theorem decodeWord_formB8 (o : BitVec 8) {f : Byte → Instr} (h : formOf o.toNat = some (.b8 f)) (d : Byte) :
    decodeWord (commandWord o (d.setWidth 24)) = .ok (f d) := by
  have hd : (d.setWidth 24).toNat < 2 ^ 8 := by
    rw [BitVec.toNat_setWidth_of_le (by decide)]
    exact d.isLt
  rw [decodeWord_commandWord h hd]
  simp [OperandForm.instr]

theorem decodeWord_whole (o : BitVec 8) {f : BitVec 24 → Instr} (h : formOf o.toNat = some (.whole f))
    (imm : BitVec 24) : decodeWord (commandWord o imm) = .ok (f imm) :=
  decodeWord_commandWord h imm.isLt

theorem decodeAccess_ok {a : Access} {i : Instr} (h : decodeAccess a = .ok i) :
    i.wellFormed = true ∧ encode i = .bus a := by
  cases a
  all_goals
    simp only [decodeAccess] at h
    split at h
    next haccepted =>
      cases h
      exact ⟨haccepted, rfl⟩
    next => cases h

theorem Instr.wellFormed_of_isCommand {i : Instr} (h : i.isCommand = true) : i.wellFormed = true := by
  cases i with
  | mmioRd => cases h
  | mmioWr => cases h
  | _ => rfl

/-- Settles O2: every command's word carries its opcode and an operand that fits the opcode's form. -/
theorem encodeThenDecodeGivesInstruction : Obligations.EncodeThenDecodeGivesInstruction := by
  intro i hwf
  cases i with
  | nop hint => exact decodeWord_whole 0x00 rfl hint
  | crcInit => exact decodeWord_formZ 0x10 rfl
  | crcBit b => exact decodeWord_formB1 0x11 rfl b
  | crcByte d => exact decodeWord_formB8 0x12 rfl d
  | crcDigest => exact decodeWord_formZ 0x13 rfl
  | crcCheck => exact decodeWord_formZ 0x14 rfl
  | addrCh d => exact decodeWord_formB8 0x20 rfl d
  | addrSsid d => exact decodeWord_formB8 0x21 rfl d
  | frBegin => exact decodeWord_formZ 0x30 rfl
  | frHdr => exact decodeWord_formZ 0x31 rfl
  | frInfo d => exact decodeWord_formB8 0x32 rfl d
  | frEnd => exact decodeWord_formZ 0x33 rfl
  | frAbort => exact decodeWord_formZ 0x34 rfl
  | txSilence n => exact decodeWord_whole 0x40 rfl n
  | mmioRd width off => exact if_pos hwf
  | mmioWr width off v => exact if_pos hwf

/-- Settles O3, by what a word and an access say when they decode. -/
theorem decodeThenEncodeGivesWord : Obligations.DecodeThenEncodeGivesWord := by
  intro e i h
  cases e with
  | word w =>
    obtain ⟨hencode, hcommand, -⟩ := decodeWord_ok h
    exact ⟨Instr.wellFormed_of_isCommand hcommand, hencode⟩
  | bus a => exact decodeAccess_ok h

/-- Settles O1: the decoder runs on the fourteen words. -/
theorem writtenOutWordsDecode : Obligations.WrittenOutWordsDecode := by
  unfold Obligations.WrittenOutWordsDecode
  decide

end Sys2Proof
end

section
/-! PROOFS. The rows of R105 against the operand forms: which words are commands, which are reserved (R106 to R108),
and what the write of a word to CMD does. -/

namespace Sys2Proof

open Sys2Proof.Machine

/-! ## The rows of R105 -/

/-- The row is that of opcode `o` in form `f`: its mask keeps every bit the form does not read. -/
structure OpcodeRow.HasForm (row : OpcodeRow) (o : BitVec 8) (f : OperandForm) : Prop where
  listed : formOf o.toNat = some f
  mask : row.mask = BitVec.allOnes 32 <<< f.width
  pattern : row.pattern = commandWord o 0
  mnemonic : ∀ imm, (f.instr imm).mnemonic = row.mnemonic

theorem opcodeTable_hasForm : ∀ row ∈ opcodeTable, ∃ o f, row.HasForm o f := by
  simp only [opcodeTable, List.forall_mem_cons]
  refine ⟨⟨0x00, .whole .nop, ?_⟩, ⟨0x10, .z .crcInit, ?_⟩, ⟨0x11, .b1 .crcBit, ?_⟩, ⟨0x12, .b8 .crcByte, ?_⟩,
    ⟨0x13, .z .crcDigest, ?_⟩, ⟨0x14, .z .crcCheck, ?_⟩, ⟨0x20, .b8 .addrCh, ?_⟩, ⟨0x21, .b8 .addrSsid, ?_⟩,
    ⟨0x30, .z .frBegin, ?_⟩, ⟨0x31, .z .frHdr, ?_⟩, ⟨0x32, .b8 .frInfo, ?_⟩, ⟨0x33, .z .frEnd, ?_⟩,
    ⟨0x34, .z .frAbort, ?_⟩, ⟨0x40, .whole .txSilence, ?_⟩, List.forall_mem_nil _⟩
  all_goals exact ⟨rfl, by decide, by decide, fun _ => rfl⟩

/-- Keeping the bits from `k` on clears the `k` low ones. -/
theorem toNat_and_high (w : Word) (k : Nat) :
    (w &&& BitVec.allOnes 32 <<< k).toNat + w.toNat % 2 ^ k = w.toNat := by
  have hle : w.toNat / 2 ^ k * 2 ^ k ≤ w.toNat := Nat.div_mul_le_self _ _
  rw [← BitVec.shiftLeft_ushiftRight, BitVec.toNat_shiftLeft, BitVec.toNat_ushiftRight, Nat.shiftRight_eq_div_pow,
    Nat.shiftLeft_eq, Nat.mod_eq_of_lt (hle.trans_lt w.isLt), Nat.div_add_mod']

theorem OperandForm.width_le (f : OperandForm) : f.width ≤ 24 := by
  cases f <;> simp [OperandForm.width]

/-- A word that matches a row has its opcode, and an operand that fits its form. -/
theorem OpcodeRow.HasForm.fields {row : OpcodeRow} {o : BitVec 8} {f : OperandForm} (h : row.HasForm o f) {w : Word}
    (hw : w &&& row.mask = row.pattern) : w.toNat / 2 ^ 24 = o.toNat ∧ (immField w).toNat < 2 ^ f.width := by
  have hsplit := toNat_and_high w f.width
  rw [← h.mask, hw, h.pattern, commandWord_toNat] at hsplit
  have hlow : w.toNat % 2 ^ f.width < 2 ^ f.width := Nat.mod_lt _ (Nat.two_pow_pos _)
  have hle : 2 ^ f.width ≤ 2 ^ 24 := Nat.pow_le_pow_right (by decide) f.width_le
  have hzero : (0 : BitVec 24).toNat = 0 := rfl
  rw [immField_toNat]
  omega

/-- A word that matches a row decodes to a command of the row's mnemonic (R105). -/
theorem decodeWord_of_row {row : OpcodeRow} (hrow : row ∈ opcodeTable) {w : Word} (hw : w &&& row.mask = row.pattern) :
    ∃ i, decodeWord w = .ok i ∧ i.mnemonic = row.mnemonic := by
  obtain ⟨o, f, h⟩ := opcodeTable_hasForm row hrow
  obtain ⟨hopc, himm⟩ := h.fields hw
  refine ⟨f.instr (immField w), ?_, h.mnemonic _⟩
  rw [decodeWord_of_form (f := f) (by rw [hopc, h.listed]), f.read_ok himm]

/-- The family CommandRow, for every constructor. -/
theorem commandRow : ∀ i : Instr, Laws.CommandRow.Statement i
  | .nop hint => Laws.CommandRow.nop hint
  | .crcInit => Laws.CommandRow.crcInit
  | .crcBit b => Laws.CommandRow.crcBit b
  | .crcByte d => Laws.CommandRow.crcByte d
  | .crcDigest => Laws.CommandRow.crcDigest
  | .crcCheck => Laws.CommandRow.crcCheck
  | .addrCh d => Laws.CommandRow.addrCh d
  | .addrSsid d => Laws.CommandRow.addrSsid d
  | .frBegin => Laws.CommandRow.frBegin
  | .frHdr => Laws.CommandRow.frHdr
  | .frInfo d => Laws.CommandRow.frInfo d
  | .frEnd => Laws.CommandRow.frEnd
  | .frAbort => Laws.CommandRow.frAbort
  | .txSilence n => Laws.CommandRow.txSilence n
  | .mmioRd width off => Laws.CommandRow.mmioRd width off
  | .mmioWr width off v => Laws.CommandRow.mmioWr width off v

/-- A word that decodes matches a row of its command's mnemonic (R105). -/
theorem row_of_decodeWord {w : Word} {i : Instr} (h : decodeWord w = .ok i) :
    ∃ row ∈ opcodeTable, w &&& row.mask = row.pattern ∧ i.mnemonic = row.mnemonic := by
  obtain ⟨-, hcommand, hword⟩ := decodeWord_ok h
  obtain ⟨row, hrow, hmnemonic, hcovers⟩ := commandRow i hcommand
  rw [hword] at hcovers
  exact ⟨row, hrow, beq_iff_eq.mp hcovers, hmnemonic.symm⟩

theorem opcodeTable_mnemonic_injective :
    ∀ row ∈ opcodeTable, ∀ row' ∈ opcodeTable, row.mnemonic = row'.mnemonic → row = row' := by
  decide

/-- Settles O4: two rows that match one word have the mnemonic of the one command it decodes to. -/
theorem wordIsCommandOfItsRow : Obligations.WordIsCommandOfItsRow := by
  intro w
  refine ⟨fun row hrow => decodeWord_of_row hrow, fun i => row_of_decodeWord, fun row hrow row' hrow' hw hw' => ?_⟩
  obtain ⟨i, hi, hmnemonic⟩ := decodeWord_of_row hrow hw
  obtain ⟨i', hi', hmnemonic'⟩ := decodeWord_of_row hrow' hw'
  obtain rfl : i = i' := Except.ok.inj (hi.symm.trans hi')
  exact opcodeTable_mnemonic_injective row hrow row' hrow' (hmnemonic.symm.trans hmnemonic')

/-! ## Reserved words -/

theorem mem_listedOpcodes_iff (o : Nat) : o ∈ listedOpcodes ↔ (formOf o).isSome = true := by
  unfold formOf
  split <;> simp_all [listedOpcodes]

/-- The three answers of the decoder (R106). -/
theorem decodeWord_cases (w : Word) :
    (formOf (w.toNat / 2 ^ 24) = none ∧ decodeWord w = .error .reservedOpcode) ∨
    ∃ f, formOf (w.toNat / 2 ^ 24) = some f ∧
      (decodeWord w = .ok (f.instr (immField w)) ∨ decodeWord w = .error .reservedOperandBits) := by
  cases hf : formOf (w.toNat / 2 ^ 24) with
  | none => exact .inl ⟨rfl, decodeWord_of_unlisted hf⟩
  | some f =>
    refine .inr ⟨f, rfl, ?_⟩
    rw [decodeWord_of_form hf]
    rcases Nat.lt_or_ge (immField w).toNat (2 ^ f.width) with h | h
    · exact .inl (f.read_ok h)
    · exact .inr (f.read_reserved h)

theorem decodes_iff_row (w : Word) :
    (∃ i, decodeWord w = .ok i) ↔ ∃ row ∈ opcodeTable, w &&& row.mask = row.pattern := by
  constructor
  · rintro ⟨i, hi⟩
    obtain ⟨row, hrow, hw, -⟩ := row_of_decodeWord hi
    exact ⟨row, hrow, hw⟩
  · rintro ⟨row, hrow, hw⟩
    obtain ⟨i, hi, -⟩ := decodeWord_of_row hrow hw
    exact ⟨i, hi⟩

/-- Settles O5: each of the decoder's three answers decides all three clauses. -/
theorem decodingIsTotal : Obligations.DecodingIsTotal := by
  intro w
  refine ⟨decodes_iff_row w, ?_⟩
  rw [← decodes_iff_row w, mem_listedOpcodes_iff]
  rcases decodeWord_cases w with ⟨hf, hd⟩ | ⟨f, hf, hd | hd⟩ <;> simp [hf, hd, -Nat.reducePow]

theorem decodeWord_reserved_operand {w : Word} {k : Nat}
    (hwidth : (formOf (w.toNat / 2 ^ 24)).map OperandForm.width = some k) (himm : 2 ^ k ≤ w.toNat % 2 ^ 24) :
    decodeWord w = .error .reservedOperandBits := by
  obtain ⟨f, hf, rfl⟩ := Option.map_eq_some_iff.mp hwidth
  rw [decodeWord_of_form hf]
  exact f.read_reserved (by rwa [immField_toNat])

theorem width_of_formZ :
    ∀ o ∈ [0x10, 0x13, 0x14, 0x30, 0x31, 0x33, 0x34], (formOf o).map OperandForm.width = some 0 := by decide

theorem width_of_formB8 : ∀ o ∈ [0x12, 0x20, 0x21, 0x32], (formOf o).map OperandForm.width = some 8 := by decide

/-- Settles O6: a reserved word does not decode, and CMD's write then is the error action. -/
theorem reservedWordsRaiseIllegalCommand : Obligations.ReservedWordsRaiseIllegalCommand := by
  rintro w s (hopc | ⟨hopc, himm⟩ | ⟨hopc, himm⟩ | ⟨hopc, himm⟩)
  · rw [mem_listedOpcodes_iff, Option.not_isSome_iff_eq_none] at hopc
    exact exec_cmdWrite_illegal (decodeWord_of_unlisted hopc) s
  · exact exec_cmdWrite_illegal (decodeWord_reserved_operand (width_of_formZ _ hopc) (Nat.pos_of_ne_zero himm)) s
  · exact exec_cmdWrite_illegal (decodeWord_reserved_operand (k := 1) (by rw [hopc]; rfl) himm) s
  · exact exec_cmdWrite_illegal (decodeWord_reserved_operand (width_of_formB8 _ hopc) himm) s

/-! ## The write of a command's word to CMD -/

theorem decodeAccess_cmdWrite (w : Word) :
    decodeAccess (.write 32 RegName.cmd.offset w) = .ok (.mmioWr 32 0x00 w) := rfl

/-- The step after `withFetchWord` serves the write of the word to CMD. -/
theorem step_withFetchWord (s : State) (nbits w : Nat) :
    step (s.withFetchWord nbits w) =
      serve (.write 32 RegName.cmd.offset (BitVec.ofNat 32 w)) { s with after := none, offers := [], waiting := [] } :=
  step_presented rfl rfl rfl

/-- Settles O49: CMD's write runs the command, and the step after `withFetchWord` serves that write and settles it. -/
theorem cmdWriteRunsCommand : Obligations.CmdWriteRunsCommand := by
  intro s t nbits w i _ hdecode
  refine ⟨fun hexec => ?_, fun u hexec => ?_⟩
  · rw [exec_cmdWrite hdecode, hexec]
    rfl
  · obtain ⟨hcomplete, hprogress⟩ := serve_settled (decodeAccess_cmdWrite _) hexec
    rw [step_withFetchWord]
    split
    next hempty => exact hcomplete hempty
    next hoffers => exact hprogress hoffers

end Sys2Proof
end

section
/-! PROOFS. The assembler (R110, R111): a command line is the write of its word, CALL and UIFRAME are their commands. -/

namespace Sys2Proof.Machine

/-- The word of a command decodes to it. -/
theorem decodeWord_wordOf {i : Instr} (h : i.isCommand = true) : decodeWord (wordOf i) = .ok i := by
  have hdecode := encodeThenDecodeGivesInstruction i (Instr.wellFormed_of_isCommand h)
  have hencode : encode i = .word (wordOf i) := by
    cases i with
    | mmioRd => cases h
    | mmioWr => cases h
    | _ => rfl
  rwa [hencode] at hdecode

/-- A byte operand is OR-ed into the word of its opcode (R105). -/
theorem commandWord_byte (o : BitVec 8) (d : Byte) :
    commandWord o (d.setWidth 24) = commandWord o 0 ||| d.setWidth 32 := by
  have hd : d.toNat < 2 ^ 24 := d.isLt.trans (by decide)
  apply BitVec.eq_of_toNat_eq
  rw [BitVec.toNat_or, commandWord_toNat, commandWord_toNat, BitVec.toNat_setWidth_of_le (by decide),
    BitVec.toNat_setWidth_of_le (by decide), Nat.mul_comm]
  exact Nat.two_pow_add_eq_or_of_lt hd o.toNat

theorem commandAccess_addrCh (d : Byte) :
    commandAccess (.addrCh d) = Access.write 32 0 (0x20000000 ||| d.setWidth 32) :=
  congrArg (Access.write 32 0) (commandWord_byte 0x20 d)

theorem commandAccess_addrSsid (d : Byte) :
    commandAccess (.addrSsid d) = Access.write 32 0 (0x21000000 ||| d.setWidth 32) :=
  congrArg (Access.write 32 0) (commandWord_byte 0x21 d)

theorem commandAccess_frInfo (d : Byte) :
    commandAccess (.frInfo d) = Access.write 32 0 (0x32000000 ||| d.setWidth 32) :=
  congrArg (Access.write 32 0) (commandWord_byte 0x32 d)

/-- The accesses of a `CALL` line (R111). -/
def callAccesses (c : Callsign) : List Access := (callInstrs c).map commandAccess

theorem Callsign.fits_iff (c : Callsign) : c.fits = true ↔ c.base.length ≤ 6 := decide_eq_true_iff

theorem assembleLine_call (rate : Nat) {c : Callsign} (h : c.base.length ≤ 6) :
    assembleLine rate (.call c) = some (callAccesses c) :=
  if_pos (c.fits_iff.mpr h)

theorem assembleLine_call_refused (rate : Nat) {c : Callsign} (h : 6 < c.base.length) :
    assembleLine rate (.call c) = none :=
  if_neg (fun hfits => Nat.not_le.mpr h (c.fits_iff.mp hfits))

theorem callAccesses_eq (c : Callsign) :
    callAccesses c =
      c.base.map (fun d => Access.write 32 0 (0x20000000 ||| d.setWidth 32)) ++
        [Access.write 32 0 (0x21000000 ||| c.ssid.setWidth 32)] := by
  simp [callAccesses, callInstrs, Function.comp_def, commandAccess_addrCh, commandAccess_addrSsid]

/-- Lines of callsigns that fit are assembled one by one. -/
theorem mapM_assembleLine_call (rate : Nat) {cs : List Callsign} (h : ∀ c ∈ cs, c.base.length ≤ 6) :
    cs.mapM (fun c => assembleLine rate (.call c)) = some (cs.map callAccesses) := by
  induction cs with
  | nil => rfl
  | cons c cs ih =>
    obtain ⟨hc, hcs⟩ := List.forall_mem_cons.mp h
    simp [List.mapM_cons, assembleLine_call rate hc, ih hcs]

theorem assembleLine_uiFrame (rate : Nat) {dst src : Callsign} {path : List Callsign} (text : List Byte)
    (hfits : ∀ c ∈ dst :: src :: path, c.base.length ≤ 6) (hpath : path.length ≤ 8) :
    assembleLine rate (.uiFrame dst src path text) = some ((uiFrameInstrs dst src path text).map commandAccess) := by
  have hall : (dst :: src :: path).all Callsign.fits = true :=
    List.all_eq_true.mpr fun c hc => c.fits_iff.mpr (hfits c hc)
  exact if_pos (Bool.and_eq_true_iff.mpr ⟨hall, decide_eq_true hpath⟩)

theorem accesses_of_calls (cs : List Callsign) :
    (cs.flatMap callInstrs).map commandAccess = (cs.map callAccesses).flatten := by
  rw [List.map_flatMap, List.flatMap_def]
  rfl

theorem accesses_of_info (text : List Byte) :
    (infoInstrs text).map commandAccess = text.map fun d => Access.write 32 0 (0x32000000 ||| d.setWidth 32) := by
  simp [infoInstrs, Function.comp_def, commandAccess_frInfo]

theorem accesses_of_uiFrame (dst src : Callsign) (path : List Callsign) (text : List Byte) :
    (uiFrameInstrs dst src path text).map commandAccess =
      [Access.write 32 0 0x30000000] ++ ((dst :: src :: path).map callAccesses).flatten ++
        [Access.write 32 0 0x31000000] ++ text.map (fun d => Access.write 32 0 (0x32000000 ||| d.setWidth 32)) ++
        [Access.write 32 0 0x33000000] := by
  simp only [uiFrameInstrs, List.map_append, accesses_of_calls, accesses_of_info]
  rfl

/-- Settles O60, line by line. -/
theorem assemblerWritesCommandWords : Obligations.AssemblerWritesCommandWords := by
  refine fun rate i dst src path text => ⟨fun hi => ?_, fun hbase => ?_, fun hbase => ?_, fun hfits hpath => ?_⟩
  · exact ⟨wordOf i, if_pos hi, decodeWord_wordOf hi⟩
  · rw [assembleLine_call rate hbase, callAccesses_eq]
  · exact assembleLine_call_refused rate hbase
  · refine ⟨_, mapM_assembleLine_call rate hfits, ?_⟩
    rw [assembleLine_uiFrame rate text hfits hpath, accesses_of_uiFrame]

end Sys2Proof.Machine
end

section
/-! PROOFS. The CRC register as bits (R131, R137 to R140): CrcBit is linear and injective, and a word fed to the register
is the word exclusive-ored into it. -/

namespace Sys2Proof.Machine

/-! ## One bit -/

/-- What the feedback bit, old bit 0 against the bit fed, exclusive-ors into the shifted register (R131). -/
def crcFeedback (x : Bool) : BitVec 16 := if x then Config.poly else 0

theorem crcFeedback_xor : ∀ x y : Bool, crcFeedback (x ^^ y) = crcFeedback x ^^^ crcFeedback y := by decide

theorem crcBit_eq_feedback (c : BitVec 16) (b : Bool) :
    crcBit c b = c >>> 1 ^^^ crcFeedback (c.getLsbD 0 ^^ b) := by
  unfold crcBit crcFeedback
  cases c.getLsbD 0 <;> cases b <;> simp

/-- CrcBit is linear in the register and the bit together. -/
theorem crcBit_xor (a c : BitVec 16) (x y : Bool) : crcBit (a ^^^ c) (x ^^ y) = crcBit a x ^^^ crcBit c y := by
  have hbit : ((a ^^^ c).getLsbD 0 ^^ (x ^^ y)) = ((a.getLsbD 0 ^^ x) ^^ (c.getLsbD 0 ^^ y)) := by
    rw [BitVec.getLsbD_xor, Bool.xor_assoc, Bool.xor_assoc, Bool.xor_left_comm x]
  rw [crcBit_eq_feedback, crcBit_eq_feedback, crcBit_eq_feedback, hbit, crcFeedback_xor,
    BitVec.ushiftRight_xor_distrib]
  ac_rfl

/-- Bit 15 shows the feedback bit: the shift clears it and the polynomial has it set. -/
theorem crcBit_msb (c : BitVec 16) (b : Bool) : (crcBit c b).getLsbD 15 = (c.getLsbD 0 ^^ b) := by
  have hfeedback : ∀ x, (crcFeedback x).getLsbD 15 = x := by decide
  rw [crcBit_eq_feedback, BitVec.getLsbD_xor, hfeedback, BitVec.getLsbD_ushiftRight, BitVec.getLsbD_of_ge _ _ le_rfl,
    Bool.false_xor]

theorem crcBit_injective (b : Bool) : Function.Injective (crcBit · b) := by
  intro a c (h : crcBit a b = crcBit c b)
  have hlow : a.getLsbD 0 = c.getLsbD 0 := by
    rw [← Bool.xor_left_inj (z := b), ← crcBit_msb, ← crcBit_msb, h]
  have hhigh : a >>> 1 = c >>> 1 := by
    rwa [crcBit_eq_feedback, crcBit_eq_feedback, hlow, BitVec.xor_left_inj] at h
  refine BitVec.eq_of_getLsbD_eq fun i _ => ?_
  cases i with
  | zero => exact hlow
  | succ i =>
    have hbit := congrArg (BitVec.getLsbD · i) hhigh
    rwa [BitVec.getLsbD_ushiftRight, BitVec.getLsbD_ushiftRight, Nat.add_comm] at hbit

theorem ofNat_half (c : BitVec 16) : BitVec.ofNat 16 (c.toNat / 2) = c >>> 1 :=
  (BitVec.toNat_eq_nat.mp (BitVec.toNat_ushiftRight c 1)).2.symm

/-! ## A bit sequence -/

theorem crcBits_append (c : BitVec 16) (xs ys : List Bool) : crcBits c (xs ++ ys) = crcBits (crcBits c xs) ys :=
  List.foldl_append

theorem crcBits_injective (bits : List Bool) : Function.Injective (crcBits · bits) := by
  induction bits with
  | nil => exact Function.injective_id
  | cons b bits ih => exact ih.comp (crcBit_injective b)

/-- Start values that add up count separately: one as if zero bits followed it, the other with the bits (R140). -/
theorem crcBits_xor (a c : BitVec 16) (bits : List Bool) :
    crcBits (a ^^^ c) bits = crcBits a (List.replicate bits.length false) ^^^ crcBits c bits := by
  induction bits generalizing a c with
  | nil => rfl
  | cons b bits ih =>
    calc crcBits (crcBit (a ^^^ c) b) bits
      _ = crcBits (crcBit a false ^^^ crcBit c b) bits := by rw [← crcBit_xor, Bool.false_xor]
      _ = crcBits (crcBit a false) (List.replicate bits.length false) ^^^ crcBits (crcBit c b) bits := ih ..

/-- Settles O14: `L` feeds `n` zero bits, `K` feeds the bits from 0. -/
theorem crcUpdateIsAffine : Obligations.CrcUpdateIsAffine := by
  refine fun n => ⟨(crcBits · (List.replicate n false)), crcBits 0, fun a c => ?_, ?_⟩
  · simpa using crcBits_xor a c (List.replicate n false)
  · rintro bits rfl c
    simpa using crcBits_xor c 0 bits

/-! ## The two trailing bytes -/

/-- Feeding a word's bit 0 is feeding 0 to the register with the word exclusive-ored in, the word's rest apart. -/
theorem crcBit_low_xor (c t : BitVec 16) : crcBit c (t.getLsbD 0) ^^^ t >>> 1 = crcBit (c ^^^ t) false := by
  rw [crcBit_eq_feedback, crcBit_eq_feedback, BitVec.getLsbD_xor, Bool.xor_false, BitVec.ushiftRight_xor_distrib]
  ac_rfl

/-- Feeding the low `n` bits of `t` is exclusive-oring all of `t` in, feeding zero bits, and taking the rest of `t` out. -/
theorem crcBits_low (n : Nat) (c t : BitVec 16) :
    crcBits c ((List.range n).map t.getLsbD) = crcBits (c ^^^ t) (List.replicate n false) ^^^ t >>> n := by
  induction n generalizing c t with
  | zero => simp [crcBits]
  | succ n ih =>
    have hbits : (List.range (n + 1)).map t.getLsbD = t.getLsbD 0 :: (List.range n).map (t >>> 1).getLsbD := by
      simp [List.range_succ_eq_map, Function.comp_def, Nat.add_comm]
    calc crcBits c ((List.range (n + 1)).map t.getLsbD)
      _ = crcBits (crcBit c (t.getLsbD 0)) ((List.range n).map (t >>> 1).getLsbD) := by rw [hbits]; rfl
      _ = crcBits (crcBit (c ^^^ t) false) (List.replicate n false) ^^^ t >>> 1 >>> n := by rw [ih, crcBit_low_xor]
      _ = crcBits (c ^^^ t) (List.replicate (n + 1) false) ^^^ t >>> (n + 1) := by
        rw [← BitVec.shiftRight_add, Nat.add_comm 1 n]
        rfl

theorem bitsLsb_append (t0 t1 : Byte) :
    bitsLsb t0 ++ bitsLsb t1 = (List.range 16).map (t1 ++ t0 : BitVec 16).getLsbD := by
  have hbit (i : Nat) : (t1 ++ t0 : BitVec 16).getLsbD i = if i < 8 then t0.getLsbD i else t1.getLsbD (i - 8) :=
    BitVec.getLsbD_append
  rw [funext hbit]
  rfl

/-- Two bytes fed low byte first are their word exclusive-ored into the register, then two zero bytes. -/
theorem crcByte_crcByte (c : BitVec 16) (t0 t1 : Byte) :
    crcByte (crcByte c t0) t1 = crcByte (crcByte (c ^^^ (t1 ++ t0)) 0) 0 := by
  have hdone : (t1 ++ t0 : BitVec 16) >>> 16 = 0#16 := BitVec.ushiftRight_eq_zero le_rfl
  calc crcByte (crcByte c t0) t1
    _ = crcBits c (bitsLsb t0 ++ bitsLsb t1) := (crcBits_append ..).symm
    _ = crcBits (c ^^^ (t1 ++ t0)) (List.replicate 16 false) := by
      rw [bitsLsb_append, crcBits_low, hdone, BitVec.xor_zero]
    _ = crcByte (crcByte (c ^^^ (t1 ++ t0)) 0) 0 := rfl

theorem crcByte_zeros_residue : crcByte (crcByte 0xFFFF 0) 0 = 0xF0B8 := by
  have hfirst : crcByte 0xFFFF 0 = 0x0F87 := by decide
  rw [hfirst]
  decide

theorem crcByte_injective (d : Byte) : Function.Injective (crcByte · d) := crcBits_injective (bitsLsb d)

theorem xor_eq_ones_iff (c t : BitVec 16) : c ^^^ t = 0xFFFF ↔ t = ~~~c := by
  rw [← BitVec.xor_right_inj (x := t) c, ← BitVec.not_xor_right, BitVec.xor_self]
  rfl

/-- The digest's two bytes leave the residue, and no others do (R138, R139). -/
theorem crcByte_crcByte_residue_iff (c : BitVec 16) (t0 t1 : Byte) :
    crcByte (crcByte c t0) t1 = 0xF0B8 ↔ (t1 ++ t0 : BitVec 16) = ~~~c := by
  rw [crcByte_crcByte, ← crcByte_zeros_residue, (crcByte_injective 0).eq_iff, (crcByte_injective 0).eq_iff,
    xor_eq_ones_iff]

/-- Settles O12: the two bytes make up the digest. -/
theorem digestLeavesResidue : Obligations.DigestLeavesResidue := by
  intro c
  rw [crcByte_crcByte_residue_iff]
  exact (BitVec.extractLsb'_append_extractLsb'_eq_extractLsb' rfl).trans BitVec.extractLsb'_eq_self

/-- Settles O13: the trailer is two bytes fed to the message's CRC. -/
theorem residueTestIsTrailerTest : Obligations.ResidueTestIsTrailerTest := by
  intro message t0 t1
  have hfeed : crcBits 0xFFFF (bitsOf (message ++ [t0, t1])) =
      crcByte (crcByte (crcBits 0xFFFF (bitsOf message)) t0) t1 := by
    rw [bitsOf_append, crcBits_append]
    rfl
  rw [hfeed, crcByte_crcByte_residue_iff]

end Sys2Proof.Machine
end

section
/-! PROOFS. The Checksum Engine's commands (R132 to R137): their encodings, what they write, and their one error. -/

namespace Sys2Proof.Machine

/-! ## The encodings -/

section Encodings

variable {o : BitVec 8}

theorem decodeWord_commandWord_reserved {f : OperandForm} {imm : BitVec 24} (h : formOf o.toNat = some f)
    (himm : 2 ^ f.width ≤ imm.toNat) : decodeWord (commandWord o imm) = .error .reservedOperandBits := by
  refine decodeWord_reserved_operand (k := f.width) ?_ ?_
  · rw [← opcField_toNat, opcField_commandWord, h]
    rfl
  · rwa [← immField_toNat, immField_commandWord]

theorem encodedZ_of_form {i : Instr} (h : formOf o.toNat = some (.z i)) : EncodedZ o i :=
  ⟨decodeWord_formZ o h, fun _ himm =>
    decodeWord_commandWord_reserved h (Nat.pos_of_ne_zero fun h0 => himm (BitVec.eq_of_toNat_eq h0))⟩

theorem encodedB1_of_form {f : Bool → Instr} (h : formOf o.toNat = some (.b1 f)) : EncodedB1 o f := by
  refine fun imm => ⟨fun himm => ?_, decodeWord_commandWord_reserved h⟩
  have hbit : imm.getLsbD 0 = decide (imm.toNat = 1) := by
    rw [BitVec.getLsbD, Nat.testBit_zero, Nat.mod_eq_of_lt himm]
  rw [← hbit]
  exact decodeWord_commandWord h himm

theorem encodedB8_of_form {f : Byte → Instr} (h : formOf o.toNat = some (.b8 f)) : EncodedB8 o f :=
  fun _ => ⟨decodeWord_commandWord h, decodeWord_commandWord_reserved h⟩

end Encodings

theorem wordOf_crcBit : ∀ b : Bool, wordOf (.crcBit b) = 0x11000000 ||| (BitVec.ofBool b).setWidth 32 := by decide

theorem wordOf_crcByte (d : Byte) : wordOf (.crcByte d) = 0x12000000 ||| d.setWidth 32 := commandWord_byte 0x12 d

/-! ## What a command does, by its error -/

section Outcomes

variable {i : Instr} {s : State}

theorem exec_of_ok (hi : i.isCommand = true) (h : errorOf i s.regs = none) :
    exec i s = .next (commandEffect i s) := by
  rw [exec_command hi, commandResult_of_ok h]

theorem exec_of_error {c : Cause} (hi : i.isCommand = true) (h : errorOf i s.regs = some c) :
    exec i s = .next (raiseError c (wordOf i) s) := by
  rw [exec_command hi, commandResult_of_error h]

theorem exec_refused (hi : i.isCommand = true) (h : acceptedIn i s.regs.asm.fstate = false) :
    exec i s = .next (raiseError .sequence (wordOf i) s) := by
  rw [exec_command hi, commandResult_refused h]

end Outcomes

/-! ## The commands accepted in IDLE -/

theorem exec_crcInit_idle {s : State} (h : s.regs.asm.fstate = .idle) :
    exec .crcInit s = .next { s with regs.crc := Config.crcInit } :=
  exec_of_ok rfl (errorOf_eq_none_iff.mpr ⟨decide_eq_true h, rfl, rfl, rfl⟩)

theorem exec_crcBit_idle (b : Bool) {s : State} (h : s.regs.asm.fstate = .idle) :
    exec (.crcBit b) s = .next { s with regs.crc := crcBit s.regs.crc b } :=
  exec_of_ok rfl (errorOf_eq_none_iff.mpr ⟨decide_eq_true h, rfl, rfl, rfl⟩)

theorem exec_crcByte_idle (d : Byte) {s : State} (h : s.regs.asm.fstate = .idle) :
    exec (.crcByte d) s = .next { s with regs.crc := crcByte s.regs.crc d } :=
  exec_of_ok rfl (errorOf_eq_none_iff.mpr ⟨decide_eq_true h, rfl, rfl, rfl⟩)

/-- CRC.BIT commands one after another feed their bits in order. -/
theorem runAll_crcBit_idle (bits : List Bool) {s : State} (h : s.regs.asm.fstate = .idle) :
    runAll (bits.map .crcBit) s = .next { s with regs.crc := crcBits s.regs.crc bits } := by
  induction bits generalizing s with
  | nil => rfl
  | cons b bits ih =>
    rw [List.map_cons, runAll, exec_crcBit_idle b h]
    exact ih (s := { s with regs.crc := crcBit s.regs.crc b }) h

/-- Settles O7: the phase check is the command's only error. -/
theorem crcInitSetsPreset : Obligations.CrcInitSetsPreset :=
  ⟨encodedZ_of_form rfl, fun _ => ⟨exec_crcInit_idle, fun hopen => exec_refused rfl (decide_eq_false hopen)⟩⟩

/-- Settles O8: the two cases of CrcBit. -/
theorem crcBitFeedsOneBit : Obligations.CrcBitFeedsOneBit := by
  refine ⟨encodedB1_of_form rfl, fun b s => ⟨fun hidle hbit => ?_, fun hidle hbit => ?_, fun hopen => ?_⟩⟩
  · rw [exec_crcBit_idle b hidle, crcBit, if_pos hbit, ofNat_half]
  · rw [exec_crcBit_idle b hidle, crcBit, if_neg hbit, ofNat_half]
  · rw [← wordOf_crcBit]
    exact exec_refused rfl (decide_eq_false hopen)

/-- Settles O9: both feed the byte's bits, least-significant bit first. -/
theorem crcByteIsEightCrcBits : Obligations.CrcByteIsEightCrcBits := by
  refine ⟨encodedB8_of_form rfl, fun d s => ⟨fun hidle => ?_, fun hopen => ?_⟩⟩
  · exact ⟨crcByte s.regs.crc d, exec_crcByte_idle d hidle, runAll_crcBit_idle (bitsLsb d) hidle⟩
  · rw [← wordOf_crcByte]
    exact exec_refused rfl (decide_eq_false hopen)

/-! ## The commands accepted in every phase -/

/-- Settles O10: the command has no error. -/
theorem crcDigestWritesResult : Obligations.CrcDigestWritesResult := by
  refine ⟨encodedZ_of_form rfl, fun s => ⟨digest s.regs.crc, BitVec.toNat_not, exec_of_ok rfl rfl, ?_⟩⟩
  exact BitVec.toNat_setWidth_of_le (by decide)

theorem errorOf_crcCheck (r : Regs) :
    errorOf .crcCheck r = if r.crc != 0xF0B8 then some .checksumMismatch else none := rfl

/-- Settles O11: the residue test is the command's only error, and the command has no effect. -/
theorem crcCheckTestsResidue : Obligations.CrcCheckTestsResidue := by
  refine ⟨encodedZ_of_form rfl, fun s => ⟨fun hpass => exec_of_ok rfl ?_, fun hfail => exec_of_error rfl ?_⟩⟩
  · rw [errorOf_crcCheck, hpass]
    rfl
  · rw [errorOf_crcCheck, if_pos (bne_iff_ne.mpr hfail)]

end Sys2Proof.Machine
end

section
/-! PROOFS. The character codes (R161 to R164) and what of a callsign its seven bytes keep (R169). -/

namespace Sys2Proof.Machine

/-! ## Character codes -/

/-- The shift as arithmetic (R161). -/
theorem encodeChar_eq_ofNat (d : Byte) : encodeChar d = BitVec.ofNat 8 (2 * d.toNat) := by
  apply BitVec.eq_of_toNat_eq
  rw [encodeChar, BitVec.toNat_shiftLeft, BitVec.toNat_ofNat, Nat.shiftLeft_eq, Nat.mul_comm, pow_one]

theorem encodeChar_toNat (c : Byte) : (encodeChar c).toNat = 2 * c.toNat % 256 := by
  rw [encodeChar_eq_ofNat, BitVec.toNat_ofNat]

theorem encodeChar_bit_zero (c : Byte) : (encodeChar c).getLsbD 0 = false := by simp [encodeChar]

/-- Shifting a code right gives back a character below 0x80 (R169). -/
theorem encodeChar_shiftRight {c : Byte} (h : c.toNat < 0x80) : encodeChar c >>> 1 = c := by
  apply BitVec.eq_of_toNat_eq
  rw [BitVec.toNat_ushiftRight, encodeChar_toNat, Nat.shiftRight_eq_div_pow]
  omega

/-- Bit 7 of a character is shifted out (R169). -/
theorem encodeChar_ignores_bit_seven : ∀ d : Byte, encodeChar (d ||| 0x80) = encodeChar (d &&& 0x7F) := by decide

/-- The end-of-address bit is shifted out, cleared or not (R165, R169). -/
theorem endOfAddress_cleared_shiftRight : ∀ h : Byte, (endOfAddress h &&& 0xFE) >>> 1 = h >>> 1 := by decide

theorem upper_toNat_of_lower {c : Byte} (h : 0x61 ≤ c.toNat ∧ c.toNat ≤ 0x7A) :
    (upper c).toNat = c.toNat - 0x20 := by
  rw [upper, if_pos h]
  exact BitVec.toNat_sub_of_le (BitVec.le_def.mpr (le_trans (by decide) h.1))

theorem upper_of_not_lower {c : Byte} (h : c.toNat < 0x61 ∨ 0x7A < c.toNat) : upper c = c := if_neg (by omega)

theorem upper_lt {c : Byte} (h : c.toNat < 0x80) : (upper c).toNat < 0x80 := by
  by_cases hlower : 0x61 ≤ c.toNat ∧ c.toNat ≤ 0x7A
  · rw [upper_toNat_of_lower hlower]
    omega
  · rwa [upper_of_not_lower (by omega)]

/-- Only a space is a space in upper case. -/
theorem upper_eq_space_iff {c : Byte} : upper c = 0x20 ↔ c = 0x20 := by
  by_cases hlower : 0x61 ≤ c.toNat ∧ c.toNat ≤ 0x7A
  · have := upper_toNat_of_lower hlower
    constructor <;> intro h <;> bv_omega
  · rw [upper_of_not_lower (by omega)]

/-- Settles O19: the shift as arithmetic, and Upper by its two cases. -/
theorem characterCodes : Obligations.CharacterCodes := fun c =>
  ⟨encodeChar_toNat c, encodeChar_bit_zero c, fun hlo hhi => upper_toNat_of_lower ⟨hlo, hhi⟩,
    upper_of_not_lower⟩

/-! ## The bytes of a callsign -/

/-- The first six bytes of an encoded callsign (R163). -/
def baseBytes (base : List Byte) : List Byte :=
  base.map (fun d => encodeChar (upper d)) ++ List.replicate (6 - base.length) Config.pad

theorem encodeCallsign_eq (c : Callsign) : encodeCallsign c = baseBytes c.base ++ [encodeChar c.ssid] := rfl

theorem baseBytes_length {base : List Byte} (h : base.length ≤ 6) : (baseBytes base).length = 6 := by
  simp [baseBytes, h]

/-! ## Recovering a callsign -/

/-- Trimming takes padding off a list that does not end in the padding element. -/
theorem rdropWhile_append_replicate {α : Type} [BEq α] [LawfulBEq α] {a : α} {l : List α} (n : Nat)
    (h : l.getLast? ≠ some a) : (l ++ List.replicate n a).rdropWhile (· == a) = l := by
  have hpad : ∀ x ∈ List.replicate n a, (x == a) = true := fun x hx => beq_iff_eq.mpr (List.eq_of_mem_replicate hx)
  have hlast : l.rdropWhile (· == a) = l :=
    List.rdropWhile_eq_self_iff.mpr fun hl he => h (by rw [List.getLast?_eq_some_getLast hl, beq_iff_eq.mp he])
  rw [List.rdropWhile, List.reverse_append, List.reverse_replicate, List.dropWhile_append_of_pos hpad]
  exact hlast

/-- The first six bytes shifted right are the base in upper case, padded with spaces (R163, R169). -/
theorem baseBytes_shiftRight {base : List Byte} (h : ∀ d ∈ base, d.toNat < 0x80) :
    (baseBytes base).map (fun d : Byte => d >>> 1) = base.map upper ++ List.replicate (6 - base.length) 0x20 := by
  rw [baseBytes, List.map_append, List.map_replicate, List.map_map]
  exact congrArg (· ++ _) (List.map_congr_left fun d hd => encodeChar_shiftRight (upper_lt (h d hd)))

theorem getLast?_map_upper {base : List Byte} (h : base.getLast? ≠ some 0x20) :
    (base.map upper).getLast? ≠ some 0x20 := by
  rw [List.getLast?_map]
  intro hspace
  obtain ⟨d, hd, hup⟩ := Option.map_eq_some_iff.mp hspace
  exact h (hd.trans (congrArg some (upper_eq_space_iff.mp hup)))

/-- A space appended to a base is its padding (R163, R169). -/
theorem baseBytes_append_space {base : List Byte} (h : base.length < 6) :
    baseBytes (base ++ [0x20]) = baseBytes base := by
  have hn : 6 - base.length = 6 - (base.length + 1) + 1 := by omega
  rw [baseBytes, baseBytes, hn, List.replicate_succ, List.map_append, List.length_append, List.append_assoc]
  rfl

/-- Settles O23: codes shift back to characters, and trimming takes off the padding. -/
theorem callsignIsRecoverable : Obligations.CallsignIsRecoverable := by
  refine fun c hbase => ⟨fun hascii hlast hssid => ?_, encodeChar_ignores_bit_seven, fun hshort => ?_⟩
  · have hshift := encodeChar_shiftRight hssid
    refine ⟨baseBytes c.base, encodeChar c.ssid, encodeCallsign_eq c, baseBytes_length hbase, ?_, hshift, ?_, ?_⟩
    · rw [baseBytes_shiftRight hascii]
      exact rdropWhile_append_replicate _ (getLast?_map_upper hlast)
    · rw [endOfAddress_cleared_shiftRight, hshift]
    · exact fun hupper => (List.map_congr_left fun d hd => upper_of_not_lower (hupper d hd)).trans (List.map_id' _)
  · rw [encodeCallsign_eq, encodeCallsign_eq, baseBytes_append_space hshort]

end Sys2Proof.Machine
end

section
/-! PROOFS. The Address Codec's commands (R165 to R168): each one's errors and the one run of bytes it sends, and the
commands of a callsign as one run of bytes. -/

namespace Sys2Proof.Machine

theorem wordOf_addrCh (d : Byte) : wordOf (.addrCh d) = 0x20000000 ||| d.setWidth 32 := commandWord_byte 0x20 d

theorem wordOf_addrSsid (d : Byte) : wordOf (.addrSsid d) = 0x21000000 ||| d.setWidth 32 := commandWord_byte 0x21 d

/-- The held byte, if there is one, which the next address command sends first (R165). -/
def FrameAsm.heldBytes (a : FrameAsm) : List Byte := if a.pend then [a.hold] else []

/-! ## Errors -/

/-- ADDR.CH's errors in ADDRESS, the seventh character before the eleventh address (R166, R304). -/
theorem errorOf_addrCh (d : Byte) {r : Regs} (hf : r.asm.fstate = .address) :
    errorOf (.addrCh d) r =
      if r.asm.chars = 6 then some .invalidCallsign
      else if r.asm.chars = 0 ∧ r.asm.naddr = 10 then some .addressCount else none := by
  simp [errorOf, acceptedIn, callsignError, countError, checksumError, hf, ← BitVec.toNat_inj]

/-- ADDR.SSID's one error in ADDRESS (R167). -/
theorem errorOf_addrSsid (d : Byte) {r : Regs} (hf : r.asm.fstate = .address) :
    errorOf (.addrSsid d) r = if r.asm.chars = 0 ∧ r.asm.naddr = 10 then some .addressCount else none := by
  simp [errorOf, acceptedIn, callsignError, countError, checksumError, hf, ← BitVec.toNat_inj]

/-! ## Effects -/

section Effects

variable {s : State} (hf : s.regs.asm.fstate = .address) (hroom : ¬(s.regs.asm.chars = 0 ∧ s.regs.asm.naddr = 10))
  (hhold : s.regs.asm.pend = false → s.regs.asm.hold = 0)

include hf hroom hhold

/-- ADDR.CH as one run of data bytes (R166). -/
theorem exec_addrCh (d : Byte) (hc : s.regs.asm.chars ≠ 6) :
    exec (.addrCh d) s = .next (sendData (s.regs.asm.heldBytes ++ [encodeChar (upper d)])
      { s with regs.asm := ⟨.address, false, 0, s.regs.asm.chars + 1, s.regs.asm.naddr⟩ }) := by
  have hok : errorOf (.addrCh d) s.regs = none := by rw [errorOf_addrCh d hf, if_neg hc, if_neg hroom]
  rw [exec_of_ok rfl hok, commandEffect, sendChar_eq d s hhold, ← hf]
  rfl

/-- ADDR.SSID as one run of data bytes (R167). -/
theorem exec_addrSsid (d : Byte) :
    exec (.addrSsid d) s = .next (sendData
      (s.regs.asm.heldBytes ++ List.replicate (6 - s.regs.asm.chars.toNat) Config.pad)
      { s with regs.asm := ⟨.address, true, encodeChar d, 0, s.regs.asm.naddr + 1⟩ }) := by
  have hok : errorOf (.addrSsid d) s.regs = none := by rw [errorOf_addrSsid d hf, if_neg hroom]
  rw [exec_of_ok rfl hok, commandEffect, completeCallsign_eq d s hhold, ← hf]
  rfl

end Effects

/-- Settles O20: the errors in their order, else one run of data bytes. -/
theorem addrChSendsCharacter : Obligations.AddrChSendsCharacter := by
  refine ⟨encodedB8_of_form rfl, fun d s hinv => ?_⟩
  rw [← wordOf_addrCh]
  refine ⟨fun hf => ?_, fun hf hc => ?_, fun hf hc hn => ?_, fun hf hc hroom => ?_⟩
  · exact exec_refused rfl (decide_eq_false hf)
  · exact exec_of_error rfl (by rw [errorOf_addrCh d hf, if_pos hc])
  · exact exec_of_error rfl (by rw [errorOf_addrCh d hf, if_neg (by simp [hc]), if_pos ⟨hc, hn⟩])
  · exact ⟨_, exec_addrCh hf hroom hinv.asm.hold_zero d hc, sendData_in_frame _ s _ hinv (by simp [hf])⟩

/-- Settles O21: the two errors, else one run of data bytes. -/
theorem addrSsidCompletesCallsign : Obligations.AddrSsidCompletesCallsign := by
  refine ⟨encodedB8_of_form rfl, fun d s hinv => ?_⟩
  rw [← wordOf_addrSsid, ← encodeChar_eq_ofNat]
  refine ⟨fun hf => ?_, fun hf hc hn => ?_, fun hf hroom => ?_⟩
  · exact exec_refused rfl (decide_eq_false hf)
  · exact exec_of_error rfl (by rw [errorOf_addrSsid d hf, if_pos ⟨hc, hn⟩])
  · exact ⟨_, exec_addrSsid hf hroom hinv.asm.hold_zero d, sendData_in_frame _ s _ hinv (by simp [hf])⟩

/-! ## The commands of a callsign -/

/-- Two runs of data bytes, the frame assembler set before each, are one run with the later setting. -/
theorem sendData_sendData_asm (xs ys : List Byte) (a b : FrameAsm) (s : State) :
    sendData ys { sendData xs { s with regs.asm := a } with regs.asm := b } =
      sendData (xs ++ ys) { s with regs.asm := b } := by
  rw [sendData_append, ← sendData_asm]

theorem runAll_cons {i : Instr} {is : List Instr} {s t : State} (h : exec i s = .next t) :
    runAll (i :: is) s = runAll is t := by
  rw [runAll, h]

theorem callInstrs_cons (d : Byte) (base : List Byte) (ssid : Byte) :
    callInstrs ⟨d :: base, ssid⟩ = .addrCh d :: callInstrs ⟨base, ssid⟩ := rfl

/-- The rest of a callsign's commands, some characters being sent already, as one run of data bytes (R168). -/
theorem runAll_callInstrs (base : List Byte) (ssid : Byte) {s : State} (hf : s.regs.asm.fstate = .address)
    (hroom : ¬(s.regs.asm.chars = 0 ∧ s.regs.asm.naddr = 10))
    (hhold : s.regs.asm.pend = false → s.regs.asm.hold = 0)
    (hfits : s.regs.asm.chars.toNat + base.length ≤ 6) :
    runAll (callInstrs ⟨base, ssid⟩) s = .next (sendData
      (s.regs.asm.heldBytes ++ (base.map (fun d => encodeChar (upper d)) ++
        List.replicate (6 - (s.regs.asm.chars.toNat + base.length)) Config.pad))
      { s with regs.asm := ⟨.address, true, encodeChar ssid, 0, s.regs.asm.naddr + 1⟩ }) := by
  induction base generalizing s with
  | nil => exact runAll_cons (exec_addrSsid hf hroom hhold ssid)
  | cons d base ih =>
    rw [List.length_cons] at hfits
    have hc : s.regs.asm.chars ≠ 6 := by bv_omega
    have hopen : s.regs.asm.chars + 1 ≠ 0 := by bv_omega
    have hcount : (s.regs.asm.chars + 1).toNat + base.length = s.regs.asm.chars.toNat + (base.length + 1) := by
      bv_omega
    rw [callInstrs_cons, runAll_cons (exec_addrCh hf hroom hhold d hc)]
    generalize ht : sendData _ _ = t
    have hasm : t.regs.asm = ⟨.address, false, 0, s.regs.asm.chars + 1, s.regs.asm.naddr⟩ :=
      ht ▸ sendData_keeps_asm _ _
    have hrest := ih (s := t)
    rw [hasm] at hrest
    rw [hrest rfl (fun hfull => hopen hfull.1) (fun _ => rfl) (hcount ▸ hfits), ← ht, sendData_sendData_asm, hcount]
    simp [FrameAsm.heldBytes]

/-- Settles O22: the callsign's commands are one run of data bytes, in an open frame. -/
theorem callsignIsSevenBytes : Obligations.CallsignIsSevenBytes := by
  intro c s hbase hinv hf hchars hn
  have hrun := runAll_callInstrs c.base c.ssid hf (fun hfull => hn hfull.2) hinv.asm.hold_zero
    (by simpa [hchars] using hbase)
  obtain ⟨hsent, -, hcrc, hasm, hevents, -, -⟩ :=
    sendData_in_frame (s.regs.asm.heldBytes ++ baseBytes c.base) s
      ⟨.address, true, encodeChar c.ssid, 0, s.regs.asm.naddr + 1⟩ hinv (by simp [hf])
  refine ⟨_, baseBytes c.base, encodeChar c.ssid, ?_, encodeCallsign_eq c, baseBytes_length hbase,
    hsent, hcrc, hasm, hevents⟩
  rw [hrun, hchars, show (0 : BitVec 3).toNat = 0 from rfl, Nat.zero_add]
  rfl

end Sys2Proof.Machine
end

section
/-! PROOFS. The Frame Builder's commands (R184 to R189): each one's errors and the one run of bits it sends, and the
phases in which every command is accepted with the phase it leaves. -/

namespace Sys2Proof.Machine

/-! ## FR.BEGIN -/

/-- The state FR.BEGIN sends from: the per-frame initial values, CRC and the frame assembler as given (R184, R344). -/
def frameStart (crc : BitVec 16) (a : FrameAsm) (s : State) : State :=
  { frameInit s with regs.crc := crc, regs.asm := a }

/-- The preamble, sent from the per-frame initial values into ADDRESS (R184). -/
theorem exec_frBegin {s : State} (hf : s.regs.asm.fstate = .idle) :
    exec .frBegin s = .next
      (sendLine (preambleBits s.regs.setup) (frameStart 0xFFFF ⟨.address, false, 0, 0, 0⟩ s)) := by
  have hok : errorOf .frBegin s.regs = none := errorOf_eq_none_iff.mpr ⟨decide_eq_true hf, rfl, rfl, rfl⟩
  rw [exec_of_ok rfl hok, commandEffect, sendPreamble_frameInit, sendLine_eq, sendLine_eq]
  rfl

/-- The synthesizer of a frame just begun can send (R184, R344). -/
theorem synthReady_init (rate : BitVec 20) : SynthReady rate ⟨0, 0, 0, 0⟩ := ⟨Regs.reset_inv.clock, fun hr => hr⟩

theorem sendLine_frameStart_sent (xs : List Bool) (crc : BitVec 16) (a : FrameAsm) (s : State) :
    SentLine { s.regs with line := ⟨0, true⟩, synth := ⟨0, 0, 0, 0⟩ } xs s (sendLine xs (frameStart crc a s)) := by
  rw [sendLine_eq]
  exact sentLine_intro (synthReady_init _) rfl rfl rfl rfl rfl ⟨rfl, rfl, rfl, rfl, rfl, rfl⟩

/-- Line bits from the per-frame initial values leave everything but the line, the synthesizer and the stream port. -/
theorem sendLine_frameStart_keeps (xs : List Bool) (crc : BitVec 16) (a : FrameAsm) (s : State) :
    let t := sendLine xs (frameStart crc a s)
    t.regs.line.ones = 0 ∧ t.regs.crc = crc ∧ t.regs.asm = a ∧ t.regs.events = s.regs.events ∧
      t.regs.result = s.regs.result ∧ t.regs.irq = s.regs.irq := by
  rw [sendLine_eq]
  exact ⟨rfl, rfl, rfl, rfl, rfl, rfl⟩

/-- Settles O24: the phase check, else the preamble from the initial values. -/
theorem frBeginOpensFrame : Obligations.FrBeginOpensFrame := by
  refine ⟨encodedZ_of_form rfl, fun s => ⟨fun hopen => exec_refused rfl (decide_eq_false hopen), fun hidle => ?_⟩⟩
  rw [bitsOf_append]
  exact ⟨_, exec_frBegin hidle, sendLine_frameStart_sent .., sendLine_frameStart_keeps ..⟩

/-! ## FR.HDR -/

/-- FR.HDR's errors in ADDRESS, a callsign left open before too few addresses (R185, R304). -/
theorem errorOf_frHdr {r : Regs} (hf : r.asm.fstate = .address) :
    errorOf .frHdr r =
      if r.asm.chars ≠ 0 then some .invalidCallsign
      else if r.asm.naddr.toNat < 2 then some .addressCount else none := by
  simp [errorOf, acceptedIn, callsignError, countError, checksumError, hf, ← BitVec.toNat_inj, Nat.pos_iff_ne_zero]

/-- FR.HDR as one run of data bytes (R185). -/
theorem exec_frHdr {s : State} (hf : s.regs.asm.fstate = .address) (hc : s.regs.asm.chars = 0)
    (hn : 2 ≤ s.regs.asm.naddr.toNat) :
    exec .frHdr s = .next (sendData [endOfAddress s.regs.asm.hold, 0x03, 0xF0]
      { s with regs.asm := ⟨.info, false, 0, 0, s.regs.asm.naddr⟩ }) := by
  have hok : errorOf .frHdr s.regs = none := by
    rw [errorOf_frHdr hf, if_neg (not_not_intro hc), if_neg (Nat.not_lt.mpr hn)]
  rw [exec_of_ok rfl hok, commandEffect, sendHeader_eq]
  simp only [hc]

/-- With bit 0 clear, setting it is adding 1 (R165). -/
theorem endOfAddress_of_even : ∀ h : Byte, h.getLsbD 0 = false → endOfAddress h = h + 1 := by decide

/-- Settles O25: the errors in their order, else one run of data bytes. -/
theorem frHdrSendsControlAndPid : Obligations.FrHdrSendsControlAndPid := by
  refine ⟨encodedZ_of_form rfl, fun s hinv => ⟨fun hf => ?_, fun hf hc => ?_, fun hf hc hn => ?_, fun hf hc hn => ?_⟩⟩
  · exact exec_refused rfl (decide_eq_false hf)
  · exact exec_of_error rfl (by rw [errorOf_frHdr hf, if_pos hc])
  · exact exec_of_error rfl (by rw [errorOf_frHdr hf, if_neg (not_not_intro hc), if_pos hn])
  · rw [← endOfAddress_of_even _ hinv.asm.hold_even]
    exact ⟨_, exec_frHdr hf hc hn, sendData_in_frame _ s _ hinv (by simp [hf])⟩

/-! ## FR.INFO -/

theorem wordOf_frInfo (d : Byte) : wordOf (.frInfo d) = 0x32000000 ||| d.setWidth 32 := commandWord_byte 0x32 d

/-- FR.INFO as a run of one data byte (R186). -/
theorem exec_frInfo (d : Byte) {s : State} (hf : s.regs.asm.fstate = .info) :
    exec (.frInfo d) s = .next (sendData [d] s) :=
  exec_of_ok rfl (errorOf_eq_none_iff.mpr ⟨decide_eq_true hf, rfl, rfl, rfl⟩)

/-- Settles O26: the phase check, else one data byte. -/
theorem frInfoSendsByte : Obligations.FrInfoSendsByte := by
  refine ⟨encodedB8_of_form rfl, fun d s hinv => ⟨fun hf => ?_, fun hf => ?_⟩⟩
  · rw [← wordOf_frInfo]
    exact exec_refused rfl (decide_eq_false hf)
  · exact ⟨_, exec_frInfo d hf, sendData_in_frame [d] s s.regs.asm hinv (by simp [hf])⟩

/-! ## FR.END -/

/-- The trailer, then the frame closed (R187). -/
theorem exec_frEnd {s : State} (hf : s.regs.asm.fstate = .info) :
    exec .frEnd s = .next (closeFrame (digest s.regs.crc) (sendTrailer (digest s.regs.crc) s)) :=
  exec_of_ok rfl (errorOf_eq_none_iff.mpr ⟨decide_eq_true hf, rfl, rfl, rfl⟩)

/-- In INFO closing the frame clears the whole assembler (R44 (b), R187). -/
theorem FrameAsm.Inv.closed_of_info {a : FrameAsm} (h : a.Inv) (hf : a.fstate = .info) :
    { a with fstate := .idle, naddr := 0 } = FrameAsm.closed := by
  obtain ⟨hpend, hhold, hchars, -⟩ := h.info hf
  simp [FrameAsm.closed, hpend, hhold, hchars]

/-- Settles O27: the phase check, else the FCS bits stuffed and the flag's unstuffed in one run of line bits. -/
theorem frEndSendsFcsAndFlag : Obligations.FrEndSendsFcsAndFlag := by
  refine ⟨encodedZ_of_form rfl, fun s hinv => ⟨fun hf => exec_refused rfl (decide_eq_false hf), fun hf => ?_⟩⟩
  refine ⟨_, exec_frEnd hf, ?_⟩
  rw [sendTrailer_eq _ _ hinv.ones_le, sendLine_eq]
  refine ⟨sentLine_intro (hinv.ready (by simp [hf])) rfl rfl rfl rfl rfl ⟨rfl, rfl, rfl, rfl, rfl, rfl⟩,
    ofNat3_toNat (runAfter_le _ _ hinv.ones_le), rfl, rfl, hinv.asm.closed_of_info hf, rfl, ?_⟩
  exact congrArg ((s.regs.ctrl.ieErr && s.regs.events.errv) || ·) (Bool.and_true _)

/-! ## FR.ABORT -/

/-- Settles O28: the command has no error, and in IDLE the assembler is closed already (R44 (a)). -/
theorem frAbortClosesFrame : Obligations.FrAbortClosesFrame := by
  have habort (s : State) : exec .frAbort s = .next { s with regs.asm := FrameAsm.closed } := exec_of_ok rfl rfl
  refine ⟨encodedZ_of_form rfl, fun s => ⟨habort s, fun hinv hidle => ?_⟩⟩
  obtain ⟨hpend, hhold, hchars, hnaddr⟩ := hinv.asm.idle hidle
  have hclosed : FrameAsm.closed = s.regs.asm := by rw [FrameAsm.closed, ← hidle, ← hpend, ← hhold, ← hchars, ← hnaddr]
  rw [habort, hclosed]

/-! ## The phases -/

/-- An error leaves IDLE (R306). -/
theorem raiseError_fstate (c : Cause) (w : Word) (s : State) : (raiseError c w s).regs.asm.fstate = .idle := by
  by_cases hf : s.regs.asm.fstate = .idle <;> simp [hf, FrameAsm.closed]

theorem releaseHold_fstate (s : State) : (releaseHold s).regs.asm.fstate = s.regs.asm.fstate := by
  cases hp : s.regs.asm.pend with
  | false => simp [releaseHold, hp]
  | true => simp [releaseHold, hp, ← sendData_one, sendData_keeps_asm]

theorem sendChar_fstate (d : Byte) (s : State) : (sendChar d s).regs.asm.fstate = s.regs.asm.fstate := by
  simp only [sendChar, ← sendData_one, sendData_keeps_asm, releaseHold_fstate]

theorem completeCallsign_fstate (d : Byte) (s : State) :
    (completeCallsign d s).regs.asm.fstate = s.regs.asm.fstate := by
  simp only [completeCallsign, repeat_dataByte, sendData_keeps_asm, releaseHold_fstate]

/-- A command with no error leaves the phase of R189's table. -/
theorem commandEffect_fstate {i : Instr} (s : State) :
    (commandEffect i s).regs.asm.fstate = nextPhase i s.regs.asm.fstate := by
  cases i
  case addrCh d => exact sendChar_fstate d s
  case addrSsid d => exact completeCallsign_fstate d s
  case frInfo d => exact congrArg FrameAsm.fstate (sendData_keeps_asm [d] s)
  case nop | crcInit | crcBit | crcByte | crcDigest | crcCheck | frBegin | frHdr | frEnd | frAbort | txSilence | mmioRd
    | mmioWr => rfl

/-- A command accepted in its phase does not meet SEQUENCE's condition (R302). -/
theorem errorOf_ne_sequence {i : Instr} {r : Regs} (h : acceptedIn i r.asm.fstate = true) :
    errorOf i r ≠ some .sequence := by
  unfold errorOf
  split_ifs <;> simp_all

/-- Settles O29: a command is its error action or its effect, and each leaves its phase. -/
theorem framePhaseMachine : Obligations.FramePhaseMachine := by
  refine fun i s hi => ⟨exec_refused hi, errorOf_ne_sequence, _, exec_command hi s, fun hok => ?_, fun herror => ?_⟩
  · rw [commandResult_of_ok hok, commandEffect_fstate]
  · obtain ⟨c, hc⟩ := Option.ne_none_iff_exists'.mp herror
    rw [commandResult_of_error hc, raiseError_fstate]

end Sys2Proof.Machine
end

section
/-! PROOFS. A whole UI frame (R180): its commands one after another are one run of line bits. -/

namespace Sys2Proof.Machine

/-! ## Runs of commands -/

theorem runAll_append {xs ys : List Instr} {s t : State} (h : runAll xs s = .next t) :
    runAll (xs ++ ys) s = runAll ys t := by
  induction xs generalizing s with
  | nil =>
    cases h
    rfl
  | cons i xs ih =>
    cases hi : exec i s with
    | next u =>
      rw [runAll_cons hi] at h
      rw [List.cons_append, runAll_cons hi, ih h]
    | fault => simp [runAll, hi] at h
    | refused => simp [runAll, hi] at h

/-! ## The address field -/

/-- The address field with its last callsign apart (R160, R165). -/
theorem encodeAddresses_concat (cs : List Callsign) (c : Callsign) :
    encodeAddresses (cs ++ [c]) =
      cs.flatMap encodeCallsign ++ baseBytes c.base ++ [endOfAddress (encodeChar c.ssid)] := by
  have hbytes : (cs ++ [c]).flatMap encodeCallsign =
      cs.flatMap encodeCallsign ++ baseBytes c.base ++ [encodeChar c.ssid] := by
    simp [encodeCallsign_eq]
  rw [encodeAddresses, hbytes, List.dropLast_concat, List.getLast?_concat]
  rfl

/-- One callsign's commands between callsigns (R168). -/
theorem runAll_callsign {c : Callsign} (hbase : c.base.length ≤ 6) {s : State} (hf : s.regs.asm.fstate = .address)
    (hchars : s.regs.asm.chars = 0) (hhold : s.regs.asm.pend = false → s.regs.asm.hold = 0)
    (hroom : s.regs.asm.naddr ≠ 10) :
    runAll (callInstrs c) s = .next (sendData (s.regs.asm.heldBytes ++ baseBytes c.base)
      { s with regs.asm := ⟨.address, true, encodeChar c.ssid, 0, s.regs.asm.naddr + 1⟩ }) := by
  rw [runAll_callInstrs c.base c.ssid hf (fun hfull => hroom hfull.2) hhold (by simpa [hchars] using hbase), hchars,
    show (0 : BitVec 3).toNat = 0 from rfl, Nat.zero_add]
  rfl

/-- The commands of several callsigns: the last SSID byte is left in HOLD (R165, R168). -/
theorem runAll_callsigns (cs : List Callsign) {c : Callsign} (hbase : ∀ x ∈ cs ++ [c], x.base.length ≤ 6) {s : State}
    (hf : s.regs.asm.fstate = .address) (hchars : s.regs.asm.chars = 0)
    (hhold : s.regs.asm.pend = false → s.regs.asm.hold = 0) (hroom : s.regs.asm.naddr.toNat + cs.length < 10) :
    runAll ((cs ++ [c]).flatMap callInstrs) s = .next (sendData
      (s.regs.asm.heldBytes ++ (cs.flatMap encodeCallsign ++ baseBytes c.base))
      { s with regs.asm :=
        ⟨.address, true, encodeChar c.ssid, 0, s.regs.asm.naddr + BitVec.ofNat 4 (cs.length + 1)⟩ }) := by
  induction cs generalizing s with
  | nil =>
    have hone := runAll_callsign (hbase c (by simp)) hf hchars hhold (by bv_omega)
    simpa using hone
  | cons b cs ih =>
    rw [List.length_cons] at hroom
    have hn : (s.regs.asm.naddr + 1).toNat = s.regs.asm.naddr.toNat + 1 := by bv_omega
    have hcount : s.regs.asm.naddr + 1 + BitVec.ofNat 4 (cs.length + 1) =
        s.regs.asm.naddr + BitVec.ofNat 4 (cs.length + 1 + 1) := by bv_omega
    have hfirst := runAll_callsign (hbase b (by simp)) hf hchars hhold (by bv_omega)
    rw [List.cons_append, List.flatMap_cons, runAll_append hfirst]
    generalize ht : sendData _ _ = t
    have hasm : t.regs.asm = ⟨.address, true, encodeChar b.ssid, 0, s.regs.asm.naddr + 1⟩ :=
      ht ▸ sendData_keeps_asm _ _
    have hrest := ih (s := t) fun x hx => hbase x (List.mem_cons_of_mem b hx)
    rw [hasm] at hrest
    rw [hrest rfl rfl (fun k => nomatch k) (by rw [hn]; omega), ← ht, sendData_sendData_asm, hcount]
    simp [FrameAsm.heldBytes, encodeCallsign_eq]

/-! ## Header and information -/

/-- The address commands and FR.HDR of a frame just begun send the header (R180, R185). -/
theorem runAll_header {cs : List Callsign} (hbase : ∀ c ∈ cs, c.base.length ≤ 6) (htwo : 2 ≤ cs.length)
    (hten : cs.length ≤ 10) {s : State} (hasm : s.regs.asm = ⟨.address, false, 0, 0, 0⟩) :
    runAll (cs.flatMap callInstrs ++ [Instr.frHdr]) s = .next (sendData (headerBytes cs)
      { s with regs.asm := ⟨.info, false, 0, 0, BitVec.ofNat 4 cs.length⟩ }) := by
  obtain rfl | ⟨init, last, rfl⟩ := List.eq_nil_or_concat' cs
  · exact absurd htwo (by decide)
  rw [List.length_append, List.length_singleton] at htwo hten
  have hcount : 2 ≤ (BitVec.ofNat 4 (init.length + 1)).toNat := by bv_omega
  have hcalls := runAll_callsigns init hbase (s := s)
  rw [hasm] at hcalls
  rw [runAll_append (hcalls rfl rfl (fun _ => rfl) (by simpa using hten))]
  generalize ht : sendData _ _ = t
  have hasm' : t.regs.asm = ⟨.address, true, encodeChar last.ssid, 0, BitVec.ofNat 4 (init.length + 1)⟩ := by
    rw [← ht, sendData_keeps_asm]
    simp
  have hheader := exec_frHdr (s := t)
  rw [hasm'] at hheader
  rw [runAll_cons (hheader rfl rfl hcount), ← ht, sendData_sendData_asm, headerBytes, encodeAddresses_concat]
  simp [FrameAsm.heldBytes, runAll]

/-- The FR.INFO commands of a text send its bytes (R186). -/
theorem runAll_infoInstrs (text : List Byte) {s : State} (hf : s.regs.asm.fstate = .info) :
    runAll (infoInstrs text) s = .next (sendData text s) := by
  induction text generalizing s with
  | nil => rfl
  | cons d text ih =>
    have hrest := ih (s := sendData [d] s) (by rw [sendData_keeps_asm, hf])
    exact (runAll_cons (exec_frInfo d hf)).trans hrest

/-! ## The trailer -/

/-- Data bytes and the trailer after them are one run of line bits, the FCS stuffed on from the data (R181, R187). -/
theorem sendTrailer_sendData (ds : List Byte) (f : BitVec 16) (s : State) (h : s.regs.line.ones.toNat ≤ 4) :
    sendTrailer f (sendData ds s) =
      setOnes (BitVec.ofNat 3 (runAfter s.regs.line.ones.toNat (bitsOf (ds ++ [fcsLow f, fcsHigh f]))))
        (sendLine (stuffFrom s.regs.line.ones.toNat (bitsOf (ds ++ [fcsLow f, fcsHigh f])) ++ bitsLsb Config.flag)
          { s with regs.crc := crcBits s.regs.crc (bitsOf ds) }) := by
  have hdata : sendData ds s = sendPayload (bitsOf ds) { s with regs.crc := crcBits s.regs.crc (bitsOf ds) } := by
    rw [sendData_eq_bits, sendDataBits_eq_payload]
    exact (sendPayload_crc _ _ s).symm
  have hfcs (t : State) : sendTrailer f t = lineByte Config.flag (sendPayload (bitsOf [fcsLow f, fcsHigh f]) t) := rfl
  have hpayload := sendPayload_eq (bitsOf (ds ++ [fcsLow f, fcsHigh f]))
    { s with regs.crc := crcBits s.regs.crc (bitsOf ds) } h
  rw [hfcs, hdata, ← sendPayload_append, ← bitsOf_append, hpayload, lineByte_eq, ← setOnes_sendLine, ← sendLine_append]

/-! ## The whole frame -/

/-- Two runs of line bits, CRC and the frame assembler set between them, are one run with them set before it. -/
theorem sendLine_sendLine_set (xs ys : List Bool) (c : BitVec 16) (a : FrameAsm) (s : State) :
    sendLine ys { sendLine xs s with regs.crc := c, regs.asm := a } =
      sendLine (xs ++ ys) { s with regs.crc := c, regs.asm := a } := by
  rw [sendLine_append, sendLine_eq xs, sendLine_eq xs]

theorem sendData_crc (ds : List Byte) (s : State) : (sendData ds s).regs.crc = crcBits s.regs.crc (bitsOf ds) := by
  rw [sendData_eq_bits, sendDataBits_eq_payload]

/-- The commands after FR.BEGIN: one run of line bits, the payload's stuffed and the flag's not, then the frame
closed. -/
theorem runAll_opened {cs : List Callsign} (text : List Byte) (hbase : ∀ c ∈ cs, c.base.length ≤ 6)
    (htwo : 2 ≤ cs.length) (hten : cs.length ≤ 10) {s : State} (hasm : s.regs.asm = ⟨.address, false, 0, 0, 0⟩)
    (hcrc : s.regs.crc = 0xFFFF) (hones : s.regs.line.ones = 0) :
    let message := headerBytes cs ++ text
    ∃ ones naddr, runAll (cs.flatMap callInstrs ++ [Instr.frHdr] ++ (infoInstrs text ++ [Instr.frEnd])) s =
      .next (closeFrame (digest (crcBits 0xFFFF (bitsOf message))) (setOnes ones
        (sendLine (stuffFrom 0 (bitsOf (message ++ fcsBytes message)) ++ bitsLsb 0x7E)
          { s with
            regs.crc := crcBits 0xFFFF (bitsOf message)
            regs.asm := ⟨.info, false, 0, 0, naddr⟩ }))) := by
  intro message
  rw [runAll_append (runAll_header hbase htwo hten hasm),
    runAll_append (runAll_infoInstrs text (by rw [sendData_keeps_asm])), ← sendData_append,
    runAll_cons (exec_frEnd (by rw [sendData_keeps_asm])), sendData_crc, sendTrailer_sendData _ _ _ (by simp [hones])]
  simp only [hcrc, hones]
  exact ⟨_, _, rfl⟩

/-- UIFRAME's commands: the frame's line bits from the per-frame initial values, then the frame closed (R111, R180). -/
theorem runAll_uiFrame {dst src : Callsign} {path : List Callsign} (text : List Byte) {s : State}
    (hbase : ∀ c ∈ dst :: src :: path, c.base.length ≤ 6) (hpath : path.length ≤ 8)
    (hidle : s.regs.asm.fstate = .idle) :
    let crc := crcBits 0xFFFF (bitsOf (headerBytes (dst :: src :: path) ++ text))
    ∃ ones naddr, runAll (uiFrameInstrs dst src path text) s = .next (closeFrame (digest crc) (setOnes ones
      (sendLine (frameLineBits s.regs.setup (dst :: src :: path) text)
        (frameStart crc ⟨.info, false, 0, 0, naddr⟩ s)))) := by
  intro crc
  have hinstrs : uiFrameInstrs dst src path text = .frBegin ::
      ((dst :: src :: path).flatMap callInstrs ++ [Instr.frHdr] ++ (infoInstrs text ++ [Instr.frEnd])) := by
    simp [uiFrameInstrs]
  obtain ⟨hones, hcrc, hasm, -⟩ :=
    sendLine_frameStart_keeps (preambleBits s.regs.setup) 0xFFFF ⟨.address, false, 0, 0, 0⟩ s
  obtain ⟨ones, naddr, hrest⟩ := runAll_opened text hbase (Nat.le_add_left 2 _) (Nat.add_le_add_right hpath 2)
    hasm hcrc hones
  refine ⟨ones, naddr, ?_⟩
  rw [hinstrs, runAll_cons (exec_frBegin hidle), hrest, sendLine_sendLine_set, frameLineBits,
    List.append_assoc (preambleBits _)]
  rfl

/-- What is sent stays sent when ONES is set and the frame closed (R33, R187). -/
theorem SentLine.closeFrame {r : Regs} {xs : List Bool} {s t : State} (h : SentLine r xs s t) (n : BitVec 3)
    (f : BitVec 16) : SentLine r xs s (closeFrame f (setOnes n t)) :=
  ⟨h.nrzi, h.offers, h.symcnt, h.smpcnt, h.clkacc, h.phase, h.setup, h.ctrl,
    h.ports.trans ⟨rfl, rfl, rfl, rfl, rfl, rfl⟩⟩

/-- Settles O30: the frame's line bits are one run from the per-frame initial values. -/
theorem frameIsSentAsLaidOut : Obligations.FrameIsSentAsLaidOut := by
  intro dst src path text s hbase hpath hidle
  obtain ⟨ones, naddr, hrun⟩ := runAll_uiFrame text hbase hpath hidle
  refine ⟨_, hrun, (sendLine_frameStart_sent ..).closeFrame ones _, ?_⟩
  rw [sendLine_eq]
  generalize crcBits 0xFFFF _ = crc
  exact ⟨rfl, rfl, rfl, rfl⟩

end Sys2Proof.Machine
end

section
/-! PROOFS. A whole UI frame counted (R190, R252): how many bits its layout has, and how many samples a run of line bits
takes. -/

namespace Sys2Proof.Machine

/-! ## Samples of a run of line bits -/

/-- The records of a run of line bits are as many as the clock makes due over the whole run (R242, R244). -/
theorem lineRecords_length {r : Regs} (h : SynthReady r.setup.srate r.synth) (xs : List Bool) :
    (lineRecords r xs).length = samplesDue (r.synth.clkacc.toInt + r.setup.srate.toNat * xs.length) := by
  have hclock := synthAfter_clkacc _ _ (nrziFrom r.line.nrzi xs) h
  obtain ⟨hlow, hhigh⟩ := (synthAfter_ready _ _ (nrziFrom r.line.nrzi xs) h).clock
  rw [synthRecords_eq_modulate _ _ _ h, nrziFrom_length] at hclock
  change _ = _ - 1200 * ((lineRecords r xs).length : Int) at hclock
  rw [hclock] at hlow hhigh
  unfold samplesDue
  omega

theorem samplesDue_natCast (n : Nat) : samplesDue n = (n + 1199) / 1200 := by
  unfold samplesDue
  omega

/-- A run of line bits from the per-frame initial values, counted (R190, R252). -/
theorem SentLine.counts_from_zero {r : Regs} {xs : List Bool} {s t : State} (h : SentLine r xs s t)
    (hzero : r.synth = ⟨0, 0, 0, 0⟩) :
    let R := r.setup.srate.toNat
    t.regs.synth.symcnt = BitVec.ofNat 32 xs.length ∧
      t.offers.length = s.offers.length + (xs.length * R + 1199) / 1200 ∧
      t.regs.synth.smpcnt = BitVec.ofNat 32 ((xs.length * R + 1199) / 1200) ∧
      t.regs.synth.clkacc.toInt = xs.length * R - 1200 * ((xs.length * R + 1199) / 1200 : Nat) := by
  intro R
  have hclock : r.synth.clkacc.toInt + R * xs.length = (xs.length * R : Nat) := by
    rw [hzero, Nat.cast_mul, mul_comm]
    exact zero_add _
  have hcount : (lineRecords r xs).length = (xs.length * R + 1199) / 1200 := by
    rw [lineRecords_length (by rw [hzero]; exact synthReady_init _), hclock, samplesDue_natCast]
  refine ⟨?_, ?_, ?_, ?_⟩
  · rw [h.symcnt, hzero]
    exact BitVec.zero_add _
  · rw [h.offers, List.length_append, hcount]
  · rw [h.smpcnt, hcount, hzero]
    exact BitVec.zero_add _
  · rw [h.clkacc, hclock, hcount, Nat.cast_mul]

/-! ## Bits of the layout -/

theorem bitsOf_length (ds : List Byte) : (bitsOf ds).length = 8 * ds.length := by
  induction ds with
  | nil => rfl
  | cons d ds ih =>
    have hbits : bitsOf (d :: ds) = bitsLsb d ++ bitsOf ds := rfl
    rw [hbits, List.length_append, ih, List.length_cons, Nat.mul_add, Nat.add_comm]
    rfl

theorem preambleBits_length (c : Setup) : (preambleBits c).length = 8 * c.precnt.toNat + 8 * c.flagcnt.toNat := by
  simp [preambleBits, bitsOf_length]

theorem encodeCallsign_length {c : Callsign} (h : c.base.length ≤ 6) : (encodeCallsign c).length = 7 := by
  simp [encodeCallsign_eq, baseBytes_length h]

theorem flatMap_encodeCallsign_length {cs : List Callsign} (h : ∀ c ∈ cs, c.base.length ≤ 6) :
    (cs.flatMap encodeCallsign).length = 7 * cs.length := by
  induction cs with
  | nil => rfl
  | cons c cs ih =>
    obtain ⟨hc, hcs⟩ := List.forall_mem_cons.mp h
    rw [List.flatMap_cons, List.length_append, encodeCallsign_length hc, ih hcs, List.length_cons]
    omega

/-- Setting the last byte's end-of-address bit keeps the length (R165). -/
theorem encodeAddresses_length {cs : List Callsign} (h : ∀ c ∈ cs, c.base.length ≤ 6) :
    (encodeAddresses cs).length = 7 * cs.length := by
  obtain rfl | ⟨init, last, rfl⟩ := List.eq_nil_or_concat' cs
  · rfl
  · obtain ⟨hinit, hlast⟩ := List.forall_mem_append.mp h
    have hbytes := flatMap_encodeCallsign_length hinit
    have hbase := baseBytes_length (hlast last (List.mem_singleton_self last))
    simp only [encodeAddresses_concat, List.length_append, List.length_singleton]
    omega

/-- Stuffing after `run` 1 bits inserts a fifth of each maximal run of 1 bits, the first run lengthened by `run`
(R217). -/
theorem stuffFrom_length {run : Nat} (hrun : run ≤ 4) {bs first : List Bool} {rest : List (List Bool)}
    (h : bs.splitOnP (· == false) = first :: rest) :
    (stuffFrom run bs).length = bs.length + ((run + first.length) / 5 + (rest.map (·.length / 5)).sum) := by
  induction bs generalizing run first rest with
  | nil =>
    cases h
    have hshort : run / 5 = 0 := Nat.div_eq_of_lt (by omega)
    simp [stuffFrom, hshort]
  | cons b bs ih =>
    obtain ⟨first', rest', htail⟩ := List.exists_cons_of_ne_nil (List.splitOnP_ne_nil (· == false) bs)
    rw [List.splitOnP_cons_eq_if_modifyHead, htail] at h
    cases b with
    | false =>
      cases h
      have hrest := ih (Nat.zero_le 4) htail
      simp only [stuffFrom, List.length_cons, List.length_nil, List.map_cons, List.sum_cons]
      omega
    | true =>
      cases h
      simp only [stuffFrom, List.length_cons]
      split
      · have hrest := ih (Nat.zero_le 4) htail
        simp only [List.length_cons]
        omega
      · have hrest := ih (run := run + 1) (by omega) htail
        simp only [List.length_cons]
        omega

/-- Stuffing inserts a fifth of each maximal run of 1 bits (R190, R217). -/
theorem stuffFrom_zero_length (bs : List Bool) :
    (stuffFrom 0 bs).length = bs.length + ((bs.splitOnP (· == false)).map (·.length / 5)).sum := by
  obtain ⟨first, rest, hruns⟩ := List.exists_cons_of_ne_nil (List.splitOnP_ne_nil (· == false) bs)
  rw [stuffFrom_length (Nat.zero_le 4) hruns, hruns, List.map_cons, List.sum_cons, Nat.zero_add]

/-- The line bits of a whole frame, counted (R190). -/
theorem frameLineBits_length (c : Setup) {cs : List Callsign} (text : List Byte)
    (h : ∀ x ∈ cs, x.base.length ≤ 6) :
    let message := headerBytes cs ++ text
    (frameLineBits c cs text).length = 8 * c.precnt.toNat + 8 * c.flagcnt.toNat +
      (8 * (7 * cs.length + 4 + text.length) +
        (((bitsOf (message ++ fcsBytes message)).splitOnP (· == false)).map (·.length / 5)).sum) + 8 := by
  intro message
  have hbytes : (message ++ fcsBytes message).length = 7 * cs.length + 4 + text.length := by
    have haddresses := encodeAddresses_length h
    simp only [message, headerBytes, fcsBytes, List.length_append, List.length_cons, List.length_nil]
    omega
  rw [frameLineBits, List.length_append, List.length_append, preambleBits_length, stuffFrom_zero_length, bitsOf_length,
    hbytes]
  rfl

/-- Settles O31: the layout's bits, counted, are one run of line bits from the initial clock. -/
theorem frameLengthAndSampleCount : Obligations.FrameLengthAndSampleCount := by
  intro dst src path text s hbase hpath hidle
  obtain ⟨t, hrun, hsent, -⟩ := frameIsSentAsLaidOut dst src path text s hbase hpath hidle
  refine ⟨t, hrun, ?_⟩
  intro message runs m R
  have hlength : (dst :: src :: path).length = 2 + path.length := Nat.add_comm path.length 2
  have hbits : (frameLineBits s.regs.setup (dst :: src :: path) text).length = m := by
    rw [frameLineBits_length _ _ hbase, hlength]
  have hcounts := hsent.counts_from_zero rfl
  rwa [hbits] at hcounts

end Sys2Proof.Machine
end

section
/-! PROOFS. The Line Coder on whole sequences: NRZI as a toggle on 0 and as a parity (R216), where stuffing inserts a 0
and that no flag appears (R217), and the reference unstuffing as its inverse (R219). -/

namespace Sys2Proof.Machine

/-! ## NRZI -/

/-- Each symbol is the one before, toggled by a 0 (R216). -/
theorem nrziFrom_getElem_step {level : Bool} {xs : List Bool} {i : Nat} (h : i < xs.length)
    (h' : i < (nrziFrom level xs).length) :
    (nrziFrom level xs)[i] = (((level :: nrziFrom level xs)[i]'(Nat.lt_succ_of_lt h')) == xs[i]) := by
  induction xs generalizing level i with
  | nil => simp at h
  | cons x xs ih =>
    cases i with
    | zero => rfl
    | succ i => exact ih (Nat.lt_of_succ_lt_succ h) (Nat.lt_of_succ_lt_succ h')

theorem bool_beq_assoc : ∀ a b c : Bool, ((a == b) == c) = (a == (b == c)) := by decide

/-- A 0 in front flips the parity of the 0 bits, a 1 leaves it. -/
theorem even_count_false_cons (x : Bool) (xs : List Bool) :
    decide ((x :: xs).count false % 2 = 0) = (x == decide (xs.count false % 2 = 0)) := by
  cases x with
  | true => simp
  | false =>
    simp only [List.count_cons_self, Bool.false_beq, ← decide_not, decide_eq_decide]
    omega

/-- Each symbol is the starting level when the 0 bits up to it are even in number, and its inverse when odd (R216). -/
theorem nrziFrom_getElem_parity {level : Bool} {xs : List Bool} {i : Nat} (h : i < (nrziFrom level xs).length) :
    (nrziFrom level xs)[i] = (level == decide ((xs.take (i + 1)).count false % 2 = 0)) := by
  induction xs generalizing level i with
  | nil => simp [nrziFrom] at h
  | cons x xs ih =>
    rw [List.take_succ_cons, even_count_false_cons, ← bool_beq_assoc]
    cases i with
    | zero => simp [nrziFrom]
    | succ i => exact ih (Nat.lt_of_succ_lt_succ h)

/-- The level a sequence leaves is its last symbol, or the starting level where it is empty. -/
theorem levelAfter_eq_getLast (level : Bool) (xs : List Bool) :
    levelAfter level xs = (level :: nrziFrom level xs).getLast (List.cons_ne_nil _ _) := by
  induction xs generalizing level with
  | nil => rfl
  | cons x xs ih => exact ih (level == x)

theorem sendLine_symcnt (xs : List Bool) (s : State) :
    (sendLine xs s).regs.synth.symcnt = s.regs.synth.symcnt + BitVec.ofNat 32 xs.length := by
  rw [sendLine_eq, synthAfter_symcnt, nrziFrom_length]

theorem sendLine_nrzi (xs : List Bool) (s : State) :
    (sendLine xs s).regs.line.nrzi = levelAfter s.regs.line.nrzi xs := by
  rw [sendLine_eq]

/-- Settles O32: the symbols step by step and as a parity, and the machine sends them as one run of line bits. -/
theorem nrziTogglesOnZero : Obligations.NrziTogglesOnZero := fun level xs =>
  ⟨nrziFrom_length level xs, fun _ h h' => nrziFrom_getElem_step h h',
    fun _ h => (nrziFrom_getElem_parity h).trans (Bool.true_beq _),
    fun s => sendLine_symcnt xs s,
    fun s => (sendLine_nrzi xs s).trans (levelAfter_eq_getLast _ xs)⟩

/-! ## Where stuffing inserts a 0 -/

/-- How many 1 bits a sequence ends in. -/
def trailingRun (bs : List Bool) : Nat := (bs.reverse.takeWhile (· == true)).length

@[simp] theorem trailingRun_concat_true (bs : List Bool) : trailingRun (bs ++ [true]) = trailingRun bs + 1 := by
  simp [trailingRun]

@[simp] theorem trailingRun_concat_false (bs : List Bool) : trailingRun (bs ++ [false]) = 0 := by
  simp [trailingRun]

/-- The stuffing counter is the payload's own run of 1 bits, reduced at each inserted 0 (R33, R217). -/
theorem runAfter_zero_eq_mod (bs : List Bool) : runAfter 0 bs = trailingRun bs % 5 := by
  induction bs using List.reverseRecOn with
  | nil => rfl
  | append_singleton bs b ih =>
    rw [runAfter_append, ih]
    cases b with
    | false => simp [runAfter]
    | true =>
      simp only [runAfter, trailingRun_concat_true]
      split <;> omega

/-- What is sent for bit `i` of a payload: the bit, and a 0 where it completes a multiple of five 1 bits (R217). -/
def sentForBit (bs : List Bool) (i : Nat) : List Bool :=
  let run := trailingRun (bs.take (i + 1))
  bs.getD i false :: (if run ≠ 0 ∧ run % 5 = 0 then [false] else [])

/-- Later bits do not change what is sent for a bit. -/
theorem sentForBit_append {bs : List Bool} {i : Nat} (h : i < bs.length) (cs : List Bool) :
    sentForBit (bs ++ cs) i = sentForBit bs i := by
  rw [sentForBit, sentForBit, List.take_append_of_le_length h, List.getD_append _ _ _ _ h]

/-- What is sent for the last bit, by the stuffing counter before it. -/
theorem sentForBit_last (bs : List Bool) (b : Bool) :
    sentForBit (bs ++ [b]) bs.length = stuffFrom (runAfter 0 bs) [b] := by
  have htake : (bs ++ [b]).take (bs.length + 1) = bs ++ [b] := List.take_of_length_le (by simp)
  have hbit : (bs ++ [b]).getD bs.length false = b := by simp [List.getD]
  rw [sentForBit, htake, hbit, runAfter_zero_eq_mod]
  cases b with
  | false => simp [stuffFrom]
  | true =>
    have hfifth : trailingRun bs % 5 + 1 = 5 ↔ trailingRun bs + 1 ≠ 0 ∧ (trailingRun bs + 1) % 5 = 0 := by omega
    simp only [stuffFrom, trailingRun_concat_true, hfifth]
    split <;> rfl

/-- Stuffing sends for each bit what that bit's run of 1 bits asks for (R217). -/
theorem stuffFrom_zero_eq_flatMap (bs : List Bool) :
    stuffFrom 0 bs = (List.range bs.length).flatMap (sentForBit bs) := by
  induction bs using List.reverseRecOn with
  | nil => rfl
  | append_singleton bs b ih =>
    have hbefore : (List.range bs.length).flatMap (sentForBit (bs ++ [b])) =
        (List.range bs.length).flatMap (sentForBit bs) :=
      List.flatMap_congr fun _ hi => sentForBit_append (List.mem_range.mp hi) [b]
    rw [stuffFrom_append, ih, ← sentForBit_last, List.length_append, List.length_singleton, List.range_succ,
      List.flatMap_append, hbefore, List.flatMap_singleton]

/-! ## No flag in stuffed bits -/

/-- A run of 1 bits does not reach across a 0. -/
theorem ones_infix_of_append_false {n : Nat} {a b : List Bool}
    (h : List.replicate n true <:+: a ++ false :: b) :
    List.replicate n true <:+: a ∨ List.replicate n true <:+: b := by
  have hnil {l : List Bool} (hl : ∀ x ∈ l, x = true) (hp : l <+: false :: b) : l = [] := by
    obtain rfl | ⟨t, rfl, -⟩ := List.prefix_cons_iff.mp hp
    · rfl
    · exact nomatch hl false List.mem_cons_self
  have hones : ∀ x ∈ List.replicate n true, x = true := fun _ => List.eq_of_mem_replicate
  rcases List.infix_append_iff.mp h with ha | hb | ⟨l, r, hlr, hl, hr⟩
  · exact .inl ha
  · rcases List.infix_cons_iff.mp hb with hp | hb
    · exact .inr (hnil hones hp ▸ List.nil_infix)
    · exact .inr hb
  · have hempty := hnil (fun x hx => hones x (hlr ▸ List.mem_append_right l hx)) hr
    rw [hlr, hempty, List.append_nil]
    exact .inl hl.isInfix

/-- Stuffed bits hold no six consecutive 1 bits, the `run` sent before them included (R217). -/
theorem stuffFrom_no_six_ones {run : Nat} (hrun : run ≤ 4) (bs : List Bool) :
    ¬ List.replicate 6 true <:+: List.replicate run true ++ stuffFrom run bs := by
  have hshort {k : Nat} (hk : k ≤ 5) : ¬ List.replicate 6 true <:+: List.replicate k true := fun h => by
    have hlength := h.length_le
    simp only [List.length_replicate] at hlength
    omega
  induction bs generalizing run with
  | nil => simpa [stuffFrom] using hshort (by omega)
  | cons b bs ih =>
    have hrest := ih (Nat.zero_le 4)
    cases b with
    | false => exact fun h => (ones_infix_of_append_false h).elim (hshort (by omega)) hrest
    | true =>
      have hpush (l : List Bool) : List.replicate run true ++ true :: l = List.replicate (run + 1) true ++ l := by
        rw [List.replicate_succ', List.append_assoc, List.singleton_append]
      rw [stuffFrom]
      split
      · rw [hpush]
        exact fun h => (ones_infix_of_append_false h).elim (hshort (by omega)) hrest
      · rw [hpush]
        exact ih (by omega)

/-- The flag's bits hold six consecutive 1 bits (R217). -/
theorem six_ones_infix_flag : List.replicate 6 true <:+: bitsLsb 0x7E := ⟨[false], [false], by decide⟩

/-- Settles O33: the bits sent for each payload bit, and no six 1 bits, so no flag. -/
theorem stuffingInsertsAfterFifthOne : Obligations.StuffingInsertsAfterFifthOne := fun bs =>
  have hsix := stuffFrom_no_six_ones (Nat.zero_le 4) bs
  ⟨stuffFrom_zero_eq_flatMap bs, hsix, stuffFrom_zero_length bs,
    fun hflag => hsix (six_ones_infix_flag.trans hflag)⟩

/-! ## Unstuffing -/

/-- Unstuffing with the stuffing's own count of 1 bits recovers the payload (R219). -/
theorem unstuffFrom_stuffFrom (run : Nat) (bs : List Bool) : unstuffFrom run false (stuffFrom run bs) = bs := by
  induction bs generalizing run with
  | nil => rfl
  | cons b bs ih =>
    cases b with
    | false => simp [stuffFrom, unstuffFrom, ih]
    | true =>
      rw [stuffFrom]
      split <;> simp [unstuffFrom, *]

/-- Settles O34: both functions start from no 1 bits. -/
theorem unstuffInvertsStuff : Obligations.UnstuffInvertsStuff := unstuffFrom_stuffFrom 0

end Sys2Proof.Machine
end

section
/-! PROOFS. The samples of a symbol sequence (R244), and TX.SILENCE (R251). -/

namespace Sys2Proof.Machine

/-! ## Counting samples -/

/-- The samples due over a longer time: those due at first, then those the clock they leave still makes due (R242). -/
theorem samplesDue_add {d e : Int} (hd : -1199 ≤ d) (he : 0 ≤ e) :
    samplesDue (d + e) = samplesDue d + samplesDue (d - 1200 * samplesDue d + e) := by
  unfold samplesDue
  omega

/-- A symbol sequence has the samples due over its whole time, however they fall on its symbols (R244). -/
theorem modulateFrom_length (R : Nat) {d : Int} (hd : -1199 ≤ d ∧ d ≤ 0) (p : Nat) (syms : List Bool) :
    (modulateFrom R d p syms).length = samplesDue (d + R * syms.length) := by
  induction syms generalizing d p with
  | nil => simpa [modulateFrom] using (samplesDue_nonpos hd.2).symm
  | cons t syms ih =>
    have hstart : -1199 ≤ d + R := by omega
    rw [modulateFrom, List.length_append, symbolRecords_length, ih (samplesDue_leaves _ hstart),
      ← samplesDue_add hstart (by positivity), List.length_cons]
    congr 1
    push_cast
    ring

theorem modulateFrom_length_from_zero (R : Nat) (syms : List Bool) :
    (modulateFrom R 0 0 syms).length = samplesUpTo R syms.length := by
  rw [modulateFrom_length R (by decide), zero_add, ← Nat.cast_mul, samplesDue_natCast, Nat.mul_comm]
  rfl

theorem samplesUpTo_succ (R n : Nat) : samplesUpTo R (n + 1) = (n * R + R + 1199) / 1200 := by
  rw [samplesUpTo, Nat.succ_mul]

theorem samplesUpTo_le_succ (R n : Nat) : samplesUpTo R n ≤ samplesUpTo R (n + 1) := by
  rw [samplesUpTo_succ, samplesUpTo]
  omega

/-- The samples of one symbol: R / 1200 rounded down or up, and the patterns of the named rates (R244). -/
theorem samplesUpTo_step {R n c : Nat} (h : samplesUpTo R (n + 1) = samplesUpTo R n + c) :
    (c = R / 1200 ∨ c = (R + 1199) / 1200) ∧ (R % 1200 = 0 → c = R / 1200) ∧
      (R = 44100 → c = if n % 4 = 3 then 36 else 37) ∧ (R = 8000 → c = if n % 3 = 2 then 6 else 7) := by
  rw [samplesUpTo_succ, samplesUpTo] at h
  refine ⟨?_, fun hwhole => ?_, ?_, ?_⟩
  · omega
  · omega
  · rintro rfl
    split_ifs with hlast
    · omega
    · have hfirst : n % 4 = 0 ∨ n % 4 = 1 ∨ n % 4 = 2 := by omega
      rcases hfirst with hn | hn | hn <;> omega
  · rintro rfl
    split_ifs with hlast
    · omega
    · have hfirst : n % 3 = 0 ∨ n % 3 = 1 := by omega
      rcases hfirst with hn | hn <;> omega

/-- Settles O35: a sequence's samples are those due over its time, so a symbol's are a difference of two such totals. -/
theorem samplesPerSymbol : Obligations.SamplesPerSymbol := by
  refine fun R _ _ => ⟨modulateFrom_length_from_zero R, fun n => ?_, fun syms t n hn => ?_⟩
  · obtain ⟨c, hc⟩ := Nat.exists_eq_add_of_le (samplesUpTo_le_succ R n)
    exact ⟨c, hc, samplesUpTo_step hc⟩
  · rw [modulateFrom_length_from_zero, modulateFrom_length_from_zero, hn, List.length_append, List.length_singleton,
      Nat.add_sub_cancel' (samplesUpTo_le_succ R _)]

/-! ## TX.SILENCE -/

/-- Settles O39: the opcode has form N24, and the command has no error but SEQUENCE outside IDLE. -/
theorem txSilenceEmitsSilence : Obligations.TxSilenceEmitsSilence := by
  refine ⟨decodeWord_whole 0x40 rfl, fun n s => ⟨fun hidle => ?_, fun hopen => ?_⟩⟩
  · exact exec_of_ok rfl (errorOf_eq_none_iff.mpr ⟨decide_eq_true hidle, rfl, rfl, rfl⟩)
  · exact exec_refused rfl (decide_eq_false hopen)

end Sys2Proof.Machine
end

section
/-! PROOFS. The frame commands as runs of line bits: in an open frame every command sends its line bits, or none where it
raises an error, and with that the phase word's continuity (R241, R245) and the rate 0 (R247). -/

namespace Sys2Proof.Machine

/-! ## What a command of an open frame sends -/

/-- Line bits sent from a synthesizer that is ready (R215, R243). -/
theorem sendLine_sent (xs : List Bool) {s : State} (h : SynthReady s.regs.setup.srate s.regs.synth) :
    SentLine s.regs xs s (sendLine xs s) := by
  rw [sendLine_eq]
  exact sentLine_intro h rfl rfl rfl rfl rfl ⟨rfl, rfl, rfl, rfl, rfl, rfl⟩

/-- Nothing was sent. -/
theorem SentLine.nothing {s t : State} (hline : t.regs.line = s.regs.line) (hsynth : t.regs.synth = s.regs.synth)
    (hoffers : t.offers = s.offers) (hkeeps : CommandKeeps s t) : SentLine s.regs [] s t where
  nrzi := congrArg LineCoder.nrzi hline
  offers := hoffers.trans (List.append_nil _).symm
  symcnt := (congrArg Synth.symcnt hsynth).trans (BitVec.add_zero _).symm
  smpcnt := (congrArg Synth.smpcnt hsynth).trans (BitVec.add_zero _).symm
  clkacc := by simp [hsynth, lineRecords, nrziFrom, modulateFrom]
  phase := congrArg (fun y : Synth => y.phase.toNat) hsynth
  setup := hkeeps.setup
  ctrl := hkeeps.ctrl
  ports := hkeeps.toPortsKept

section OpenFrame

variable {s : State} (h : s.regs.Inv) (hopen : s.regs.asm.fstate ≠ .idle)

include h hopen

/-- In an open frame a command that raises no error sends its line bits (R166, R167, R185 to R187). -/
theorem commandEffect_sent {i : Instr} (hok : errorOf i s.regs = none) :
    SentLine s.regs (lineBitsOf i s.regs) s (commandEffect i s) := by
  obtain ⟨hphase, -, -, -⟩ := errorOf_eq_none_iff.mp hok
  have hkeeps : CommandKeeps s (commandEffect i s) := commandResult_of_ok hok ▸ commandResult_keeps i s
  cases i
  case nop | crcDigest | crcCheck | frAbort | mmioRd | mmioWr => exact .nothing rfl rfl rfl hkeeps
  case crcInit | crcBit | crcByte | frBegin | txSilence => exact absurd (of_decide_eq_true hphase) hopen
  case addrCh d =>
    rw [commandEffect, sendChar_eq d s h.asm.hold_zero]
    exact (sendData_in_frame _ s _ h hopen).1
  case addrSsid d =>
    rw [commandEffect, completeCallsign_eq d s h.asm.hold_zero]
    exact (sendData_in_frame _ s _ h hopen).1
  case frHdr =>
    rw [commandEffect, sendHeader_eq]
    exact (sendData_in_frame _ s _ h hopen).1
  case frInfo d => exact (sendData_in_frame [d] s s.regs.asm h hopen).1
  case frEnd =>
    rw [commandEffect, sendTrailer_eq _ _ h.ones_le]
    exact (sendLine_sent _ (h.ready hopen)).closeFrame _ _

/-- In an open frame every command sends the line bits it is to send, none where it raises an error (R307). -/
theorem commandResult_sent (i : Instr) : SentLine s.regs (sentBits i s.regs) s (commandResult i s) := by
  cases he : errorOf i s.regs with
  | some c =>
    rw [commandResult_of_error he, sentBits_of_error (by simp [he])]
    exact .nothing (by simp) (by simp) (by simp) (raiseError_keeps c _ s)
  | none =>
    rw [commandResult_of_ok he, sentBits_of_ok he]
    exact commandEffect_sent h hopen he

end OpenFrame

/-- Settles O36: the records are a run of line bits, from the registers as they stand or from the initial ones. -/
theorem phaseIsContinuous : Obligations.PhaseIsContinuous := by
  intro i s hi hinv hcase
  by_cases hidle : s.regs.asm.fstate = .idle
  · obtain rfl : i = .frBegin := hcase.resolve_left (not_not_intro hidle)
    have hsent := sendLine_frameStart_sent (preambleBits s.regs.setup) 0xFFFF ⟨.address, false, 0, 0, 0⟩ s
    exact ⟨_, _, exec_frBegin hidle, hsent.offers, fun hopen => absurd hidle hopen, fun _ => hsent.phase⟩
  · have hsent := commandResult_sent hinv hidle i
    exact ⟨_, _, exec_command hi s, hsent.offers, fun _ => hsent.phase, fun h => absurd h hidle⟩

/-! ## The rate 0 -/

/-- At R = 0 line bits emit no record, and of the phase word and the counters only SYMCNT moves (R247 (a)). -/
theorem SentLine.of_rate_zero {r : Regs} {xs : List Bool} {s t : State} (h : SentLine r xs s t)
    (hclock : ClockBounded r.synth) (hrate : r.setup.srate = 0) :
    t.offers = s.offers ∧ t.regs.synth.phase = r.synth.phase ∧ t.regs.synth.smpcnt = r.synth.smpcnt := by
  have hready : SynthReady r.setup.srate r.synth := ⟨hclock, fun hpos => absurd hpos (by simp [hrate])⟩
  have hnone : lineRecords r xs = [] := by
    rw [← List.length_eq_zero_iff, lineRecords_length hready]
    exact samplesDue_nonpos (by simpa [hrate] using hclock.2)
  obtain ⟨-, hoffers, -, hsmpcnt, -, hphase, -, -, -⟩ := h
  rw [hnone] at hoffers hsmpcnt hphase
  exact ⟨hoffers.trans (List.append_nil _), BitVec.eq_of_toNat_eq hphase, hsmpcnt.trans (BitVec.add_zero _)⟩

/-- Settles O40: the same runs of line bits, at a rate that makes no sample due. -/
theorem rateZeroEmitsNothing : Obligations.RateZeroEmitsNothing := by
  refine fun i s hi hinv hrate => ⟨fun hopen => ?_, fun hidle hbegin => ?_⟩
  · have hsent := commandResult_sent hinv hopen i
    obtain ⟨hoffers, hphase, hsmpcnt⟩ := hsent.of_rate_zero hinv.clock hrate
    exact ⟨_, exec_command hi s, hoffers, hphase.trans ((hinv.phase hopen).2 hrate), hsmpcnt, hsent.symcnt⟩
  · subst hbegin
    have hsent := sendLine_frameStart_sent (preambleBits s.regs.setup) 0xFFFF ⟨.address, false, 0, 0, 0⟩ s
    obtain ⟨hoffers, hphase, hsmpcnt⟩ := hsent.of_rate_zero (synthReady_init 0).clock hrate
    refine ⟨_, exec_frBegin hidle, hoffers, hphase, hsmpcnt, ?_⟩
    have hprecnt := s.regs.setup.precnt.isLt
    have hflagcnt := s.regs.setup.flagcnt.isLt
    rw [(hsent.counts_from_zero rfl).1, BitVec.toNat_ofNat, preambleBits_length]
    omega

end Sys2Proof.Machine
end

section
/-! PROOFS. The records commands emit (R250): TONE records with AMP of their phase word, or TX.SILENCE's; and the stream
port as a queue, which hands them over in order. -/

namespace Sys2Proof.Machine

/-! ## TONE records -/

/-- A TONE record whose amplitude is AMP of its phase word at the rate (R246, R250). -/
def Sample.IsTone (rate : BitVec 20) (x : Sample) : Prop :=
  x.kind = .tone ∧ x.amp = Config.amp x.phase.toNat rate.toNat

theorem toneLoop_isTone (t : Bool) (rate : BitVec 20) (fuel : Nat) (y : Synth) :
    ∀ x ∈ (toneLoop t rate fuel y).2, x.IsTone rate := by
  induction fuel generalizing y with
  | zero => exact fun x hx => nomatch hx
  | succ fuel ih =>
    rw [toneLoop]
    split
    · exact List.forall_mem_cons.mpr ⟨⟨rfl, rfl⟩, ih _⟩
    · exact fun x hx => nomatch hx

/-- From `s` to `t` TONE records at the rate of `s` were added at the stream port, and the rate kept. -/
structure AddsTones (s t : State) : Prop where
  offers : ∃ recs, t.offers = s.offers ++ recs ∧ ∀ x ∈ recs, x.IsTone s.regs.setup.srate
  srate : t.regs.setup.srate = s.regs.setup.srate

theorem AddsTones.none {s t : State} (ho : t.offers = s.offers) (hr : t.regs.setup.srate = s.regs.setup.srate) :
    AddsTones s t :=
  ⟨⟨[], ho.trans (List.append_nil _).symm, fun _ hx => nomatch hx⟩, hr⟩

theorem AddsTones.trans {s t u : State} (h : AddsTones s t) (k : AddsTones t u) : AddsTones s u := by
  obtain ⟨⟨xs, hxs, hxtone⟩, hxrate⟩ := h
  obtain ⟨⟨ys, hys, hytone⟩, hyrate⟩ := k
  rw [hxrate] at hytone hyrate
  exact ⟨⟨xs ++ ys, by rw [hys, hxs, List.append_assoc], List.forall_mem_append.mpr ⟨hxtone, hytone⟩⟩, hyrate⟩

theorem AddsTones.foldl {α : Type} {f : State → α → State} (hf : ∀ a s, AddsTones s (f s a)) (l : List α) (s : State) :
    AddsTones s (l.foldl f s) := by
  induction l generalizing s with
  | nil => exact .none rfl rfl
  | cons a l ih => exact (hf a s).trans (ih _)

/-! ## What each procedure adds -/

theorem lineBit_addsTones (b : Bool) (s : State) : AddsTones s (lineBit b s) := by
  rw [lineBit_eq]
  exact ⟨⟨_, rfl, toneLoop_isTone _ _ _ _⟩, rfl⟩

theorem sendLine_addsTones (xs : List Bool) (s : State) : AddsTones s (sendLine xs s) := .foldl lineBit_addsTones xs s

theorem setOnes_addsTones (n : BitVec 3) (s : State) : AddsTones s (setOnes n s) := .none rfl rfl

theorem setPhase_addsTones (p : Phase) (s : State) : AddsTones s (setPhase p s) := .none rfl rfl

theorem clearHold_addsTones (s : State) : AddsTones s (clearHold s) := .none rfl rfl

theorem frameInit_addsTones (s : State) : AddsTones s (frameInit s) := .none rfl rfl

theorem closeFrame_addsTones (f : BitVec 16) (s : State) : AddsTones s (closeFrame f s) := .none rfl rfl

theorem stuffBit_addsTones (b : Bool) (s : State) : AddsTones s (stuffBit b s) := by
  have hfirst := lineBit_addsTones b s
  unfold stuffBit
  dsimp only
  split_ifs
  · exact ((hfirst.trans (setOnes_addsTones ..)).trans (lineBit_addsTones ..)).trans (setOnes_addsTones ..)
  · exact hfirst.trans (setOnes_addsTones ..)
  · exact hfirst.trans (setOnes_addsTones ..)

theorem sendPayload_addsTones (bs : List Bool) (s : State) : AddsTones s (sendPayload bs s) :=
  .foldl stuffBit_addsTones bs s

theorem dataByte_addsTones (d : Byte) (s : State) : AddsTones s (dataByte d s) := by
  rw [dataByte_eq, sendDataBits_eq_payload]
  exact (sendPayload_addsTones ..).trans (.none rfl rfl)

theorem sendData_addsTones (ds : List Byte) (s : State) : AddsTones s (sendData ds s) := .foldl dataByte_addsTones ds s

theorem releaseHold_addsTones (s : State) : AddsTones s (releaseHold s) := by
  unfold releaseHold
  split
  · exact (dataByte_addsTones ..).trans (clearHold_addsTones _)
  · exact .none rfl rfl

theorem sendChar_addsTones (d : Byte) (s : State) : AddsTones s (sendChar d s) :=
  (releaseHold_addsTones s).trans ((dataByte_addsTones ..).trans (.none rfl rfl))

theorem completeCallsign_addsTones (d : Byte) (s : State) : AddsTones s (completeCallsign d s) := by
  unfold completeCallsign
  rw [repeat_dataByte]
  exact (releaseHold_addsTones s).trans ((sendData_addsTones ..).trans (.none rfl rfl))

theorem sendHeader_addsTones (s : State) : AddsTones s (sendHeader s) :=
  (dataByte_addsTones ..).trans ((clearHold_addsTones _).trans ((dataByte_addsTones ..).trans
    ((dataByte_addsTones ..).trans (setPhase_addsTones ..))))

theorem beginFrame_addsTones (s : State) : AddsTones s (setPhase .address (sendPreamble (frameInit s))) := by
  rw [sendPreamble_frameInit]
  exact (frameInit_addsTones s).trans ((sendLine_addsTones ..).trans (setPhase_addsTones ..))

theorem sendTrailer_addsTones (f : BitVec 16) (s : State) : AddsTones s (sendTrailer f s) :=
  (sendPayload_addsTones (bitsLsb (fcsLow f)) s).trans
    ((sendPayload_addsTones (bitsLsb (fcsHigh f)) _).trans (sendLine_addsTones (bitsLsb Config.flag) _))

/-! ## What each command adds -/

/-- Every effect but TX.SILENCE's adds TONE records alone. -/
theorem commandEffect_addsTones {i : Instr} (hi : ∀ n, i ≠ .txSilence n) (s : State) :
    AddsTones s (commandEffect i s) := by
  cases i
  case nop | crcInit | crcBit | crcByte | crcDigest | crcCheck | frAbort | mmioRd | mmioWr => exact .none rfl rfl
  case addrCh d => exact sendChar_addsTones d s
  case addrSsid d => exact completeCallsign_addsTones d s
  case frBegin => exact beginFrame_addsTones s
  case frHdr => exact sendHeader_addsTones s
  case frInfo d => exact dataByte_addsTones d s
  case frEnd => exact (sendTrailer_addsTones ..).trans (closeFrame_addsTones ..)
  case txSilence n => exact absurd rfl (hi n)

/-- What `i` may put at the stream port at a rate: a TONE record, or TX.SILENCE's SILENCE record (R250). -/
def Sample.EmittedBy (i : Instr) (rate : BitVec 20) (x : Sample) : Prop :=
  x.IsTone rate ∨ x = silenceSample ∧ ∃ n, i = .txSilence n

/-- A command adds records of R250 behind those already offered. -/
theorem commandResult_offers (i : Instr) (s : State) :
    ∃ recs, (commandResult i s).offers = s.offers ++ recs ∧ ∀ x ∈ recs, x.EmittedBy i s.regs.setup.srate := by
  cases he : errorOf i s.regs with
  | some c =>
    rw [commandResult_of_error he]
    exact ⟨[], by simp, fun _ hx => nomatch hx⟩
  | none =>
    rw [commandResult_of_ok he]
    by_cases hi : ∃ n, i = .txSilence n
    · obtain ⟨n, rfl⟩ := hi
      exact ⟨_, rfl, fun x hx => .inr ⟨List.eq_of_mem_replicate hx, n, rfl⟩⟩
    · obtain ⟨recs, hrecs, htone⟩ := (commandEffect_addsTones (not_exists.mp hi) s).offers
      exact ⟨recs, hrecs, fun x hx => .inl (htone x hx)⟩

/-- Settles O37: a command's error action adds no record, its effect TONE records or TX.SILENCE's. -/
theorem emittedRecordsAreWellFormed : Obligations.EmittedRecordsAreWellFormed := by
  intro i s hi
  obtain ⟨recs, hrecs, hemitted⟩ := commandResult_offers i s
  exact ⟨_, recs, exec_command hi s, hrecs, hemitted⟩

/-! ## The queue of the stream port -/

theorem commandResult_offers_extend (i : Instr) (s : State) : s.offers <+: (commandResult i s).offers := by
  obtain ⟨recs, hrecs, -⟩ := commandResult_offers i s
  exact ⟨recs, hrecs.symm⟩

theorem writeReg_offers_extend {n : RegName} {v : Word} {s t : State} (h : writeReg n v s = .next t) :
    s.offers <+: t.offers := by
  rcases writeReg_cases h with hw | rfl | ⟨c, rfl⟩ | rfl | rfl
  · rcases executeWord_cases hw with rfl | ⟨i, rfl⟩
    · simp
    · exact commandResult_offers_extend i s
  · simp
  · simp
  · by_cases hidle : s.regs.asm.fstate = .idle
    · simp [writeSetup_idle hidle]
    · simp [writeSetup_open hidle]
  · simp

/-- An instruction adds its records behind those already offered (R250). -/
theorem exec_offers_extend {i : Instr} {s t : State} (h : exec i s = .next t) : s.offers <+: t.offers := by
  rcases exec_cases h with rfl | ⟨v, rfl⟩ | ⟨n, v, u, hw, rfl⟩
  · exact commandResult_offers_extend i s
  · simp
  · rw [updateIrq_offers]
    exact writeReg_offers_extend hw

@[simp] theorem settle_offers (s t : State) : (settle s t).offers = t.offers := by
  unfold settle
  split <;> rfl

@[simp] theorem settle_accepted (s t : State) : (settle s t).accepted = t.accepted := by
  unfold settle
  split <;> rfl

/-- An access served adds its records behind those already offered, and hands none over (R81, R250). -/
theorem serve_records {a : Access} {s t : State} (h : serve a s = .next t) :
    t.accepted = s.accepted ∧ s.offers <+: t.offers := by
  cases hd : decodeAccess a with
  | error e =>
    unfold serve at h
    rw [hd] at h
    cases h
  | ok i =>
    rw [serve_ok hd] at h
    obtain ⟨u, hx, rfl⟩ := onNext_next.mp h
    rw [settle_accepted, settle_offers]
    exact ⟨(exec_ports hx).accepted, exec_offers_extend hx⟩

theorem finishCommand_records (s : State) :
    (finishCommand s).accepted = s.accepted ∧ (finishCommand s).offers = s.offers := by
  unfold finishCommand
  split <;> exact ⟨rfl, rfl⟩

/-- The sink takes the oldest record offered, if there is one (R250). -/
theorem sinkAccept_records (s : State) :
    (sinkAccept s).accepted = s.accepted ++ s.offers.take 1 ∧ (sinkAccept s).offers = s.offers.drop 1 := by
  unfold sinkAccept
  split
  · rename_i hnone
    simp [hnone]
  · rename_i x rest hoffers
    simp only [hoffers]
    split
    · exact finishCommand_records _
    · exact ⟨rfl, rfl⟩

/-- The sink taking a record moves it from the front of those offered to the end of those accepted (R250). -/
theorem sinkAccept_moves (s : State) :
    (sinkAccept s).accepted ++ (sinkAccept s).offers = s.accepted ++ s.offers ∧
      s.accepted <+: (sinkAccept s).accepted := by
  obtain ⟨haccepted, hoffers⟩ := sinkAccept_records s
  rw [haccepted, hoffers, List.append_assoc, List.take_append_drop]
  exact ⟨rfl, _, rfl⟩

theorem serve_queues {a : Access} {s t : State} (h : serve a s = .next t) :
    ∃ new, t.accepted ++ t.offers = s.accepted ++ s.offers ++ new ∧ s.accepted <+: t.accepted := by
  obtain ⟨haccepted, new, hnew⟩ := serve_records h
  exact ⟨new, by rw [haccepted, ← hnew, List.append_assoc], by rw [haccepted]⟩

/-- Settles O52, over what a step can do: only one that serves an access adds records, and no access is served while a
command is in progress. -/
theorem recordsLeaveInOrder : Obligations.RecordsLeaveInOrder := by
  intro s t h hreset
  rcases step_cases h with ⟨-, rfl⟩ | ⟨a, rest, -, -, rfl⟩ | ⟨rest, -, rfl⟩ | ⟨rest, hs, -, -⟩ |
    ⟨a, rest, hfree, -, hs, hserve⟩ | ⟨a, as, hfree, hw, -, hserve⟩
  · exact ⟨[], by simp, by simp, fun _ => rfl, fun _ _ => rfl⟩
  · exact ⟨[], by simp, by simp, fun _ => rfl, fun _ _ => rfl⟩
  · obtain ⟨horder, hfirst⟩ := sinkAccept_moves { s with stimuli := rest }
    exact ⟨[], horder.trans (List.append_nil _).symm, hfirst, fun _ => rfl, fun _ _ => rfl⟩
  · exact absurd (by rw [hs]; rfl) hreset
  · obtain ⟨new, horder, hfirst⟩ := serve_queues hserve
    exact ⟨new, horder, hfirst, by simp [hfree], by simp [hs]⟩
  · obtain ⟨new, horder, hfirst⟩ := serve_queues hserve
    exact ⟨new, horder, hfirst, by simp [hfree], by simp [hw]⟩

end Sys2Proof.Machine
end

section
/-! PROOFS. Host access and NOP (R45 to R54, R270, R271): what NOP does, which offsets select a register, and the words
a host reads as sums of their fields. -/

namespace Sys2Proof.Machine

/-- Settles O41: opcode 0x00 has form H, whose operand is the whole IMM, and the meaning of NOP ignores it. -/
theorem nopChangesNothing : Obligations.NopChangesNothing :=
  ⟨decodeWord_whole 0x00 rfl, fun _ _ => rfl⟩

/-! ## The register at an offset (R45) -/

theorem offset_of_ofOffset {off : Nat} {n : RegName} (h : RegName.ofOffset off = some n) : n.offset = off := by
  unfold RegName.ofOffset at h
  split at h <;> cases h <;> rfl

theorem offset_of_selectReg {width off : Nat} {n : RegName} (h : selectReg width off = some n) : n.offset = off :=
  offset_of_ofOffset (Option.ite_none_right_eq_some.mp h).2

/-! ## The words made of fields -/

/-- Fields side by side are a sum: the upper one weighs what the lower one's width says. -/
theorem toNat_append_eq_add {m k : Nat} (x : BitVec m) (y : BitVec k) :
    (x ++ y).toNat = x.toNat * 2 ^ k + y.toNat := by
  rw [BitVec.toNat_append, ← Nat.shiftLeft_add_eq_or_of_lt y.isLt, Nat.shiftLeft_eq]

/-- STATUS (R46). -/
theorem statusWord_toNat (r : Regs) :
    (statusWord r).toNat =
      r.asm.fstate.code.toNat + 4 * r.asm.pend.toNat + 8 * r.asm.chars.toNat + 64 * r.asm.naddr.toNat +
        1024 * r.line.nrzi.toNat + 2048 * r.line.ones.toNat := by
  simp only [statusWord, toNat_append_eq_add, BitVec.toNat_ofBool, BitVec.toNat_ofNat]
  omega

/-- EVENT (R47). -/
theorem eventWord_toNat (e : Events) :
    (eventWord e).toNat = e.errv.toNat + 2 * e.fdone.toNat + 16 * e.cause.code.toNat + 256 * e.errnaddr.toNat := by
  simp only [eventWord, toNat_append_eq_add, BitVec.toNat_ofBool, BitVec.toNat_ofNat]
  omega

/-- CTRL (R48). -/
theorem ctrlWord_toNat (c : Ctrl) : (ctrlWord c).toNat = c.ieErr.toNat + 2 * c.ieDone.toNat := by
  simp only [ctrlWord, toNat_append_eq_add, BitVec.toNat_ofBool, BitVec.toNat_ofNat]
  omega

/-- Settles O42: the offset selects a register, and its word is a sum of fields, or one field widened with zeros. -/
theorem mmioReadReturnsRegister : Obligations.MmioReadReturnsRegister := by
  refine fun s => ⟨fun off haligned hle => ?_, fun width off hnot => exec_mmioRd_refused (mt busAccepts_iff.mp hnot) s,
    rfl, statusWord_toNat s.regs, eventWord_toNat s.regs.events, ctrlWord_toNat s.regs.ctrl,
    ?result, ?srate, ?precnt, ?flagcnt, ?prebyte, ?crc, ?phase, rfl, rfl, rfl, ?hold, rfl⟩
  · obtain ⟨n, hn⟩ := selectReg_accepted (busAccepts_iff.mpr ⟨rfl, haligned, hle⟩)
    obtain rfl := offset_of_selectReg hn
    exact ⟨n, rfl, exec_mmioRd_offset n s⟩
  case result | srate | precnt | flagcnt | prebyte | crc | phase | hold =>
    exact BitVec.toNat_setWidth_of_le (by decide)

end Sys2Proof.Machine
end

section
/-! PROOFS. The error action (R305, R306) and the errors of a command (R302 to R304): what a recorded error leaves, and
that a command raises the table's first error, or none. -/

namespace Sys2Proof.Machine

/-! ## The error action -/

/-- The first error is recorded (R305). -/
theorem Events.record_first {e : Events} (h : e.errv = false) (c : Cause) (n : BitVec 4) (w : Word) :
    e.record c n w = ⟨true, e.fdone, c, n, w⟩ := by
  simp [Events.record, h]

/-- A later error is not (R305). -/
theorem Events.record_later {e : Events} (h : e.errv = true) (c : Cause) (n : BitVec 4) (w : Word) :
    e.record c n w = e := if_pos h

/-- Settles O15: the registers the action leaves, by ERRV for the events and by phase for the frame assembler. -/
theorem errorActionRecordsAndAborts : Obligations.ErrorActionRecordsAndAborts := by
  intro c info s
  rw [raiseError_regs]
  exact ⟨fun hclear => Events.record_first hclear c _ info, fun hset => Events.record_later hset c _ info,
    fun hopen => if_neg hopen, fun hidle => if_pos hidle, rfl, rfl, rfl, rfl, rfl, rfl, rfl,
    raiseError_onlyRegs s c info⟩

/-! ## The events after a command that raises no error -/

/-- The event registers are no part of what a local procedure works on. -/
theorem CommandLocal.events {f : State → State} (hf : CommandLocal f) (s : State) :
    (f s).regs.events = s.regs.events := by
  have h : f s = s.withCommandPart (f s) := hf.commutes s s
  rw [h]
  rfl

/-- FR.END sets FDONE (R187). -/
theorem frEndEffect_events (s : State) :
    (commandEffect .frEnd s).regs.events = { s.regs.events with fdone := true } :=
  congrArg (fun e : Events => { e with fdone := true }) (sendOwnDigest_local.events s)

/-- A command's effect keeps the error record, and FDONE too unless the command is FR.END (R59, R187). -/
theorem commandEffect_events (i : Instr) (s : State) :
    (commandEffect i s).regs.events = { s.regs.events with fdone := (commandEffect i s).regs.events.fdone } ∧
      ((commandEffect i s).regs.events.fdone = s.regs.events.fdone ∨ i = .frEnd) := by
  by_cases hi : i = .frEnd
  · subst hi
    rw [frEndEffect_events]
    exact ⟨rfl, .inr rfl⟩
  · rw [(commandEffect_local hi).events]
    exact ⟨rfl, .inl rfl⟩

/-! ## The errors of a command -/

/-- Of R302's last three conditions two hold at once of FR.HDR alone: ADDR.CH's two ask for different CHARS, and every
other command has one condition or none. -/
theorem eq_frHdr_of_two_conditions {i : Instr} {a : FrameAsm} {crc : BitVec 16}
    (h : (callsignError i a && countError i a || (callsignError i a || countError i a) && checksumError i crc) = true) :
    i = .frHdr := by
  cases i
  case frHdr => rfl
  case addrCh d =>
    obtain ⟨hsix, hzero, -⟩ : a.chars.toNat = 6 ∧ a.chars.toNat = 0 ∧ a.naddr.toNat = 10 := by
      simpa [callsignError, countError, checksumError] using h
    omega
  all_goals simp [callsignError, countError, checksumError] at h

/-- A command's error raised through CMD is the error action, which leaves IRQ up to date (R305, R315). -/
theorem exec_cmdWrite_of_error {w : Word} {i : Instr} {c : Cause} {s : State} (hd : decodeWord w = .ok i)
    (h : exec i s = .next (raiseError c w s)) : exec (.mmioWr 32 0x00 w) s = .next (raiseError c w s) := by
  rw [exec_cmdWrite hd, h]
  rfl

/-- Settles O16: a word that does not decode is illegal; a command is its first error's action or its effect, which keeps
the error record. -/
theorem commandErrorsFollowTable : Obligations.CommandErrorsFollowTable := by
  refine fun w s => ⟨fun e hd => exec_cmdWrite_illegal hd s, fun i hd => ?_⟩
  obtain ⟨-, hi, rfl⟩ := decodeWord_ok hd
  refine ⟨fun c hc => ?_, fun hok => ?_, eq_frHdr_of_two_conditions⟩
  · have herror := exec_of_error hi hc
    exact ⟨herror, exec_cmdWrite_of_error hd herror⟩
  · exact ⟨commandEffect i s, exec_of_ok hi hok, commandEffect_events i s⟩

end Sys2Proof.Machine
end

section
/-! PROOFS. Reset (R340, R341), and the hang of a block whose sink accepts no more (R355). -/

namespace Sys2Proof.Machine

/-! ## Reset -/

/-- Settles O57: what reset leaves meets the invariant, and resetting the reset state leaves that state. -/
theorem resetMeetsInvariant : Obligations.ResetMeetsInvariant := resetBlock_inv State.reset

/-- Settles O55: each line of the table is evaluated. -/
theorem resetValues : Obligations.ResetValues := by
  unfold Obligations.ResetValues
  decide

/-- Reset is taken at once, in mid-command, before an access still stalled, and when the block is free (R341). -/
theorem step_reset {s : State} {rest : List Stimulus} (hs : s.stimuli = .reset :: rest) :
    step s = assertReset { s with stimuli := rest } := by
  cases hb : s.busy with
  | true => simp only [step_of_busy hb, stepBusy, hs]
  | false =>
    cases hw : s.waiting with
    | nil => simp only [step_of_free hb hw, stepFree, hs, hw]
    | cons a as => simp only [step_of_stalled hb hw, stepStalled, hs, hw]

theorem assertReset_none_stalled {s : State} (h : s.waiting = []) : assertReset s = .next (resetBlock s) :=
  if_pos (List.isEmpty_iff.mpr h)

theorem assertReset_stalled {s : State} (h : s.waiting ≠ []) : assertReset s = .fault .accessLostAtReset :=
  if_neg (mt List.isEmpty_iff.mp h)

/-- Settles O54: the step is the reset input's, which asks only whether an access is stalled. -/
theorem resetAbandonsCommand : Obligations.ResetAbandonsCommand :=
  fun _ _ hs => ⟨fun hw => (step_reset hs).trans (assertReset_none_stalled hw),
    fun hw => (step_reset hs).trans (assertReset_stalled hw)⟩

/-! ## The hang -/

/-- In mid-command, with nothing to come but host accesses, each step stalls the next access and changes nothing else; with
none left the state stays (R81, R355). -/
theorem run_of_silent_sink {s : State} {as : List Access} (hb : s.busy = true) (hs : s.stimuli = as.map .access) (n : Nat) :
    Sys2Proof.core.run n s =
      .next { s with stimuli := (as.drop n).map .access, waiting := s.waiting ++ as.take n } := by
  induction n generalizing s as with
  | zero =>
    rw [List.drop_zero, List.take_zero, List.append_nil, ← hs]
    rfl
  | succ n ih =>
    cases as with
    | nil => rw [run_next (step_idle (.inl hb) hs), ih hb hs, List.take_nil, List.drop_nil, List.take_nil, List.drop_nil]
    | cons a as =>
      have hrest := ih (s := { s with stimuli := as.map .access, waiting := s.waiting ++ [a] }) hb rfl
      rw [List.append_assoc] at hrest
      exact (run_next (step_busy_access hb hs) n).trans hrest

/-- Stimuli that are all accesses are a list of accesses. -/
theorem exists_accesses {xs : List Stimulus} (h : ∀ x ∈ xs, ∃ a, x = .access a) :
    ∃ as : List Access, xs = as.map .access := by
  have hrange : xs ∈ Set.range (List.map Stimulus.access) := by
    rw [Set.range_list_map]
    exact fun x hx => (h x hx).imp fun _ => Eq.symm
  exact hrange.imp fun _ => Eq.symm

/-- Settles O51: after `n` steps the first `n` accesses to come are stalled behind those that were, and nothing else has
changed. -/
theorem silentSinkHangsTheBlock : Obligations.SilentSinkHangsTheBlock := by
  intro n s hb hx
  obtain ⟨as, hs⟩ := exists_accesses hx
  refine ⟨_, run_of_silent_sink hb hs n, hb, rfl, rfl, rfl, rfl, rfl, ?_⟩
  simp [hs, List.filterMap_map, -List.map_drop]

end Sys2Proof.Machine
end
